-- ==== Sys2Proof/Word.lean ====
section
/-! DEFINITION. The two word types of the block: a byte of LMEM, of the input stream or of an index buffer,
and a 32-bit register value (10_state.md R20). -/

namespace Sys2Proof

/-- One byte (20_memory.md R60). -/
abbrev Byte := BitVec 8

/-- One 32-bit register value or bus datum (10_state.md R20). -/
abbrev Word := BitVec 32

end Sys2Proof
end

