-- ==== Sys2Proof/Config.lean ====
section
/-! DEFINITION. What is fixed for the machine: the constants the spec fixes, the parameters it leaves OPEN, and the
free values that stand where it says "any value" or "unspecified". -/

namespace Sys2Proof

namespace Config

/-- MAX_CODE_WIDTH (00_scope.md R7). -/
def maxCodeWidth : Nat := 12

/-- DICT_SIZE = 2 ^ MAX_CODE_WIDTH (00_scope.md R8): codes are 0 to 4095. -/
def dictSize : Nat := 4096

/-- MAX_SUBBLOCK (00_scope.md R7) and ENC_BLOCK_SIZE (R10). -/
def maxSubBlock : Nat := 255

/-- MAX_COLOURS (00_scope.md R7). -/
def maxColours : Nat := 256

/-- MIN_CODE_SIZE_LO (00_scope.md R10). -/
def minCodeSizeLo : Nat := 2

/-- MIN_CODE_SIZE_HI (00_scope.md R10). -/
def minCodeSizeHi : Nat := 8

/-- ID_VALUE (00_scope.md R10, 10_state.md R21). -/
def idValue : Word := 0x4C5A5701#32

/-- FREE VALUE (log 2): what LMEM byte `a` holds after the `epoch`-th power-on reset, until a write sets it
(10_state.md R58, 93 U1: "or fix one arbitrary value per byte"). It has no body: nothing can evaluate it. -/
opaque powerOnByte (epoch a : Nat) : Byte

/-- FREE VALUE (log 3): the `n`-th byte the spec leaves at "any value" while the machine runs (93 U2, U3, U5). -/
opaque freeByte (n : Nat) : Byte

/-- FREE VALUE (log 3): the `n`-th 32-bit value the spec leaves at "any value" (93 U3, U4). -/
opaque freeWord (n : Nat) : Word

/-- FREE VALUE (DESIGN CHOICE, log 25): what CODE_COUNT holds after a DECOMPRESS that read `codes` codes, where that count
does not fit in 32 bits. Neither wrapping nor saturation is stated (40_decompress.md R150, 60_exceptions.md R266). -/
opaque wideCodeCount (codes : Nat) : Word

end Config

/-- The OPEN parameters (00_scope.md R9). They are fields of State that no step changes, so that a statement about
every state is a statement about every value of them (log 1). -/
structure Params where
  /-- LMEM_SIZE, the byte size of the block-local memory. -/
  lmemSize : Nat
  /-- REG_BASE, the host address of the register window. -/
  regBase : Nat
  /-- LMEM_HOST_BASE, the host address of the LMEM window. -/
  lmemHostBase : Nat
  deriving DecidableEq, Repr

/-- What the spec requires of the parameters: 1 ≤ LMEM_SIZE ≤ 2^32 (00_scope.md R9), REG_BASE 256-byte aligned,
LMEM_HOST_BASE 4-byte aligned, the two windows disjoint (20_memory.md R61). -/
abbrev Params.WF (p : Params) : Prop :=
  1 ≤ p.lmemSize ∧ p.lmemSize ≤ 2 ^ 32 ∧ p.regBase % 256 = 0 ∧ p.lmemHostBase % 4 = 0 ∧
    (p.regBase + 256 ≤ p.lmemHostBase ∨ p.lmemHostBase + p.lmemSize ≤ p.regBase)

/-- DESIGN CHOICE (log 1): the parameter values of `State.reset`, for want of any in the spec. -/
def Params.sample : Params := { lmemSize := 0x10000, regBase := 0, lmemHostBase := 0x10000 }

end Sys2Proof
end

