-- ==== Sys2Proof/Syntax.lean ====
section
/-! DEFINITION. The instructions of the block, one constructor for each row of spec/opcode_table.json, and the types of
their operands. -/

namespace Sys2Proof

/-- The four commands (30_encoding.md R91). -/
inductive Opcode where
  | nop
  | decompress
  | compress
  | composite
  deriving DecidableEq, Repr

/-- The two registers with write-1-to-clear bits (43_control.md R240). -/
inductive W1cReg where
  | status
  | errState
  deriving DecidableEq, Repr

/-- The instructions. -/
inductive Instr where
  -- command words (30_encoding.md R90, R91)
  /-- NOP (43_control.md R234). -/
  | nop
  /-- DECOMPRESS (40_decompress.md R130). -/
  | decompress
  /-- COMPRESS (41_compress.md R170). -/
  | compress
  /-- COMPOSITE (42_composite.md R200). -/
  | composite
  /-- A CMD write of an illegal word `v` (30_encoding.md R92, 43_control.md R238). -/
  | illegalCmd (v : Word)
  -- LZW codes (30_encoding.md R100)
  /-- CLEAR, the code 2^m (40_decompress.md R136). -/
  | clear
  /-- EOI, the code 2^m + 1 (40_decompress.md R137). -/
  | eoi
  /-- LITERAL, the first code of the stream or after a Clear (40_decompress.md R138). -/
  | literalFirst (c : Nat)
  /-- LITERAL, a later code (40_decompress.md R139). -/
  | literal (c : Nat)
  /-- DICT, a code that names an entry (40_decompress.md R140). -/
  | dict (c : Nat)
  /-- KWKWK, the code that names the entry being formed (40_decompress.md R141). -/
  | kwkwk (c : Nat)
  /-- BADCODE, a code that names nothing (40_decompress.md R142). -/
  | badcode (c : Nat)
  -- framing elements (30_encoding.md R93, R94)
  /-- The minimum-code-size byte `m` (30_encoding.md R93, R102). -/
  | minCodeSize (m : Byte)
  /-- A data sub-block: its size byte and the data bytes that follow, all `n` of them or, where the input ends early,
  those there are (30_encoding.md R94, 40_decompress.md R132). -/
  | dataBlock (n : Byte) (data : List Byte)
  /-- The block terminator, a size byte of 0 (30_encoding.md R94). -/
  | terminator
  -- host bus operations (43_control.md R230)
  /-- REG_READ(off) (43_control.md R231). -/
  | regRead (off : Nat)
  /-- REG_WRITE(off, v) (43_control.md R232, R235, R239). -/
  | regWrite (off : Nat) (v : Word)
  /-- LMEM_READ(a, n) (43_control.md R233). -/
  | lmemRead (a n : Nat)
  /-- LMEM_WRITE(a, n, v) (43_control.md R233). -/
  | lmemWrite (a n : Nat) (v : Word)
  /-- A CTRL write with bit 1 = 1 (43_control.md R241). -/
  | softReset (v : Word)
  /-- A STATUS or ERRSTATE write (43_control.md R240). -/
  | w1cStatus (r : W1cReg) (v : Word)
  -- pseudo-instructions of the host notation (30_encoding.md R121)
  /-- `rd STATUS` repeated until BUSY = 0. -/
  | wait
  /-- `wr CMD, <word of op>` followed by `wait`. -/
  | run (op : Opcode)
  /-- `wr STATUS, 0x0000001E`. -/
  | ack
  /-- `wr ERRSTATE, 0x000000FF`. -/
  | clrerr
  /-- `wr CTRL, 0x00000002`. -/
  | reset
  deriving DecidableEq, Repr

/-- The kind of a bus access (95_test_vectors.md part 3: kind, address, width, data). -/
inductive AccessKind where
  | read
  | write
  deriving DecidableEq, Repr

/-- One host bus access as it reaches the block: kind, host address, width in bytes, data (43_control.md R230,
95_test_vectors.md part 3). `data` is ignored by a read. -/
structure BusAccess where
  kind : AccessKind
  addr : Nat
  width : Nat
  data : Word
  deriving DecidableEq, Repr

/-- One line of a host program: a bus access or a pseudo-instruction (30_encoding.md R120, R121). -/
inductive HostLine where
  | access (a : BusAccess)
  | wait
  | run (op : Opcode)
  | ack
  | clrerr
  | reset
  deriving DecidableEq, Repr

/-- The encoded forms the block or its host decodes: a command word (30_encoding.md R90), a code `value/width`
(R97, R122), a run of input bytes (R93, R94), a line of a host program (R120, R121). -/
inductive Encoded where
  | cmd (w : Word)
  | code (value width : Nat)
  | bytes (bs : List Byte)
  | line (l : HostLine)
  deriving DecidableEq, Repr

end Sys2Proof
end

