-- ==== Sys2Proof/WellFormed.lean ====
section
/-! DEFINITION. Which instructions are well formed: `Instr.wf` is what the instruction's own fields must meet,
`Instr.wfIn` what they must meet in the place where the instruction is encoded (the decoder's state for a code, the
position in the input for a framing element, the parameters for a bus operation). -/

namespace Sys2Proof

/-- The illegal command words: MBZ ≠ 0, or OPCODE in 4 to 15 (30_encoding.md R92). -/
def illegalCmdWord (v : Word) : Bool :=
  v.toNat / 16 != 0 || 4 ≤ v.toNat % 16

/-- A host LMEM access: n = 1, 2 or 4, and a mod n = 0 (20_memory.md R62). -/
def lmemAligned (a n : Nat) : Bool :=
  (n == 1 || n == 2 || n == 4) && a % n == 0

/-- A register offset: a multiple of 4 inside the 256-byte window (20_memory.md R63, 10_state.md R20). -/
def regOffsetOk (off : Nat) : Bool :=
  off % 4 == 0 && decide (off < 256)

/-- What the fields of an instruction must meet, wherever it stands. A REG_WRITE that is a soft reset, a
write-1-to-clear write or an illegal CMD write is written as SOFT_RESET, W1C_STATUS or ILLEGAL_CMD (log 23). -/
def Instr.wf : Instr → Bool
  | .nop => true
  | .decompress => true
  | .compress => true
  | .composite => true
  | .illegalCmd v => illegalCmdWord v
  | .clear => true
  | .eoi => true
  | .literalFirst c => decide (c < 256)
  | .literal c => decide (c < 256)
  | .dict c => decide (6 ≤ c ∧ c < Config.dictSize)
  | .kwkwk c => decide (6 ≤ c ∧ c < Config.dictSize)
  | .badcode c => decide (6 ≤ c ∧ c < Config.dictSize)
  | .minCodeSize _ => true
  | .dataBlock n data => n != 0#8 && data.length == n.toNat
  | .terminator => true
  | .regRead off => regOffsetOk off
  | .regWrite off v =>
    regOffsetOk off && !(off == 0x04 && v.getLsbD 1) && off != 0x0C && off != 0x10 && !(off == 0x08 && illegalCmdWord v)
  | .lmemRead a n => lmemAligned a n
  | .lmemWrite a n v => lmemAligned a n && decide (v.toNat < 2 ^ (8 * n))
  | .softReset v => v.getLsbD 1
  | .w1cStatus _ _ => true
  | .wait => true
  | .run _ => true
  | .ack => true
  | .clrerr => true
  | .reset => true

/-- Where an encoded form stands: the parameters of the block; the minimum code size, width, next code and previous
code the decoder holds (30_encoding.md R100); and whether the next input byte is the first one (R93). -/
structure Place where
  params : Params
  m : Nat
  width : Nat
  nxt : Nat
  prev : Option Nat
  first : Bool
  deriving DecidableEq, Repr

/-- The decoder's numbers are ones a decoder can hold: m in 2 to 8, width m+1 to 12, FIRST(m) ≤ nxt ≤ 4096
(10_state.md R55, 30_encoding.md R102). -/
def Place.codecOk (p : Place) : Bool :=
  decide (2 ≤ p.m ∧ p.m ≤ 8 ∧ p.m + 1 ≤ p.width ∧ p.width ≤ Config.maxCodeWidth ∧ 2 ^ p.m + 2 ≤ p.nxt ∧
    p.nxt ≤ Config.dictSize)

/-- What the fields must meet at a place: the class condition of a code and its width (30_encoding.md R100), the
position of a framing element (R93), the bounds of a bus operation (20_memory.md R62). -/
def Instr.wfIn (p : Place) (i : Instr) : Bool :=
  i.wf &&
  match i with
  | .nop => true
  | .decompress => true
  | .compress => true
  | .composite => true
  | .illegalCmd _ => true
  | .clear => p.codecOk
  | .eoi => p.codecOk
  | .literalFirst c => p.codecOk && decide (c < 2 ^ p.m ∧ p.prev = none)
  | .literal c => p.codecOk && decide (c < 2 ^ p.m ∧ p.prev ≠ none)
  | .dict c => p.codecOk && decide (c < 2 ^ p.width ∧ 2 ^ p.m + 2 ≤ c ∧ c < p.nxt ∧ p.prev ≠ none)
  | .kwkwk c => p.codecOk && decide (c < 2 ^ p.width ∧ c = p.nxt ∧ p.prev ≠ none ∧ p.nxt < Config.dictSize)
  | .badcode c => p.codecOk && decide (c < 2 ^ p.width ∧ 2 ^ p.m + 2 ≤ c ∧ (p.prev = none ∨ p.nxt < c))
  | .minCodeSize _ => p.first
  | .dataBlock _ _ => !p.first
  | .terminator => !p.first
  | .regRead _ => true
  | .regWrite _ _ => true
  | .lmemRead a n => decide (p.params.WF ∧ a + n ≤ p.params.lmemSize)
  | .lmemWrite a n _ => decide (p.params.WF ∧ a + n ≤ p.params.lmemSize)
  | .softReset _ => true
  | .w1cStatus _ _ => true
  | .wait => true
  | .run _ => true
  | .ack => true
  | .clrerr => true
  | .reset => true

end Sys2Proof
end

