-- ==== Sys2Proof/Decode.lean ====
section
/-! DEFINITION. Decoding, total and rejecting by name, of the four encoded forms the block meets (command words, codes,
framing elements, host lines), and after it the encoder. -/

namespace Sys2Proof

/-- Why an encoded form is no instruction at its place. -/
inductive Reject where
  /-- The host address lies in neither window: the access is not the block's (20_memory.md R61, log 12). -/
  | outsideWindows
  /-- A register access of a width other than 4 (20_memory.md R63): BUS_ERROR. -/
  | regWidth
  /-- A register access at an offset that is no multiple of 4 (20_memory.md R63): BUS_ERROR. -/
  | regAlignment
  /-- An LMEM access of a width other than 1, 2 or 4 (20_memory.md R64): BUS_ERROR. -/
  | lmemWidth
  /-- A misaligned LMEM access (20_memory.md R64): BUS_ERROR. -/
  | lmemAlignment
  /-- An LMEM access that ends beyond LMEM_SIZE (20_memory.md R64): BUS_ERROR. -/
  | lmemBounds
  /-- There is no further input byte (40_decompress.md R132). -/
  | endOfInput
  /-- More bytes than the element has: `decode` reads exactly one element. -/
  | trailingBytes
  /-- The code is not of the decoder's current width, or does not fit it (30_encoding.md R97, R104). -/
  | codeWidth
  deriving DecidableEq, Repr

/-! ### Command words -/

/-- OPCODE, bits [3:0] of a command word (30_encoding.md R90). -/
def cmdOpcode (w : Word) : BitVec 4 := w.extractLsb' 0 4

/-- MBZ, bits [31:4] of a command word (30_encoding.md R90). -/
def cmdMbz (w : Word) : BitVec 28 := w.extractLsb' 4 28

/-- The opcode map (30_encoding.md R91), or none for an illegal word (R92). -/
def decodeOpcode (w : Word) : Option Opcode :=
  if cmdMbz w = 0#28 then
    if cmdOpcode w = 0#4 then some .nop
    else if cmdOpcode w = 1#4 then some .decompress
    else if cmdOpcode w = 2#4 then some .compress
    else if cmdOpcode w = 3#4 then some .composite
    else none
  else none

/-- The instruction of a command. -/
def Opcode.instr : Opcode → Instr
  | .nop => .nop
  | .decompress => .decompress
  | .compress => .compress
  | .composite => .composite

/-- The OPCODE value of a command (30_encoding.md R91), as STATUS.LAST_OP shows it. -/
def Opcode.code : Opcode → BitVec 4
  | .nop => 0#4
  | .decompress => 1#4
  | .compress => 2#4
  | .composite => 3#4

/-- The command word of a command (30_encoding.md R91). -/
def Opcode.word (op : Opcode) : Word := 0#28 ++ op.code

/-- A 32-bit command word (30_encoding.md R90 to R92). -/
def decodeCmd (w : Word) : Instr :=
  match decodeOpcode w with
  | some op => op.instr
  | none => .illegalCmd w

/-! ### Codes -/

/-- CLEAR(m) (00_scope.md R11). -/
def clearCode (m : Nat) : Nat := 2 ^ m

/-- EOI(m) (00_scope.md R11). -/
def eoiCode (m : Nat) : Nat := 2 ^ m + 1

/-- FIRST(m) (00_scope.md R11). -/
def firstCode (m : Nat) : Nat := 2 ^ m + 2

/-- INIT_WIDTH(m) (00_scope.md R11). -/
def initWidth (m : Nat) : Nat := m + 1

/-- The class of code `c`, tested in the order of the table (30_encoding.md R100). -/
def classify (m nxt : Nat) (prev : Option Nat) (c : Nat) : Instr :=
  if c = clearCode m then .clear
  else if c = eoiCode m then .eoi
  else if c < 2 ^ m then (if prev = none then .literalFirst c else .literal c)
  else if firstCode m ≤ c ∧ c < nxt ∧ prev ≠ none then .dict c
  else if c = nxt ∧ prev ≠ none ∧ nxt < Config.dictSize then .kwkwk c
  else .badcode c

/-- Bit k of the code stream held in the byte string D: bit (k mod 8) of byte D[k / 8] (30_encoding.md R96). -/
def streamBit (d : List Byte) (k : Nat) : Bool := (d.getD (k / 8) 0#8).getLsbD (k % 8)

/-- The code of width w at stream bit position p: the sum of bit(p+i) * 2^i (30_encoding.md R97). -/
def codeAt (d : List Byte) (p : Nat) : Nat → Nat
  | 0 => 0
  | w + 1 => (streamBit d p).toNat + 2 * codeAt d (p + 1) w

/-! ### Framing elements -/

/-- The framing element at the head of the unread input bytes, and the bytes after it (30_encoding.md R93, R94;
40_decompress.md R132). A sub-block whose data bytes run out keeps those there are. -/
def decodeElement (first : Bool) (bs : List Byte) : Except Reject (Instr × List Byte) :=
  match bs with
  | [] => .error .endOfInput
  | b :: r =>
    if first then .ok (.minCodeSize b, r)
    else if b = 0#8 then .ok (.terminator, r)
    else .ok (.dataBlock b (r.take b.toNat), r.drop b.toNat)

/-! ### Host lines -/

/-- A register write, split into the rows of the opcode table it may be (log 23): SOFT_RESET (43_control.md R241),
W1C_STATUS (R240), ILLEGAL_CMD (R238), or REG_WRITE (R232). -/
def decodeRegWrite (off : Nat) (v : Word) : Instr :=
  if off = 0x04 ∧ v.getLsbD 1 = true then .softReset v
  else if off = 0x0C then .w1cStatus .status v
  else if off = 0x10 then .w1cStatus .errState v
  else if off = 0x08 ∧ decodeOpcode v = none then .illegalCmd v
  else .regWrite off v

/-- A bus access (20_memory.md R61 to R64, 43_control.md R230). -/
def decodeAccess (p : Params) (b : BusAccess) : Except Reject Instr :=
  if p.regBase ≤ b.addr ∧ b.addr < p.regBase + 256 then
    let off := b.addr - p.regBase
    if b.width ≠ 4 then .error .regWidth
    else if off % 4 ≠ 0 then .error .regAlignment
    else match b.kind with
      | .read => .ok (.regRead off)
      | .write => .ok (decodeRegWrite off b.data)
  else if p.lmemHostBase ≤ b.addr ∧ b.addr < p.lmemHostBase + p.lmemSize then
    let a := b.addr - p.lmemHostBase
    if ¬(b.width = 1 ∨ b.width = 2 ∨ b.width = 4) then .error .lmemWidth
    else if a % b.width ≠ 0 then .error .lmemAlignment
    else if p.lmemSize < a + b.width then .error .lmemBounds
    else match b.kind with
      | .read => .ok (.lmemRead a b.width)
      | .write => .ok (.lmemWrite a b.width b.data)
  else .error .outsideWindows

/-- A line of a host program (30_encoding.md R120, R121). -/
def decodeLine (p : Params) (l : HostLine) : Except Reject Instr :=
  match l with
  | .access b => decodeAccess p b
  | .wait => .ok .wait
  | .run op => .ok (.run op)
  | .ack => .ok .ack
  | .clrerr => .ok .clrerr
  | .reset => .ok .reset

/-! ### All forms -/

/-- Decode one encoded form at a place. -/
def decode (p : Place) (e : Encoded) : Except Reject Instr :=
  match e with
  | .cmd w => .ok (decodeCmd w)
  | .code v w => if w = p.width ∧ v < 2 ^ w then .ok (classify p.m p.nxt p.prev v) else .error .codeWidth
  | .bytes bs =>
    match decodeElement p.first bs with
    | .ok (i, []) => .ok i
    | .ok (_, _ :: _) => .error .trailingBytes
    | .error r => .error r
  | .line l => decodeLine p.params l

/-! ### The encoder -/

/-- A register access at an offset (43_control.md R230). -/
def regAccess (p : Params) (k : AccessKind) (off : Nat) (v : Word) : HostLine :=
  .access { kind := k, addr := p.regBase + off, width := 4, data := v }

/-- An LMEM access (43_control.md R230). -/
def lmemAccess (p : Params) (k : AccessKind) (a n : Nat) (v : Word) : HostLine :=
  .access { kind := k, addr := p.lmemHostBase + a, width := n, data := v }

/-- The offset of a register with write-1-to-clear bits (10_state.md R24, R25). -/
def W1cReg.offset : W1cReg → Nat
  | .status => 0x0C
  | .errState => 0x10

/-- The encoded form of an instruction at a place: its command word (30_encoding.md R91), its code and width (R101),
its bytes (R93, R94), or its host line (R120, R121). -/
def encode (p : Place) (i : Instr) : Encoded :=
  match i with
  | .nop => .cmd 0x00000000#32
  | .decompress => .cmd 0x00000001#32
  | .compress => .cmd 0x00000002#32
  | .composite => .cmd 0x00000003#32
  | .illegalCmd v => .cmd v
  | .clear => .code (clearCode p.m) p.width
  | .eoi => .code (eoiCode p.m) p.width
  | .literalFirst c => .code c p.width
  | .literal c => .code c p.width
  | .dict c => .code c p.width
  | .kwkwk c => .code c p.width
  | .badcode c => .code c p.width
  | .minCodeSize m => .bytes [m]
  | .dataBlock n data => .bytes (n :: data)
  | .terminator => .bytes [0x00#8]
  | .regRead off => .line (regAccess p.params .read off 0#32)
  | .regWrite off v => .line (regAccess p.params .write off v)
  | .lmemRead a n => .line (lmemAccess p.params .read a n 0#32)
  | .lmemWrite a n v => .line (lmemAccess p.params .write a n v)
  | .softReset v => .line (regAccess p.params .write 0x04 v)
  | .w1cStatus r v => .line (regAccess p.params .write r.offset v)
  | .wait => .line .wait
  | .run op => .line (.run op)
  | .ack => .line .ack
  | .clrerr => .line .clrerr
  | .reset => .line .reset

/-! ### Words numbered as the opcode table numbers them -/

/-- The `k` bytes of a number, least significant first. -/
def leBytes : Nat → Nat → List Byte
  | 0, _ => []
  | k + 1, w => BitVec.ofNat 8 w :: leBytes k (w / 256)

/-- Where a 12-bit code of the opcode table is read (log 13): m = 8, width 12, 1790 entries assigned, previous code 0. -/
def tablePlace : Place :=
  { params := Params.sample, m := 8, width := 12, nxt := 2048, prev := some 0, first := false }

/-- Whether a framing byte of the opcode table is read as the first byte of the image data (log 13): the accepted minimum
code sizes are, every other value is a size byte. -/
def tableFirst (w : Nat) : Bool := decide (2 ≤ w ∧ w ≤ 8)

/-- The instruction the decoder reads from the `nbits` bits of `w` (log 13): 32 bits are a command word; 8 bits are a
framing byte, followed by zeros; 12 or 16 bits are a code of the widest form, width 12; any other whole number of bytes is
a data sub-block. -/
def decodeTableWord (nbits w : Nat) : Option Instr :=
  if nbits = 32 then (if w < 2 ^ 32 then some (decodeCmd (BitVec.ofNat 32 w)) else none)
  else if nbits = 8 then
    match decodeElement (tableFirst w) (leBytes 1 w ++ List.replicate 255 0#8) with
    | .ok (i, _) => if w < 256 then some i else none
    | .error _ => none
  else if nbits = 12 ∨ nbits = 16 then
    (if w < 2 ^ 12 then some (classify tablePlace.m tablePlace.nxt tablePlace.prev w) else none)
  else if nbits % 8 = 0 then
    match decodeElement false (leBytes (nbits / 8) w) with
    | .ok (.dataBlock n data, []) => if data.length = n.toNat then some (.dataBlock n data) else none
    | _ => none
  else none

end Sys2Proof
end

