-- ==== Sys2Proof/Machine/State.lean ====
section
/-! DEFINITION. The state of the machine as plain data: the registers, the sequencer, the command-local datapath, LMEM,
the host's side of the bus, and the model's own bookkeeping of what the spec leaves open; and the state after reset. -/

namespace Sys2Proof.Machine

/-- Why a step stops. The block itself never stops (60_exceptions.md R251: its faults are status bits); these are raised
only by the meanings of codes and framing elements, in states that hold no place for them (log 8). -/
inductive Fault where
  /-- Raised by the meaning of a code or a framing element when the datapath holds no DECOMPRESS in its code loop or
  framing pass (10_state.md R55: that state exists only while a command runs). Safe: no such step is ever fetched. -/
  | noElementStream
  /-- Raised by the meaning of a code whose value is not of the class the instruction names (30_encoding.md R100: a code
  is in exactly one class). Safe: the decoder never yields such an instruction. -/
  | notOfThisClass
  deriving DecidableEq, Repr

/-- Why an instruction has no meaning. -/
inductive Refusal where
  /-- The instruction is not modelled yet; raised in an arm of `exec` only. Safe: the step stops. -/
  | notModelled (mnemonic : String)
  deriving DecidableEq, Repr

/-! ### Registers -/

/-- STATUS (10_state.md R24). -/
structure Status where
  busy : Bool
  done : Bool
  fault : Bool
  illegalCmd : Bool
  overrun : Bool
  lastOp : BitVec 4
  faultCause : BitVec 8
  deriving DecidableEq, Repr

/-- LZW_INFO (10_state.md R35). -/
structure LzwInfo where
  minCodeSize : BitVec 8
  initWidth : BitVec 4
  deriving DecidableEq, Repr

/-- LZW_CODES (10_state.md R36). -/
structure LzwCodes where
  clearCode : BitVec 16
  eoiCode : BitVec 16
  deriving DecidableEq, Repr

/-- LZW_STATE (10_state.md R52). -/
structure LzwState where
  nextCode : BitVec 13
  codeWidth : BitVec 4
  deriving DecidableEq, Repr

/-- IMG_FLAGS (10_state.md R41). -/
structure ImgFlags where
  interlaced : Bool
  transparent : Bool
  transparentIndex : Byte
  deriving DecidableEq, Repr

/-- PREV_INFO (10_state.md R44). -/
structure PrevInfo where
  prevDisposal : BitVec 3
  n2Exists : Bool
  deriving DecidableEq, Repr

/-- The register file (10_state.md R20 to R52). A register with reserved bits holds its fields only: the other bits are
RAZ/WI (R20). ID is hard-wired and CMD holds nothing (R21, R23), so neither has a field. -/
structure Regs where
  /-- CTRL.IRQ_EN (R22). -/
  irqEn : Bool
  status : Status
  /-- ERRSTATE[7:0] (R25). -/
  errState : BitVec 8
  /-- LAST_ERR[7:0] (R26). -/
  lastErr : BitVec 8
  inBase : Word
  inLen : Word
  pixBase : Word
  pixCount : Word
  outBase : Word
  outCap : Word
  outLen : Word
  /-- LZW_CFG.MIN_CODE_SIZE (R34). -/
  lzwCfg : BitVec 4
  lzwInfo : LzwInfo
  lzwCodes : LzwCodes
  inPos : Word
  screenSize : Word
  imgPos : Word
  imgSize : Word
  imgFlags : ImgFlags
  ctBase : Word
  ctLen : Word
  prevInfo : PrevInfo
  prevPos : Word
  prevSize : Word
  prevBg : Word
  canvasBase : Word
  n2Base : Word
  blockCount : Word
  codeCount : Word
  lzwState : LzwState
  deriving DecidableEq, Repr

/-- The sequencer SEQ (10_state.md R54). -/
inductive Seq where
  | idle
  | running (op : Opcode)
  deriving DecidableEq, Repr

/-! ### Command-local datapath (10_state.md R55) -/

/-- The running codec of the decompressor: minimum code size m, code width w, previous code, and the strings of the codes
from FIRST(m) on in the order they were assigned (10_state.md R55, R56). -/
structure Codec where
  m : Nat
  width : Nat
  prev : Option Nat
  dict : List (List Byte)
  deriving DecidableEq, Repr

/-- nxt, the lowest code not yet assigned: FIRST(m) plus the number of entries (00_scope.md R15, log 10). -/
def Codec.nxt (k : Codec) : Nat := firstCode k.m + k.dict.length

/-- The decompressor's datapath (40_decompress.md R132 to R135). -/
structure Decoder where
  /-- npix, the expected pixel count (R131). -/
  npix : Nat
  /-- The input bytes not yet parsed; the byte cursor of R132 stands before the first of them. -/
  rest : List Byte
  /-- The number of input bytes consumed, `pos` of R132. -/
  inPos : Nat
  /-- The minimum-code-size byte once it is read (R132), accepted or not. -/
  minCode : Option Byte
  /-- The data string D (R132). -/
  data : List Byte
  /-- The number of sub-blocks whose size byte was read (R132). -/
  blocks : Nat
  /-- The framing pass has ended (R132). -/
  framed : Bool
  /-- The codec state, none where the codec is not running (R133). -/
  codec : Option Codec
  /-- The bit cursor (R134). -/
  bitPos : Nat
  /-- CODE_COUNT so far (R134). -/
  codes : Nat
  /-- The decoded indices (R144). -/
  out : List Byte
  /-- Decoding was stopped by EOI, a bad code or the end of the code stream (R135). -/
  stopped : Bool
  deriving DecidableEq, Repr

/-- One entry of ED: the pair (code, index) and the code it maps to (41_compress.md R174). -/
structure EdEntry where
  code : Nat
  index : Byte
  value : Nat
  deriving DecidableEq, Repr

/-- The compressor's datapath (41_compress.md R174, R177). -/
structure Encoder where
  m : Nat
  /-- The indices not yet matched. -/
  rest : List Byte
  /-- ED, the latest entry first. -/
  ed : List EdEntry
  /-- cur, none before the first index (R175). -/
  cur : Option Nat
  /-- The codes emitted so far, each with its width (R175). -/
  codes : List (Nat × Nat)
  /-- The decoder mirror (R177). -/
  dw : Nat
  dnext : Nat
  dfirst : Bool
  /-- EOI has been emitted. -/
  finished : Bool
  deriving DecidableEq, Repr

/-- enext, the next code to assign: FIRST(m) plus the number of entries of ED (41_compress.md R174, log 10). -/
def Encoder.enext (e : Encoder) : Nat := firstCode e.m + e.ed.length

/-- One canvas pixel (20_memory.md R67). -/
structure Pixel where
  r : Byte
  g : Byte
  b : Byte
  a : Byte
  deriving DecidableEq, Repr

/-- The compositor's datapath: the operands of step 4 (42_composite.md R208), the row and column counters (10_state.md
R55), and the canvas C being built. -/
structure Compositor where
  sw : Nat
  sh : Nat
  x : Nat
  y : Nat
  w : Nat
  h : Nat
  transparent : Option Byte
  ctLen : Nat
  /-- The colour-index buffer as read from LMEM, np bytes. -/
  pix : List Byte
  /-- The colour-table bytes as read from LMEM, 3 x CT_LEN bytes. -/
  table : List Byte
  /-- rowmap (R207). -/
  rows : List Nat
  row : Nat
  col : Nat
  /-- C, row by row. -/
  canvas : List Pixel
  deriving DecidableEq, Repr

/-- The datapath. It is idle whenever no completion step is under way; since a completion step is atomic, that is
between any two steps (10_state.md R55, 43_control.md R236, log 7). -/
inductive Datapath where
  | idle
  | decoder (d : Decoder)
  | encoder (e : Encoder)
  | compositor (c : Compositor)
  deriving DecidableEq, Repr

/-! ### The host's side -/

/-- What a bus operation gave the host (43_control.md R230). -/
inductive BusResult where
  /-- A read's datum, zero-extended to 32 bits. -/
  | data (v : Word)
  | ok
  | busError
  /-- The access reached no window of the block (20_memory.md R61, log 12). -/
  | noResponse
  deriving DecidableEq, Repr

/-- Who moves next, where the spec leaves it open (43_control.md R237, log 5); or the power-on reset input is asserted
and released (70_reset_and_hazards.md R280, log 19). -/
inductive Turn where
  | host
  | block
  | powerOn
  deriving DecidableEq, Repr

/-! ### LMEM -/

/-- LMEM as the bytes written since power-on, by strictly rising address. An unlisted byte is unwritten (10_state.md
R58); what it reads as is `Config.powerOnByte` (log 2). -/
abbrev Memory := List Host.Cell

/-- The addresses are strictly rising. Since an unlisted byte is one that nothing has written, no entry can equal what
an unlisted address holds, so memories with the same written bytes are the same list. -/
def Memory.wf : Memory → Bool
  | [] => true
  | [_] => true
  | (a, _) :: (b, v) :: r => decide (a < b) && Memory.wf ((b, v) :: r)

/-! ### The machine -/

/-- The state of the block and of the host's side of its bus. -/
structure State where
  /-- The OPEN parameters (00_scope.md R9). -/
  params : Params
  regs : Regs
  seq : Seq
  datapath : Datapath
  mem : Memory
  /-- The host's pending lines (log 4). -/
  host : List HostLine
  /-- What the last bus operation gave the host, none before the first (log 14). -/
  resp : Option BusResult
  /-- The schedule (log 5). -/
  sched : List Turn
  /-- A host write has touched a region of the running command (20_memory.md R76, log 11). -/
  disturbed : Bool
  /-- The number of free values used (log 3). -/
  fresh : Nat
  /-- The number of power-on resets that have happened (log 2). -/
  epoch : Nat
  deriving DecidableEq, Repr

/-- The register values after reset (70_reset_and_hazards.md R282). -/
def Regs.reset : Regs where
  irqEn := false
  status := { busy := false, done := false, fault := false, illegalCmd := false, overrun := false, lastOp := 0#4,
              faultCause := 0#8 }
  errState := 0#8
  lastErr := 0#8
  inBase := 0#32
  inLen := 0#32
  pixBase := 0#32
  pixCount := 0#32
  outBase := 0#32
  outCap := 0#32
  outLen := 0#32
  lzwCfg := 0#4
  lzwInfo := { minCodeSize := 0#8, initWidth := 0#4 }
  lzwCodes := { clearCode := 0#16, eoiCode := 0#16 }
  inPos := 0#32
  screenSize := 0#32
  imgPos := 0#32
  imgSize := 0#32
  imgFlags := { interlaced := false, transparent := false, transparentIndex := 0#8 }
  ctBase := 0#32
  ctLen := 0#32
  prevInfo := { prevDisposal := 0#3, n2Exists := false }
  prevPos := 0#32
  prevSize := 0#32
  prevBg := 0#32
  canvasBase := 0#32
  n2Base := 0#32
  blockCount := 0#32
  codeCount := 0#32
  lzwState := { nextCode := 0#13, codeWidth := 0#4 }

/-- The state after power-on reset with parameters `p` (70_reset_and_hazards.md R280, R282; 10_state.md R59). -/
def State.resetWith (p : Params) : State where
  params := p
  regs := Regs.reset
  seq := .idle
  datapath := .idle
  mem := []
  host := []
  resp := none
  sched := []
  disturbed := false
  fresh := 0
  epoch := 0

/-- The state after power-on reset, at the sample parameters (DESIGN CHOICE, log 1). -/
def State.reset : State := State.resetWith Params.sample

end Sys2Proof.Machine
end

