-- ==== Sys2Proof/Machine/Flags.lean ====
section
/-! DEFINITION. Every status and error bit: the error-state bitmask, the fault causes, the STATUS word, write-1-to-clear
and the interrupt level. -/

namespace Sys2Proof.Machine

/-! ### Data-quality error bits (60_exceptions.md R252) -/

/-- A set of error bits: the layout of ERRSTATE[7:0] and LAST_ERR[7:0]. 0 is the document's `Ok`. -/
abbrev ErrBits := BitVec 8

/-- Bit 0 (R252). -/
def errEndOfStream : ErrBits := 0x01#8
/-- Bit 1 (R252). -/
def errInputTruncated : ErrBits := 0x02#8
/-- Bit 2 (R252). -/
def errTooFewPixels : ErrBits := 0x04#8
/-- Bit 3 (R252). -/
def errTooManyPixels : ErrBits := 0x08#8
/-- Bit 4 (R252). -/
def errBadCode : ErrBits := 0x10#8
/-- Bit 5 (R252). -/
def errBadMinCodeSize : ErrBits := 0x20#8
/-- Bit 6 (R252). -/
def errBadColourIndex : ErrBits := 0x40#8
/-- Bit 7 (R252). -/
def errNoImageData : ErrBits := 0x80#8

/-- The bits `b` where the condition holds, else none. -/
def errIf (c : Bool) (b : ErrBits) : ErrBits := if c then b else 0#8

/-- SetErr(b): LAST_ERR and ERRSTATE both take the bits (00_scope.md R13, 60_exceptions.md R252). -/
def setErr (b : ErrBits) (s : State) : State :=
  { s with regs := { s.regs with lastErr := s.regs.lastErr ||| b, errState := s.regs.errState ||| b } }

/-- TestState(b): (ERRSTATE & b) = b (60_exceptions.md R253). -/
def testErrState (b : ErrBits) (r : Regs) : Bool := r.errState &&& b == b

/-! ### Fault causes (60_exceptions.md R255) -/

/-- The causes a command can raise. -/
inductive FaultCause where
  | regionBounds
  | regionOverlap
  | badMinCodeSize
  | pixelIndexRange
  | outputCapacity
  | ctLenRange
  deriving DecidableEq, Repr

/-- The code written to STATUS.FAULT_CAUSE (R255). -/
def FaultCause.code : FaultCause → BitVec 8
  | .regionBounds => 1#8
  | .regionOverlap => 2#8
  | .badMinCodeSize => 3#8
  | .pixelIndexRange => 4#8
  | .outputCapacity => 5#8
  | .ctLenRange => 6#8

/-! ### STATUS (10_state.md R24) -/

/-- The 32-bit value of STATUS: [31:24] 0, [23:16] FAULT_CAUSE, [15:12] 0, [11:8] LAST_OP, [7:5] 0, then OVERRUN,
ILLEGAL_CMD, FAULT, DONE, BUSY. -/
def Status.toWord (s : Status) : Word :=
  0#8 ++ s.faultCause ++ 0#4 ++ s.lastOp ++ 0#3 ++ BitVec.ofBool s.overrun ++ BitVec.ofBool s.illegalCmd ++
    BitVec.ofBool s.fault ++ BitVec.ofBool s.done ++ BitVec.ofBool s.busy

/-- A write to STATUS clears each W1C bit whose written value is 1 (10_state.md R24, 43_control.md R240). -/
def Status.w1c (v : Word) (s : Status) : Status :=
  { s with
    done := s.done && !v.getLsbD 1
    fault := s.fault && !v.getLsbD 2
    illegalCmd := s.illegalCmd && !v.getLsbD 3
    overrun := s.overrun && !v.getLsbD 4 }

/-- A write to ERRSTATE clears each bit whose written value is 1 (10_state.md R25). -/
def errW1c (v : Word) (e : ErrBits) : ErrBits := e &&& ~~~(v.extractLsb' 0 8)

/-- The write-1-to-clear write of STATUS or ERRSTATE (43_control.md R240). -/
def clearW1c (r : W1cReg) (v : Word) (s : State) : State :=
  match r with
  | .status => { s with regs := { s.regs with status := s.regs.status.w1c v } }
  | .errState => { s with regs := { s.regs with errState := errW1c v s.regs.errState } }

/-- The acceptance of a command clears DONE, FAULT and FAULT_CAUSE and sets BUSY and LAST_OP (43_control.md R235). -/
def Status.accept (op : Opcode) (s : Status) : Status :=
  { s with busy := true, lastOp := op.code, done := false, fault := false, faultCause := 0#8 }

/-- A fault records FAULT and FAULT_CAUSE (43_control.md R236, 60_exceptions.md R258). -/
def Status.raise (c : FaultCause) (s : Status) : Status :=
  { s with fault := true, faultCause := c.code }

/-- The end of a command, by fault or not: BUSY = 0 and DONE = 1 (43_control.md R236). -/
def Status.finish (s : Status) : Status :=
  { s with busy := false, done := true }

/-- IRQ = CTRL.IRQ_EN and (STATUS.DONE or STATUS.ILLEGAL_CMD), a level (60_exceptions.md R262, 10_state.md R57). -/
def irq (s : State) : Bool := s.regs.irqEn && (s.regs.status.done || s.regs.status.illegalCmd)

end Sys2Proof.Machine
end

