-- ==== Sys2Proof/Machine/Operands.lean ====
section
/-! DEFINITION. Every operand form: the packed descriptor fields, the command regions and their checks, LMEM bytes and
little-endian values. -/

namespace Sys2Proof.Machine

/-! ### Packed descriptor fields (30_encoding.md R112) -/

/-- The x or width half, bits [15:0]. -/
def lo16 (v : Word) : Nat := (v.extractLsb' 0 16).toNat

/-- The y or height half, bits [31:16]. -/
def hi16 (v : Word) : Nat := (v.extractLsb' 16 16).toNat

/-- SW and SH (10_state.md R38). -/
def Regs.screenW (r : Regs) : Nat := lo16 r.screenSize
def Regs.screenH (r : Regs) : Nat := hi16 r.screenSize

/-- X and Y (10_state.md R39). -/
def Regs.imgX (r : Regs) : Nat := lo16 r.imgPos
def Regs.imgY (r : Regs) : Nat := hi16 r.imgPos

/-- W and H (10_state.md R40). -/
def Regs.imgW (r : Regs) : Nat := lo16 r.imgSize
def Regs.imgH (r : Regs) : Nat := hi16 r.imgSize

/-- PX and PY (10_state.md R45). -/
def Regs.prevX (r : Regs) : Nat := lo16 r.prevPos
def Regs.prevY (r : Regs) : Nat := hi16 r.prevPos

/-- PW and PH (10_state.md R46). -/
def Regs.prevW (r : Regs) : Nat := lo16 r.prevSize
def Regs.prevH (r : Regs) : Nat := hi16 r.prevSize

/-- npix = W x H (40_decompress.md R131). -/
def Regs.npix (r : Regs) : Nat := r.imgW * r.imgH

/-- The canvas size in bytes, 4 x SW x SH (20_memory.md R67). -/
def Regs.canvasBytes (r : Regs) : Nat := 4 * (r.screenW * r.screenH)

/-- Frame N-2's canvas is a region, and is read, when N2_EXISTS = 1 and PREV_DISPOSAL > 1 (20_memory.md R70,
42_composite.md R205). -/
def Regs.seeds (r : Regs) : Bool := r.prevInfo.n2Exists && decide (1 < r.prevInfo.prevDisposal.toNat)

/-! ### Command regions (20_memory.md R70 to R72) -/

/-- A byte range [base, base+len) of LMEM that a command reads or writes. -/
structure Region where
  base : Nat
  len : Nat
  write : Bool
  deriving DecidableEq, Repr

/-- The byte address `a` lies in the region. -/
def Region.has (g : Region) (a : Nat) : Bool := decide (g.base ≤ a ∧ a < g.base + g.len)

/-- The regions of a command, in the order of the table (R70). -/
def regionsOf (op : Opcode) (r : Regs) : List Region :=
  match op with
  | .nop => []
  | .decompress =>
    [{ base := r.inBase.toNat, len := r.inLen.toNat, write := false },
     { base := r.pixBase.toNat, len := r.npix, write := true }]
  | .compress =>
    [{ base := r.pixBase.toNat, len := r.pixCount.toNat, write := false },
     { base := r.outBase.toNat, len := r.outCap.toNat, write := true }]
  | .composite =>
    [{ base := r.pixBase.toNat, len := r.pixCount.toNat, write := false },
     { base := r.ctBase.toNat, len := 3 * r.ctLen.toNat, write := false }] ++
    (if r.seeds then [{ base := r.n2Base.toNat, len := r.canvasBytes, write := false }] else []) ++
    [{ base := r.canvasBase.toNat, len := r.canvasBytes, write := true }]

/-- A region passes when it is empty or ends inside LMEM, with no wrap-around (R71). -/
def Region.inBounds (lmemSize : Nat) (g : Region) : Bool := g.len == 0 || decide (g.base + g.len ≤ lmemSize)

/-- Two regions share a byte address; empty ones share none (R72). -/
def Region.overlaps (g h : Region) : Bool :=
  g.len != 0 && h.len != 0 && decide (g.base < h.base + h.len ∧ h.base < g.base + g.len)

/-- A write region shares a byte address with another region of the command (R72). -/
def anyOverlap : List Region → Bool
  | [] => false
  | g :: rest => rest.any (fun h => (g.write || h.write) && g.overlaps h) || anyOverlap rest

/-- The bounds check, then the overlap check (R71, R72; 60_exceptions.md R256). -/
def regionFault (lmemSize : Nat) (gs : List Region) : Option FaultCause :=
  if !gs.all (Region.inBounds lmemSize) then some .regionBounds
  else if anyOverlap gs then some .regionOverlap
  else none

/-- The regions of the running command, none when no command runs. -/
def runningRegions (s : State) : List Region :=
  match s.seq with
  | .idle => []
  | .running op => regionsOf op s.regs

/-- `a` is a byte of a region of the running command (R76). -/
def inRunningRegion (s : State) (a : Nat) : Bool := (runningRegions s).any (Region.has · a)

/-- `a` is a byte of a write region of the running command (R76). -/
def inRunningWriteRegion (s : State) (a : Nat) : Bool := (runningRegions s).any (fun g => g.write && g.has a)

/-! ### LMEM (20_memory.md R60, R62) -/

/-- The byte written at `a`, none while it is unwritten (10_state.md R58). -/
def Memory.get? (m : Memory) (a : Nat) : Option Byte :=
  match m with
  | [] => none
  | (b, v) :: r => if b = a then some v else Memory.get? r a

/-- Write one byte, keeping the addresses strictly rising. -/
def Memory.set (m : Memory) (a : Nat) (v : Byte) : Memory :=
  match m with
  | [] => [(a, v)]
  | (b, w) :: r =>
    if a < b then (a, v) :: (b, w) :: r
    else if a = b then (a, v) :: r
    else (b, w) :: Memory.set r a v

/-- Write consecutive bytes from `a` on. -/
def Memory.setBytes (m : Memory) (a : Nat) : List Byte → Memory
  | [] => m
  | v :: vs => Memory.setBytes (m.set a v) (a + 1) vs

/-- MemRead(a, 1): the byte at `a`, or the free value of an unwritten byte (00_scope.md R13, log 2). -/
def readByte (s : State) (a : Nat) : Byte := (s.mem.get? a).getD (Config.powerOnByte s.epoch a)

/-- The `n` bytes from `a` on. -/
def readBytes (s : State) (a : Nat) : Nat → List Byte
  | 0 => []
  | n + 1 => readByte s a :: readBytes s (a + 1) n

/-- The little-endian value of bytes: the sum of byte i * 2^(8 i) (20_memory.md R62). -/
def leValue : List Byte → Nat
  | [] => 0
  | b :: bs => b.toNat + 256 * leValue bs

/-- The `n` bytes v[8i+7 : 8i] of a written value (20_memory.md R62). -/
def wordBytes (v : Word) (n : Nat) : List Byte := (List.range n).map (fun i => v.extractLsb' (8 * i) 8)

end Sys2Proof.Machine
end

