-- ==== Sys2Proof/Machine/Ops.lean ====
section
/-! DEFINITION. The named operations over registers and LMEM: reading and writing a register, the command protocol
(acceptance, recording a fault, completion, the host's acknowledgement), soft reset and power-on reset, and what the spec
leaves at any value. -/

namespace Sys2Proof.Machine

/-! ### Reading a register (43_control.md R231) -/

/-- The 32-bit value of the register at an offset, its RAZ and WO fields and the reserved offsets as 0 (10_state.md R20
to R53). ID is hard-wired (R21). -/
def Regs.value (r : Regs) (off : Nat) : Word :=
  match off with
  | 0x00 => Config.idValue
  | 0x04 => 0#31 ++ BitVec.ofBool r.irqEn
  | 0x08 => 0#32
  | 0x0C => r.status.toWord
  | 0x10 => 0#24 ++ r.errState
  | 0x14 => 0#24 ++ r.lastErr
  | 0x18 => r.inBase
  | 0x1C => r.inLen
  | 0x20 => r.pixBase
  | 0x24 => r.pixCount
  | 0x28 => r.outBase
  | 0x2C => r.outCap
  | 0x30 => r.outLen
  | 0x34 => 0#28 ++ r.lzwCfg
  | 0x38 => 0#20 ++ r.lzwInfo.initWidth ++ r.lzwInfo.minCodeSize
  | 0x3C => r.lzwCodes.eoiCode ++ r.lzwCodes.clearCode
  | 0x40 => r.inPos
  | 0x44 => r.screenSize
  | 0x48 => r.imgPos
  | 0x4C => r.imgSize
  | 0x50 => 0#16 ++ r.imgFlags.transparentIndex ++ 0#6 ++ BitVec.ofBool r.imgFlags.transparent ++
      BitVec.ofBool r.imgFlags.interlaced
  | 0x54 => r.ctBase
  | 0x58 => r.ctLen
  | 0x5C => 0#23 ++ BitVec.ofBool r.prevInfo.n2Exists ++ 0#5 ++ r.prevInfo.prevDisposal
  | 0x60 => r.prevPos
  | 0x64 => r.prevSize
  | 0x68 => r.prevBg
  | 0x6C => r.canvasBase
  | 0x70 => r.n2Base
  | 0x74 => r.blockCount
  | 0x78 => r.codeCount
  | 0x7C => 0#12 ++ r.lzwState.codeWidth ++ 0#3 ++ r.lzwState.nextCode
  | _ => 0#32

/-- The result registers: they read as any value while BUSY = 1 (43_control.md R231). -/
def isResultReg (off : Nat) : Bool :=
  off == 0x10 || off == 0x14 || off == 0x24 || off == 0x30 || off == 0x38 || off == 0x3C || off == 0x40 ||
    off == 0x74 || off == 0x78 || off == 0x7C

/-- The bits of the result register at an offset that are not RAZ (10_state.md R25, R26, R35, R52; the others use all 32). -/
def resultBits (off : Nat) : Word :=
  match off with
  | 0x10 => 0x000000FF#32
  | 0x14 => 0x000000FF#32
  | 0x38 => 0x00000FFF#32
  | 0x7C => 0x000F1FFF#32
  | _ => 0xFFFFFFFF#32

/-- What a result register reads as while BUSY = 1 (43_control.md R231): any value `w` in its fields, and 0 in its RAZ
bits, which read 0 at all times (10_state.md R20, log 17). -/
def busyValue (off : Nat) (w : Word) : Word := w &&& resultBits off

/-! ### Writing a register (43_control.md R232, R239, R240) -/

/-- The effect of a write on the RW and W1C fields of the register at an offset; RO registers, CMD, ID and reserved
offsets take nothing (43_control.md R232). -/
def Regs.write (off : Nat) (v : Word) (r : Regs) : Regs :=
  match off with
  | 0x04 => { r with irqEn := v.getLsbD 0 }
  | 0x0C => { r with status := r.status.w1c v }
  | 0x10 => { r with errState := errW1c v r.errState }
  | 0x18 => { r with inBase := v }
  | 0x1C => { r with inLen := v }
  | 0x20 => { r with pixBase := v }
  | 0x24 => { r with pixCount := v }
  | 0x28 => { r with outBase := v }
  | 0x2C => { r with outCap := v }
  | 0x34 => { r with lzwCfg := v.extractLsb' 0 4 }
  | 0x44 => { r with screenSize := v }
  | 0x48 => { r with imgPos := v }
  | 0x4C => { r with imgSize := v }
  | 0x50 => { r with imgFlags := { interlaced := v.getLsbD 0, transparent := v.getLsbD 1,
                                   transparentIndex := v.extractLsb' 8 8 } }
  | 0x54 => { r with ctBase := v }
  | 0x58 => { r with ctLen := v }
  | 0x5C => { r with prevInfo := { prevDisposal := v.extractLsb' 0 3, n2Exists := v.getLsbD 8 } }
  | 0x60 => { r with prevPos := v }
  | 0x64 => { r with prevSize := v }
  | 0x68 => { r with prevBg := v }
  | 0x6C => { r with canvasBase := v }
  | 0x70 => { r with n2Base := v }
  | _ => r

/-- The offsets whose writes are ignored and set OVERRUN while BUSY = 1, CMD apart (43_control.md R239). -/
def inOverrunRange (off : Nat) : Bool := decide (0x14 ≤ off ∧ off ≤ 0x7C)

/-- STATUS.OVERRUN <- 1 (43_control.md R239). -/
def setOverrun (s : State) : State :=
  { s with regs := { s.regs with status := { s.regs.status with overrun := true } } }

/-- STATUS.ILLEGAL_CMD <- 1 (43_control.md R238). -/
def setIllegalCmd (s : State) : State :=
  { s with regs := { s.regs with status := { s.regs.status with illegalCmd := true } } }

/-! ### What the spec leaves at any value (log 3) -/

/-- `n` free bytes, from the `start`-th on. -/
def freeBytes (start n : Nat) : List Byte := (List.range n).map (fun i => Config.freeByte (start + i))

/-- The part of a region that lies in LMEM (log 21). -/
def Region.clip (lmemSize : Nat) (g : Region) : Nat := min g.len (lmemSize - g.base)

/-- Every byte of a region takes an unspecified value (43_control.md R241, 20_memory.md R76). -/
def scrambleRegion (g : Region) (s : State) : State :=
  let n := g.clip s.params.lmemSize
  { s with mem := s.mem.setBytes g.base (freeBytes s.fresh n), fresh := s.fresh + n }

/-- Every byte of the write regions among `gs` takes an unspecified value. -/
def scrambleWrites (gs : List Region) (s : State) : State :=
  match gs with
  | [] => s
  | g :: rest => scrambleWrites rest (if g.write then scrambleRegion g s else s)

/-- Every result register a command writes takes any value (20_memory.md R76): those of 40_decompress.md R147 and R150,
41_compress.md R180 and R181, 42_composite.md R216; a faulting command writes none, but for OUT_LEN at OUTPUT_CAPACITY
(60_exceptions.md R255). -/
def scrambleResults (op : Opcode) (cause : Option FaultCause) (s : State) : State :=
  let w := fun i => Config.freeWord (s.fresh + i)
  let info : LzwInfo := { minCodeSize := (w 4).extractLsb' 0 8, initWidth := (w 4).extractLsb' 8 4 }
  let codes : LzwCodes := { clearCode := (w 5).extractLsb' 0 16, eoiCode := (w 5).extractLsb' 16 16 }
  let state : LzwState := { nextCode := (w 6).extractLsb' 0 13, codeWidth := (w 6).extractLsb' 16 4 }
  match op, cause with
  | .decompress, none =>
    { s with
      fresh := s.fresh + 10
      regs := { s.regs with
        errState := (w 0).extractLsb' 0 8, lastErr := (w 1).extractLsb' 0 8, pixCount := w 2, inPos := w 3,
        lzwInfo := info, lzwCodes := codes, lzwState := state, blockCount := w 7, codeCount := w 8 } }
  | .compress, none =>
    { s with
      fresh := s.fresh + 10
      regs := { s.regs with
        outLen := w 9, lzwInfo := info, lzwCodes := codes, lzwState := state, blockCount := w 7, codeCount := w 8 } }
  | .compress, some .outputCapacity =>
    { s with fresh := s.fresh + 10, regs := { s.regs with outLen := w 9 } }
  | .composite, none =>
    { s with
      fresh := s.fresh + 10
      regs := { s.regs with errState := (w 0).extractLsb' 0 8, lastErr := (w 1).extractLsb' 0 8 } }
  | _, _ => s

/-- CODE_COUNT for a count of codes read (10_state.md R51, 40_decompress.md R150). Bits [31:0] hold the number where they
can; a count of 2^32 or more, which the spec states no value for, gives a free value (DESIGN CHOICE, log 25). -/
def codeCountWord (codes : Nat) : Word :=
  if codes < 2 ^ 32 then BitVec.ofNat 32 codes else Config.wideCodeCount codes

/-! ### The command protocol (43_control.md R235, R236, R238) -/

/-- Acceptance of a command (R235). -/
def accept (op : Opcode) (s : State) : State :=
  { s with
    regs := { s.regs with status := s.regs.status.accept op, lastErr := 0#8 }
    seq := .running op
    disturbed := false }

/-- A CMD write (R235): ignored with OVERRUN while BUSY (R239), refused when illegal (R238), else accepted. -/
def writeCmd (v : Word) (s : State) : State :=
  if s.regs.status.busy then setOverrun s
  else match decodeOpcode v with
    | none => setIllegalCmd s
    | some op => accept op s

/-- TAKING A FAULT: what a contract violation records (60_exceptions.md R258). There is no saved pc, no vector and no
mode (R251); the return is the host's acknowledgement, `clearW1c` (R263). -/
def raiseFault (c : FaultCause) (s : State) : State :=
  { s with regs := { s.regs with status := s.regs.status.raise c } }

/-- The end of the completion step of `op` (R236): where a host write has disturbed the command, its write regions and
result registers take any value (20_memory.md R76, log 11); a fault is recorded; then BUSY = 0, DONE = 1, SEQ = IDLE. -/
def complete (op : Opcode) (cause : Option FaultCause) (s : State) : State :=
  let s1 := if s.disturbed then scrambleResults op cause (scrambleWrites (regionsOf op s.regs) s) else s
  let s2 := match cause with
    | none => s1
    | some c => raiseFault c s1
  { s2 with
    regs := { s2.regs with status := s2.regs.status.finish }
    seq := .idle
    datapath := .idle
    disturbed := false }

/-! ### Reset (43_control.md R241, 70_reset_and_hazards.md R280) -/

/-- Soft reset (43_control.md R241): a running command is aborted and its write regions take unspecified values; every
register takes its reset value; SEQ = IDLE. -/
def softReset (s : State) : State :=
  let s1 := scrambleWrites (runningRegions s) s
  { s1 with regs := Regs.reset, seq := .idle, datapath := .idle, disturbed := false }

/-- Power-on reset (70_reset_and_hazards.md R280): as a soft reset, and every LMEM byte becomes unspecified. -/
def powerOn (s : State) : State :=
  { s with
    regs := Regs.reset
    seq := .idle
    datapath := .idle
    mem := []
    disturbed := false
    epoch := s.epoch + 1 }

/-- A CTRL write (10_state.md R22): IRQ_EN takes bit 0, then bit 1 = 1 performs a soft reset (43_control.md R232). -/
def writeCtrl (v : Word) (s : State) : State :=
  let s1 := { s with regs := s.regs.write 0x04 v }
  if v.getLsbD 1 then softReset s1 else s1

/-- A register write at an aligned offset (43_control.md R232, R235, R239, R241). -/
def writeRegister (off : Nat) (v : Word) (s : State) : State :=
  if off = 0x08 then writeCmd v s
  else if s.regs.status.busy && inOverrunRange off then setOverrun s
  else if off = 0x04 then writeCtrl v s
  else { s with regs := s.regs.write off v }

/-! ### Host LMEM accesses (20_memory.md R62, R64, R76) -/

/-- The access keeps the rules of R62. -/
def lmemAccessOk (s : State) (a n : Nat) : Bool := lmemAligned a n && decide (a + n ≤ s.params.lmemSize)

/-- One byte of a host read, the `i`-th of its access: any value where BUSY = 1 and the byte lies in a write region of
the running command (R76). -/
def hostReadByte (s : State) (a i : Nat) : Byte :=
  if s.regs.status.busy && inRunningWriteRegion s (a + i) then Config.freeByte (s.fresh + i) else readByte s (a + i)

/-- The datum of a host read of n bytes, little-endian, zero-extended. -/
def hostRead (s : State) (a n : Nat) : Word :=
  BitVec.ofNat 32 (leValue ((List.range n).map (hostReadByte s a)))

/-- A host write of n bytes: the bytes are stored; while BUSY = 1, one in a region of the running command disturbs the
command (R76). -/
def hostWrite (s : State) (a n : Nat) (v : Word) : State :=
  { s with
    mem := s.mem.setBytes a (wordBytes v n)
    disturbed := s.disturbed || (s.regs.status.busy && (List.range n).any (fun i => inRunningRegion s (a + i))) }

/-- Give the host the result of its operation (43_control.md R230). -/
def respond (b : BusResult) (s : State) : State := { s with resp := some b }

end Sys2Proof.Machine
end

