-- ==== Sys2Proof/Machine/Composite.lean ====
section
/-! DEFINITION. COMPOSITE (42_composite.md R200): the disposal of the previous frame, the drawing of frame N pixel by
pixel, and the completion step. -/

namespace Sys2Proof.Machine

/-! ### Colours (30_encoding.md R111) -/

/-- Blank, (0, 0, 0, 0) (R204). -/
def Pixel.blank : Pixel := { r := 0#8, g := 0#8, b := 0#8, a := 0#8 }

/-- Opaque black, (0, 0, 0, 255) (R211). -/
def Pixel.black : Pixel := { r := 0#8, g := 0#8, b := 0#8, a := 255#8 }

/-- The four bytes of a pixel, R G B A (20_memory.md R67). -/
def Pixel.bytes (p : Pixel) : List Byte := [p.r, p.g, p.b, p.a]

/-- PREV_BG as a pixel: R, G, B, A from the low byte up (10_state.md R47). -/
def prevBgPixel (v : Word) : Pixel where
  r := v.extractLsb' 0 8
  g := v.extractLsb' 8 8
  b := v.extractLsb' 16 8
  a := v.extractLsb' 24 8

/-- Entry i of a colour table, opaque (20_memory.md R66, 42_composite.md R212). -/
def tableColour (table : List Byte) (i : Nat) : Pixel where
  r := table.getD (3 * i) 0#8
  g := table.getD (3 * i + 1) 0#8
  b := table.getD (3 * i + 2) 0#8
  a := 255#8

/-- The pixel whose four bytes start at LMEM address `a` (20_memory.md R67). -/
def readPixel (s : State) (a : Nat) : Pixel where
  r := readByte s a
  g := readByte s (a + 1)
  b := readByte s (a + 2)
  a := readByte s (a + 3)

/-! ### Steps 1 to 3 (R204 to R206) -/

/-- Step 1 (R204): every pixel blank. -/
def blankCanvas (n : Nat) : List Pixel := List.replicate n Pixel.blank

/-- Step 2 (R205): the pixels of frame N-2's canvas. -/
def seedCanvas (s : State) (n : Nat) : List Pixel :=
  (List.range n).map (fun i => readPixel s (s.regs.n2Base.toNat + 4 * i))

/-- (x, y) lies in frame N-1's rectangle (R206). -/
def inPrevRect (r : Regs) (x y : Nat) : Bool :=
  decide (r.prevX ≤ x ∧ x < r.prevX + r.prevW ∧ r.prevY ≤ y ∧ y < r.prevY + r.prevH)

/-- The fill colour of step 3: blank where frame N has a transparent colour, else PREV_BG (R206). -/
def fillColour (r : Regs) : Pixel := if r.imgFlags.transparent then Pixel.blank else prevBgPixel r.prevBg

/-- Step 3 (R206): the part of frame N-1's rectangle that lies on the screen takes the fill colour. -/
def fillRect (r : Regs) (c : List Pixel) : List Pixel :=
  (List.range c.length).map (fun i =>
    if inPrevRect r (i % r.screenW) (i / r.screenW) then fillColour r else c.getD i Pixel.blank)

/-- The canvas after steps 1 to 3 (R200). A reserved disposal seeds and does not fill (R215). -/
def disposedCanvas (s : State) : List Pixel :=
  let r := s.regs
  let n := r.screenW * r.screenH
  let c := if r.seeds then seedCanvas s n else blankCanvas n
  if r.prevInfo.prevDisposal = 2#3 then fillRect r c else c

/-! ### Step 4 to 6 (R207 to R212) -/

/-- rowmap (R207): the identity, or the four passes 0, 8, …; 4, 12, …; 2, 6, …; 1, 3, … of the rows below H. -/
def rowMap (interlaced : Bool) (h : Nat) : List Nat :=
  let rows := List.range h
  if interlaced then
    rows.filter (fun y => y % 8 == 0) ++ rows.filter (fun y => y % 8 == 4) ++ rows.filter (fun y => y % 4 == 2) ++
      rows.filter (fun y => y % 2 == 1)
  else rows

/-- The index of the pixel at stream row `row` and column `col`: index 0 for a missing one (R208, R214). -/
def Compositor.index (c : Compositor) : Byte := c.pix.getD (c.row * c.w + c.col) 0#8

/-- Its canvas column and row (R208). -/
def Compositor.px (c : Compositor) : Nat := c.x + c.col
def Compositor.py (c : Compositor) : Nat := c.y + c.rows.getD c.row 0

/-- The next column, or the first of the next row (R208). -/
def Compositor.next (c : Compositor) : Compositor :=
  if c.col + 1 < c.w then { c with col := c.col + 1 } else { c with row := c.row + 1, col := 0 }

/-- C(x, y) <- p. -/
def Compositor.put (p : Pixel) (c : Compositor) : Compositor := { c with canvas := c.canvas.set (c.py * c.sw + c.px) p }

/-- What the pixel at the counters does (R208): clipped (R209), transparent (R210), a bad index (R211), or drawn (R212). -/
def Compositor.place (c : Compositor) : Compositor × ErrBits :=
  if c.sw ≤ c.px ∨ c.sh ≤ c.py then (c, 0#8)
  else if c.transparent = some c.index then (c, 0#8)
  else if c.ctLen ≤ c.index.toNat then (c.put Pixel.black, errBadColourIndex)
  else (c.put (tableColour c.table c.index.toNat), 0#8)

/-- One turn of the pixel loop (R208). -/
def Compositor.advance (c : Compositor) : Compositor × ErrBits := (c.place.1.next, c.place.2)

/-- Every pixel has been placed; an image without pixels has none (R208, R214). -/
def Compositor.finished (c : Compositor) : Bool := c.w == 0 || decide (c.h ≤ c.row)

/-- At most `fuel` pixels, up to the end of the image. -/
def Compositor.run : Nat → Compositor → Compositor × ErrBits
  | 0, c => (c, 0#8)
  | fuel + 1, c =>
    if c.finished then (c, 0#8)
    else
      let e := c.advance
      let r := Compositor.run fuel e.1
      (r.1, e.2 ||| r.2)

/-- The compositor at the start of step 4 with canvas C, its operands sampled and its tables read from LMEM (R200). -/
def startComposite (s : State) (canvas : List Pixel) : Compositor where
  sw := s.regs.screenW
  sh := s.regs.screenH
  x := s.regs.imgX
  y := s.regs.imgY
  w := s.regs.imgW
  h := s.regs.imgH
  transparent := if s.regs.imgFlags.transparent then some s.regs.imgFlags.transparentIndex else none
  ctLen := s.regs.ctLen.toNat
  pix := readBytes s s.regs.pixBase.toNat s.regs.pixCount.toNat
  table := readBytes s s.regs.ctBase.toNat (3 * s.regs.ctLen.toNat)
  rows := rowMap s.regs.imgFlags.interlaced s.regs.imgH
  row := 0
  col := 0
  canvas := canvas

/-- The final canvas and the error bits of COMPOSITE: with no pixel buffer the blank canvas and NO_IMAGE_DATA (R203),
else steps 1 to 6. -/
def compositeCanvas (s : State) : List Pixel × ErrBits :=
  if s.regs.pixCount = 0#32 then (blankCanvas (s.regs.screenW * s.regs.screenH), errNoImageData)
  else
    let e := Compositor.run (s.regs.imgW * s.regs.imgH) (startComposite s (disposedCanvas s))
    (e.1.canvas, e.2)

/-! ### The completion step -/

/-- Write C to the canvas region (R216), and the end of the completion step. -/
def finishComposite (canvas : List Pixel) (s : State) : State :=
  complete .composite none
    { s with mem := s.mem.setBytes s.regs.canvasBase.toNat (canvas.flatMap Pixel.bytes) }

/-- The checks, in their order (R201, R202, 60_exceptions.md R256). -/
def compositeFault (s : State) : Option FaultCause :=
  if Config.maxColours < s.regs.ctLen.toNat then some .ctLenRange
  else regionFault s.params.lmemSize (regionsOf .composite s.regs)

/-- COMPOSITE, the completion step (R200). -/
def execComposite (s : State) : Host.Outcome State Fault Refusal :=
  match compositeFault s with
  | some c => .next (complete .composite (some c) s)
  | none =>
    let e := compositeCanvas s
    .next (finishComposite e.1 (setErr e.2 s))

end Sys2Proof.Machine
end

