-- ==== Sys2Proof/Machine/Compress.lean ====
section
/-! DEFINITION. COMPRESS (41_compress.md R170): greedy matching, the width mirror, packing and framing, and the
completion step. -/

namespace Sys2Proof.Machine

/-! ### Encoding (41_compress.md R174 to R177) -/

/-- The mirror's update after EmitCode(c) (R177). -/
def Encoder.mirror (c : Nat) (e : Encoder) : Encoder :=
  if c = clearCode e.m then { e with dw := initWidth e.m, dnext := firstCode e.m, dfirst := true }
  else if c = eoiCode e.m then e
  else if e.dfirst then { e with dfirst := false }
  else if e.dnext < Config.dictSize then
    { e with
      dnext := e.dnext + 1
      dw := if e.dnext = 2 ^ e.dw - 1 ∧ e.dw < Config.maxCodeWidth then e.dw + 1 else e.dw }
  else e

/-- EmitCode(c): append (c, dw), then update the mirror (R175). -/
def Encoder.emitCode (c : Nat) (e : Encoder) : Encoder := Encoder.mirror c { e with codes := e.codes ++ [(c, e.dw)] }

/-- Emit CLEAR(m) and empty the dictionary (R176). -/
def Encoder.emitClear (e : Encoder) : Encoder := { e.emitCode (clearCode e.m) with ed := [] }

/-- Before the first index: the mirror at its start values (R177: the first Clear is written at m+1), then the Clear that
starts every stream (R176 a). -/
def Encoder.start (m : Nat) (p : List Byte) : Encoder :=
  Encoder.emitClear
    { m := m, rest := p, ed := [], cur := none, codes := [], dw := initWidth m, dnext := firstCode m, dfirst := true,
      finished := false }

/-- ED[(code, index)] (R174). -/
def Encoder.lookup (code : Nat) (index : Byte) (e : Encoder) : Option Nat :=
  (e.ed.find? (fun x => x.code == code && x.index == index)).map EdEntry.value

/-- One turn of Encode's loop (R175): the first index starts a match; a later one extends it, or ends it: the match is
emitted, and the new entry is made or, with the dictionary full, a Clear is emitted (R176 b). After the last index the
match and EOI are emitted. -/
def Encoder.step (e : Encoder) : Encoder :=
  match e.rest with
  | [] =>
    let e1 := match e.cur with
      | none => e
      | some c => e.emitCode c
    { e1.emitCode (eoiCode e.m) with finished := true }
  | b :: r =>
    match e.cur with
    | none => { e with rest := r, cur := some b.toNat }
    | some c =>
      match e.lookup c b with
      | some c' => { e with rest := r, cur := some c' }
      | none =>
        let e1 := { e with rest := r }.emitCode c
        let e2 := if e1.enext < Config.dictSize then
            { e1 with ed := { code := c, index := b, value := e1.enext } :: e1.ed }
          else e1.emitClear
        { e2 with cur := some b.toNat }

/-- At most `fuel` turns, up to the end. -/
def Encoder.run : Nat → Encoder → Encoder
  | 0, e => e
  | fuel + 1, e => if e.finished then e else Encoder.run fuel e.step

/-- Encode(p, m) (R175): the last state of the compressor. -/
def encodeIndices (m : Nat) (p : List Byte) : Encoder := Encoder.run (p.length + 1) (Encoder.start m p)

/-! ### Packing and framing (41_compress.md R178, R179) -/

/-- The w bits of a code, least significant first (30_encoding.md R97, R98). -/
def codeBits (c : Nat) : Nat → List Bool
  | 0 => []
  | w + 1 => c.testBit 0 :: codeBits (c / 2) w

/-- The stream bits of the codes, each directly after the previous one (30_encoding.md R98). -/
def streamBits (codes : List (Nat × Nat)) : List Bool := codes.flatMap (fun x => codeBits x.1 x.2)

/-- The value of up to 8 bits, least significant first. -/
def bitsByte (bs : List Bool) : Byte := BitVec.ofNat 8 (bs.foldr (fun b acc => b.toNat + 2 * acc) 0)

/-- Bits to bytes: bit k is bit (k mod 8) of byte k / 8, and the last byte is completed with zero bits (30_encoding.md
R96, R98). The first argument bounds the number of bytes. -/
def bitsToBytes : Nat → List Bool → List Byte
  | 0, _ => []
  | _ + 1, [] => []
  | n + 1, b :: bs => bitsByte ((b :: bs).take 8) :: bitsToBytes n ((b :: bs).drop 8)

/-- Pack(codes) (R178; log 20). -/
def pack (codes : List (Nat × Nat)) : List Byte :=
  let bits := streamBits codes
  bitsToBytes bits.length bits

/-- The data sub-blocks of D: full blocks of 255 bytes, the last of 1 to 255 (R179). The first argument bounds their
number. -/
def subBlocks : Nat → List Byte → List (List Byte)
  | 0, _ => []
  | _ + 1, [] => []
  | n + 1, b :: bs => (b :: bs).take Config.maxSubBlock :: subBlocks n ((b :: bs).drop Config.maxSubBlock)

/-- The sub-blocks of D. -/
def blocksOf (d : List Byte) : List (List Byte) := subBlocks d.length d

/-- Frame(m, D) (R179): [m], each sub-block after its size byte, and the terminator. -/
def frame (m : Nat) (d : List Byte) : List Byte :=
  BitVec.ofNat 8 m :: (blocksOf d).flatMap (fun b => BitVec.ofNat 8 b.length :: b) ++ [0#8]

/-- The table-based image data COMPRESS makes of an index buffer (R170). -/
def compressBytes (m : Nat) (p : List Byte) : List Byte := frame m (pack (encodeIndices m p).codes)

/-! ### The completion step -/

/-- The result registers of COMPRESS (R180). At a legal LMEM_SIZE every count fits in 32 bits
(`compress_codes_lt` in Laws/Encoder.lean, log 25). -/
def Encoder.results (e : Encoder) (r : Regs) : Regs :=
  let d := pack e.codes
  { r with
    outLen := BitVec.ofNat 32 (frame e.m d).length
    blockCount := BitVec.ofNat 32 (blocksOf d).length
    codeCount := BitVec.ofNat 32 e.codes.length
    lzwInfo := { minCodeSize := BitVec.ofNat 8 e.m, initWidth := BitVec.ofNat 4 (initWidth e.m) }
    lzwCodes := { clearCode := BitVec.ofNat 16 (clearCode e.m), eoiCode := BitVec.ofNat 16 (eoiCode e.m) }
    lzwState := { nextCode := BitVec.ofNat 13 e.dnext, codeWidth := BitVec.ofNat 4 e.dw } }

/-- The output (R180), or the partial output and Fault(OUTPUT_CAPACITY) (R181). -/
def finishCompress (e : Encoder) (s : State) : State :=
  let out := frame e.m (pack e.codes)
  let cap := s.regs.outCap.toNat
  let base := s.regs.outBase.toNat
  if cap < out.length then
    complete .compress (some .outputCapacity)
      { s with mem := s.mem.setBytes base (out.take cap), regs := { s.regs with outLen := s.regs.outCap } }
  else
    complete .compress none { s with mem := s.mem.setBytes base out, regs := e.results s.regs }

/-- The index buffer p of n = PIX_COUNT bytes (R170). -/
def compressInput (s : State) : List Byte := readBytes s s.regs.pixBase.toNat s.regs.pixCount.toNat

/-- The checks before encoding, in their order (R171 to R173, 60_exceptions.md R256). -/
def compressFault (s : State) : Option FaultCause :=
  let m := s.regs.lzwCfg.toNat
  if m < Config.minCodeSizeLo ∨ Config.minCodeSizeHi < m then some .badMinCodeSize
  else match regionFault s.params.lmemSize (regionsOf .compress s.regs) with
    | some c => some c
    | none => if (compressInput s).any (fun b => decide (2 ^ m ≤ b.toNat)) then some .pixelIndexRange else none

/-- COMPRESS, the completion step (R170). -/
def execCompress (s : State) : Host.Outcome State Fault Refusal :=
  match compressFault s with
  | some c => .next (complete .compress (some c) s)
  | none => .next (finishCompress (encodeIndices s.regs.lzwCfg.toNat (compressInput s)) s)

end Sys2Proof.Machine
end

