-- ==== Sys2Proof/Machine/Control.lean ====
section
/-! DEFINITION. NOP and the refusal of an illegal command word (43_control.md R234, R238). -/

namespace Sys2Proof.Machine

/-- NOP, the completion step (43_control.md R234, R236): no region, no LMEM access, no result register. -/
def execNop (s : State) : Host.Outcome State Fault Refusal := .next (complete .nop none s)

/-- A CMD write of an illegal word (43_control.md R238): ILLEGAL_CMD is set and nothing starts; while BUSY = 1 the write
is ignored with OVERRUN, unchecked (R239). -/
def execIllegalCmd (_v : Word) (s : State) : Host.Outcome State Fault Refusal :=
  .next (respond .ok (if s.regs.status.busy then setOverrun s else setIllegalCmd s))

end Sys2Proof.Machine
end

