-- ==== Sys2Proof/Machine/Codes.lean ====
section
/-! DEFINITION. The LZW code instructions of DECOMPRESS, one meaning per code class (40_decompress.md R136 to R142), over
the common steps of entry addition and output (R143, R144). -/

namespace Sys2Proof.Machine

/-- What an element does to the decompressor: its new datapath, and the error bits it sets (SetErr). -/
abbrev Effect := Decoder × ErrBits

/-! ### The dictionary (10_state.md R56) -/

/-- str(c): [c] for a literal code, none for CLEAR and EOI, the assigned string for FIRST(m) ≤ c < nxt, none above. -/
def Codec.str? (k : Codec) (c : Nat) : Option (List Byte) :=
  if c < 2 ^ k.m then some [BitVec.ofNat 8 c]
  else if c < firstCode k.m then none
  else k.dict[c - firstCode k.m]?

/-- str(c), empty for a code that has no string. -/
def Codec.str (k : Codec) (c : Nat) : List Byte := (k.str? c).getD []

/-- str(prev), empty where prev = NONE. -/
def Codec.prevStr (k : Codec) : List Byte :=
  match k.prev with
  | none => []
  | some p => k.str p

/-- The class of code `c` in the decoder's state (30_encoding.md R100). -/
def Codec.classify (k : Codec) (c : Nat) : Instr := Sys2Proof.classify k.m k.nxt k.prev c

/-- The state right after a Clear code, which is also the start state (40_decompress.md R133, R136). -/
def Codec.start (m : Nat) : Codec := { m := m, width := initWidth m, prev := none, dict := [] }

/-- AddEntry(s) (R143): assign s to nxt unless the dictionary is full; the width grows right after code 2^w - 1 is
assigned, up to 12. -/
def Codec.addEntry (s : List Byte) (k : Codec) : Codec :=
  if k.nxt < Config.dictSize then
    { k with
      dict := k.dict ++ [s]
      width := if k.nxt = 2 ^ k.width - 1 ∧ k.width < Config.maxCodeWidth then k.width + 1 else k.width }
  else k

/-! ### Output (40_decompress.md R144) -/

/-- npix - |out|. -/
def Decoder.room (d : Decoder) : Nat := d.npix - d.out.length

/-- Emit(s) (R144): indices beyond the expected count are dropped and set TOO_MANY_PIXELS. -/
def Decoder.emit (s : List Byte) (d : Decoder) : Effect :=
  ({ d with out := d.out ++ s.take d.room }, errIf (decide (d.room < s.length)) errTooManyPixels)

/-- Put a codec state in place. -/
def Decoder.withCodec (d : Decoder) (k : Codec) : Decoder := { d with codec := some k }

/-! ### The effect of each class -/

/-- CLEAR (R136): `w <- m + 1; nxt <- FIRST(m); prev <- NONE`, the dictionary is reset. -/
def clearEffect (k : Codec) (d : Decoder) : Effect := (d.withCodec (Codec.start k.m), 0#8)

/-- EOI (R137): decoding stops; before npix indices it sets TOO_FEW_PIXELS. The codec state is left as it is. -/
def eoiEffect (_k : Codec) (d : Decoder) : Effect :=
  ({ d with stopped := true }, errIf (decide (d.out.length < d.npix)) errTooFewPixels)

/-- LITERAL, first code (R138): `Emit([c]); prev <- c`; no entry is added. -/
def literalFirstEffect (c : Nat) (k : Codec) (d : Decoder) : Effect :=
  (d.withCodec { k with prev := some c }).emit [BitVec.ofNat 8 c]

/-- LITERAL, later code (R139): `AddEntry(str(prev) ++ [c]); Emit([c]); prev <- c`. -/
def literalEffect (c : Nat) (k : Codec) (d : Decoder) : Effect :=
  let s := [BitVec.ofNat 8 c]
  (d.withCodec { k.addEntry (k.prevStr ++ s) with prev := some c }).emit s

/-- DICT (R140): `s <- str(c); AddEntry(str(prev) ++ [s[0]]); Emit(s); prev <- c`. -/
def dictEffect (c : Nat) (k : Codec) (d : Decoder) : Effect :=
  let s := k.str c
  (d.withCodec { k.addEntry (k.prevStr ++ s.take 1) with prev := some c }).emit s

/-- KWKWK (R141): `t <- str(prev); s <- t ++ [t[0]]; AddEntry(s); Emit(s); prev <- c`. -/
def kwkwkEffect (c : Nat) (k : Codec) (d : Decoder) : Effect :=
  let s := k.prevStr ++ k.prevStr.take 1
  (d.withCodec { k.addEntry s with prev := some c }).emit s

/-- BADCODE (R142): SetErr(BAD_CODE) and decoding stops; nothing is emitted and no entry is added. -/
def badcodeEffect (_c : Nat) (_k : Codec) (d : Decoder) : Effect := ({ d with stopped := true }, errBadCode)

/-! ### The meanings -/

/-- Put an effect into the state: the datapath takes it, and its error bits are set. -/
def applyEffect (e : Effect) (s : State) : State := setErr e.2 { s with datapath := .decoder e.1 }

/-- Run the effect of a code on the running codec, where the code `c` is of the class `i` names (log 8). The code was
fetched before: the bit cursor and CODE_COUNT already stand past it (R134). -/
def runCode (i : Instr) (c : Nat) (f : Codec → Decoder → Effect) (s : State) : Host.Outcome State Fault Refusal :=
  match s.datapath with
  | .decoder d =>
    match d.codec with
    | some k => if k.classify c = i then .next (applyEffect (f k d) s) else .fault .notOfThisClass
    | none => .fault .noElementStream
  | .idle => .fault .noElementStream
  | .encoder _ => .fault .noElementStream
  | .compositor _ => .fault .noElementStream

/-- The codec's m, for the codes that are fixed by it; 0 where no codec runs. -/
def codecM (s : State) : Nat :=
  match s.datapath with
  | .decoder d =>
    match d.codec with
    | some k => k.m
    | none => 0
  | .idle => 0
  | .encoder _ => 0
  | .compositor _ => 0

/-- CLEAR (40_decompress.md R136). -/
def execClear (s : State) : Host.Outcome State Fault Refusal := runCode .clear (clearCode (codecM s)) clearEffect s

/-- EOI (40_decompress.md R137). -/
def execEoi (s : State) : Host.Outcome State Fault Refusal := runCode .eoi (eoiCode (codecM s)) eoiEffect s

/-- LITERAL, first code (40_decompress.md R138). -/
def execLiteralFirst (c : Nat) (s : State) : Host.Outcome State Fault Refusal :=
  runCode (.literalFirst c) c (literalFirstEffect c) s

/-- LITERAL, later code (40_decompress.md R139). -/
def execLiteral (c : Nat) (s : State) : Host.Outcome State Fault Refusal :=
  runCode (.literal c) c (literalEffect c) s

/-- DICT (40_decompress.md R140). -/
def execDict (c : Nat) (s : State) : Host.Outcome State Fault Refusal :=
  runCode (.dict c) c (dictEffect c) s

/-- KWKWK (40_decompress.md R141). -/
def execKwkwk (c : Nat) (s : State) : Host.Outcome State Fault Refusal :=
  runCode (.kwkwk c) c (kwkwkEffect c) s

/-- BADCODE (40_decompress.md R142). -/
def execBadcode (c : Nat) (s : State) : Host.Outcome State Fault Refusal :=
  runCode (.badcode c) c (badcodeEffect c) s

end Sys2Proof.Machine
end

