-- ==== Sys2Proof/Machine/Framing.lean ====
section
/-! DEFINITION. The framing elements of the image data as DECOMPRESS parses them (40_decompress.md R132, R133;
30_encoding.md R93, R94, R102). -/

namespace Sys2Proof.Machine

/-- The accepted minimum code sizes (30_encoding.md R102, 00_scope.md R10). -/
def acceptsM (m : Nat) : Bool := decide (Config.minCodeSizeLo ≤ m ∧ m ≤ Config.minCodeSizeHi)

/-- MIN_CODE_SIZE (R132, R133): the byte is kept; an accepted one starts the codec, another sets BAD_MIN_CODE_SIZE and
leaves the codec not running. Init is run here and not after the framing pass, which no register can tell (log 9). -/
def minCodeSizeEffect (m : Byte) (d : Decoder) : Effect :=
  if acceptsM m.toNat then ({ d with minCode := some m, codec := some (Codec.start m.toNat) }, 0#8)
  else ({ d with minCode := some m, codec := none }, errBadMinCodeSize)

/-- DATA_BLOCK (R132): its data bytes join D and it is counted; a short one ends the framing pass and sets
INPUT_TRUNCATED. -/
def dataBlockEffect (n : Byte) (data : List Byte) (d : Decoder) : Effect :=
  let short := decide (data.length < n.toNat)
  ({ d with data := d.data ++ data, blocks := d.blocks + 1, framed := short }, errIf short errInputTruncated)

/-- TERMINATOR (R132): the framing pass ends. -/
def terminatorEffect (d : Decoder) : Effect := ({ d with framed := true }, 0#8)

/-- Run the effect of a framing element on a decompressor in its framing pass, at the position `first` says (log 8). The
element was fetched before: the byte cursor already stands past it. -/
def runElement (first : Bool) (f : Decoder → Effect) (s : State) : Host.Outcome State Fault Refusal :=
  match s.datapath with
  | .decoder d =>
    if d.framed = false ∧ d.minCode.isNone = first then .next (applyEffect (f d) s) else .fault .noElementStream
  | .idle => .fault .noElementStream
  | .encoder _ => .fault .noElementStream
  | .compositor _ => .fault .noElementStream

/-- MIN_CODE_SIZE (30_encoding.md R93, R102; 40_decompress.md R133). -/
def execMinCodeSize (m : Byte) (s : State) : Host.Outcome State Fault Refusal := runElement true (minCodeSizeEffect m) s

/-- DATA_BLOCK (30_encoding.md R94; 40_decompress.md R132). -/
def execDataBlock (n : Byte) (data : List Byte) (s : State) : Host.Outcome State Fault Refusal :=
  runElement false (dataBlockEffect n data) s

/-- TERMINATOR (30_encoding.md R94; 40_decompress.md R132). -/
def execTerminator (s : State) : Host.Outcome State Fault Refusal := runElement false terminatorEffect s

end Sys2Proof.Machine
end

