-- ==== Sys2Proof/Machine/Fetch.lean ====
section
/-! DEFINITION. Fetching the next element of the image data: a framing element at the byte cursor, then a code at the
bit cursor (40_decompress.md R132, R134). -/

namespace Sys2Proof.Machine

/-- What a fetch gives: an element and the decompressor with its cursor past it, or the end of the input or of the code
stream, with the effect that has. -/
inductive Fetched where
  | element (i : Instr) (d : Decoder)
  | ended (e : Effect)
  deriving DecidableEq, Repr

/-- The framing pass at the byte cursor (R132). Without a further byte it ends and INPUT_TRUNCATED is set; where not even
the first byte is there (IN_LEN = 0) the codec does not run, and END_OF_STREAM is set if pixels are expected (R133). -/
def Decoder.fetchElement (d : Decoder) : Fetched :=
  match decodeElement d.minCode.isNone d.rest with
  | .ok (i, rest) => .element i { d with rest := rest, inPos := d.inPos + (d.rest.length - rest.length) }
  | .error _ =>
    .ended ({ d with framed := true },
      errInputTruncated ||| errIf (d.minCode.isNone && decide (0 < d.npix)) errEndOfStream)

/-- ReadCode (R134): fewer than w remaining bits end the code stream with END_OF_STREAM; else the code is read, the bit
cursor advances by w and the code is counted. -/
def Decoder.fetchCode (k : Codec) (d : Decoder) : Fetched :=
  if 8 * d.data.length < d.bitPos + k.width then .ended ({ d with stopped := true }, errEndOfStream)
  else .element (k.classify (codeAt d.data d.bitPos k.width))
    { d with bitPos := d.bitPos + k.width, codes := d.codes + 1 }

/-- The next element: framing first, to its end (R132), then codes (R134). -/
def Decoder.fetch (d : Decoder) : Fetched :=
  if d.framed = false then d.fetchElement
  else match d.codec with
    | some k => d.fetchCode k
    | none => .ended ({ d with stopped := true }, 0#8)

/-- The command has nothing left to parse or decode: the framing pass has ended, and the codec is not running, was
stopped, or has produced npix indices (R133, R135). -/
def Decoder.finished (d : Decoder) : Bool :=
  d.framed && (d.codec.isNone || d.stopped || decide (d.npix ≤ d.out.length))

end Sys2Proof.Machine
end

