-- ==== Sys2Proof/Machine/Decompress.lean ====
section
/-! DEFINITION. DECOMPRESS (40_decompress.md R130): the completion step runs the elements of the image data from the first
to the last, each by the effect its own meaning has, and writes the result. -/

namespace Sys2Proof.Machine

/-- The decompressor before the first element (R132, R133): every command starts it afresh. -/
def Decoder.start (npix : Nat) (input : List Byte) : Decoder where
  npix := npix
  rest := input
  inPos := 0
  minCode := none
  data := []
  blocks := 0
  framed := false
  codec := none
  bitPos := 0
  codes := 0
  out := []
  stopped := false

/-- The effect of a code on the running codec. -/
def onCodec (f : Codec → Decoder → Effect) (d : Decoder) : Effect :=
  match d.codec with
  | some k => f k d
  | none => (d, 0#8)

/-- The effect of an element, the one its meaning has (30_encoding.md R100, 40_decompress.md R132, R135); nothing else is
ever fetched from the image data. -/
def elementEffect (i : Instr) (d : Decoder) : Effect :=
  match i with
  | .minCodeSize m => minCodeSizeEffect m d
  | .dataBlock n data => dataBlockEffect n data d
  | .terminator => terminatorEffect d
  | .clear => onCodec clearEffect d
  | .eoi => onCodec eoiEffect d
  | .literalFirst c => onCodec (literalFirstEffect c) d
  | .literal c => onCodec (literalEffect c) d
  | .dict c => onCodec (dictEffect c) d
  | .kwkwk c => onCodec (kwkwkEffect c) d
  | .badcode c => onCodec (badcodeEffect c) d
  | .nop | .decompress | .compress | .composite | .illegalCmd _ | .regRead _ | .regWrite _ _ | .lmemRead _ _
  | .lmemWrite _ _ _ | .softReset _ | .w1cStatus _ _ | .wait | .run _ | .ack | .clrerr | .reset => (d, 0#8)

/-- One element: fetch it and take its effect. -/
def Decoder.advance (d : Decoder) : Effect :=
  match d.fetch with
  | .element i d' => elementEffect i d'
  | .ended e => e

/-- At most `fuel` elements, up to the end of the command; the error bits of all of them (R135). -/
def Decoder.run : Nat → Decoder → Effect
  | 0, d => (d, 0#8)
  | fuel + 1, d =>
    if d.finished then (d, 0#8)
    else
      let e := d.advance
      let r := Decoder.run fuel e.1
      (r.1, e.2 ||| r.2)

/-- Enough elements for `len` input bytes: each framing element takes a byte or ends the pass, each code takes a bit or
ends the stream. -/
def decodeFuel (len : Nat) : Nat := 9 * len + 3

/-- DECOMPRESS without its registers: the decompressor's last state and the error bits, for an input and an expected
count. -/
def decodeStream (npix : Nat) (input : List Byte) : Effect :=
  Decoder.run (decodeFuel input.length) (Decoder.start npix input)

/-- The pixels written: the decoded indices, padded with 0 to npix (R145). -/
def Decoder.pixels (d : Decoder) : List Byte := d.out ++ List.replicate (d.npix - d.out.length) 0#8

/-- LZW_INFO at the end: the byte read, and INIT_WIDTH where m was accepted (R133). -/
def Decoder.info (d : Decoder) : LzwInfo where
  minCodeSize := d.minCode.getD 0#8
  initWidth := match d.codec with
    | some k => BitVec.ofNat 4 (initWidth k.m)
    | none => 0#4

/-- LZW_CODES at the end (R133). -/
def Decoder.lzwCodes (d : Decoder) : LzwCodes :=
  match d.codec with
  | some k => { clearCode := BitVec.ofNat 16 (clearCode k.m), eoiCode := BitVec.ofNat 16 (eoiCode k.m) }
  | none => { clearCode := 0#16, eoiCode := 0#16 }

/-- LZW_STATE at the end (R150). -/
def Decoder.lzwState (d : Decoder) : LzwState :=
  match d.codec with
  | some k => { nextCode := BitVec.ofNat 13 k.nxt, codeWidth := BitVec.ofNat 4 k.width }
  | none => { nextCode := 0#13, codeWidth := 0#4 }

/-- The result registers of DECOMPRESS (R150). PIX_COUNT, IN_POS and BLOCK_COUNT always fit in 32 bits; CODE_COUNT need
not, and its value there is the model's choice of a free value (DESIGN CHOICE, log 25). -/
def Decoder.results (d : Decoder) (r : Regs) : Regs :=
  { r with
    pixCount := BitVec.ofNat 32 d.npix
    inPos := BitVec.ofNat 32 d.inPos
    blockCount := BitVec.ofNat 32 d.blocks
    codeCount := codeCountWord d.codes
    lzwInfo := d.info
    lzwCodes := d.lzwCodes
    lzwState := d.lzwState }

/-- Finish (R145, R146, R150), and the end of the completion step (43_control.md R236). -/
def finishDecompress (d : Decoder) (s : State) : State :=
  complete .decompress none
    { s with mem := s.mem.setBytes s.regs.pixBase.toNat d.pixels, regs := d.results s.regs }

/-- The decompressor at the start of the completion step, its input read from LMEM (R131, R132). -/
def startDecompress (s : State) : Decoder :=
  Decoder.start s.regs.npix (readBytes s s.regs.inBase.toNat s.regs.inLen.toNat)

/-- DECOMPRESS, the completion step (R130): the region checks, then every element, then the results. -/
def execDecompress (s : State) : Host.Outcome State Fault Refusal :=
  match regionFault s.params.lmemSize (regionsOf .decompress s.regs) with
  | some c => .next (complete .decompress (some c) s)
  | none =>
    let e := Decoder.run (decodeFuel s.regs.inLen.toNat) (startDecompress s)
    .next (finishDecompress e.1 (setErr e.2 s))

end Sys2Proof.Machine
end

