-- ==== Sys2Proof/Machine/HostBus.lean ====
section
/-! DEFINITION. The host bus operations (43_control.md R230 to R233, R240, R241). -/

namespace Sys2Proof.Machine

/-- A bus operation that breaks 20_memory.md R63 or R64: BUS_ERROR to the host, and no state of the block changes
(60_exceptions.md R261). -/
def busError (s : State) : State := respond .busError s

/-- A register operation at an offset that is no register's. Inside the 256-byte window that is one that is not a multiple
of 4: BUS_ERROR (20_memory.md R63). Beyond it the block does not respond (R61; the model's form of that is log 12). -/
def rejectRegister (off : Nat) (s : State) : State := if off < 256 then busError s else respond .noResponse s

/-- REG_READ(off) (43_control.md R231): the register's value; a result register reads as any value in its fields
while BUSY = 1. -/
def execRegRead (off : Nat) (s : State) : Host.Outcome State Fault Refusal :=
  if regOffsetOk off then
    if s.regs.status.busy && isResultReg off then
      .next (respond (.data (busyValue off (Config.freeWord s.fresh))) { s with fresh := s.fresh + 1 })
    else .next (respond (.data (s.regs.value off)) s)
  else .next (rejectRegister off s)

/-- REG_WRITE(off, v) (43_control.md R232; R235 for CMD; R239 while BUSY; R241 for CTRL bit 1). -/
def execRegWrite (off : Nat) (v : Word) (s : State) : Host.Outcome State Fault Refusal :=
  if regOffsetOk off then .next (respond .ok (writeRegister off v s)) else .next (rejectRegister off s)

/-- LMEM_READ(a, n) (43_control.md R233, 20_memory.md R62, R76). -/
def execLmemRead (a n : Nat) (s : State) : Host.Outcome State Fault Refusal :=
  if lmemAccessOk s a n then
    .next (respond (.data (hostRead s a n)) { s with fresh := if s.regs.status.busy then s.fresh + n else s.fresh })
  else .next (busError s)

/-- LMEM_WRITE(a, n, v) (43_control.md R233, 20_memory.md R62, R76). -/
def execLmemWrite (a n : Nat) (v : Word) (s : State) : Host.Outcome State Fault Refusal :=
  if lmemAccessOk s a n then .next (respond .ok (hostWrite s a n v)) else .next (busError s)

/-- A CTRL write with bit 1 = 1 (43_control.md R241). -/
def execSoftReset (v : Word) (s : State) : Host.Outcome State Fault Refusal := .next (respond .ok (writeCtrl v s))

/-- A STATUS or ERRSTATE write (43_control.md R240); it acts also while BUSY = 1. -/
def execW1cStatus (r : W1cReg) (v : Word) (s : State) : Host.Outcome State Fault Refusal :=
  .next (respond .ok (clearW1c r v s))

end Sys2Proof.Machine
end

