-- ==== Sys2Proof/Machine/Pseudo.lean ====
section
/-! DEFINITION. The pseudo-instructions of the host notation (30_encoding.md R121). Each is its expansion into bus
operations; where one reads or writes again, the line for that is put before the host's other lines (log 18). -/

namespace Sys2Proof.Machine

/-- `wait`: `rd STATUS`, and `wait` again while BUSY = 1. -/
def execWait (s : State) : Host.Outcome State Fault Refusal :=
  .next (respond (.data (s.regs.value 0x0C))
    { s with host := if s.regs.status.busy then .wait :: s.host else s.host })

/-- `run OP`: `wr CMD, <word of OP>`, then `wait`. -/
def execRun (op : Opcode) (s : State) : Host.Outcome State Fault Refusal :=
  let s1 := writeRegister 0x08 op.word s
  .next (respond .ok { s1 with host := .wait :: s1.host })

/-- `ack`: `wr STATUS, 0x0000001E`. -/
def execAck (s : State) : Host.Outcome State Fault Refusal := .next (respond .ok (writeRegister 0x0C 0x0000001E#32 s))

/-- `clrerr`: `wr ERRSTATE, 0x000000FF`. -/
def execClrerr (s : State) : Host.Outcome State Fault Refusal := .next (respond .ok (writeRegister 0x10 0x000000FF#32 s))

/-- `reset`: `wr CTRL, 0x00000002`. -/
def execReset (s : State) : Host.Outcome State Fault Refusal := .next (respond .ok (writeRegister 0x04 0x00000002#32 s))

end Sys2Proof.Machine
end

