-- ==== Sys2Proof/Machine/Dispatch.lean ====
section
/-! DEFINITION. One arm per instruction. -/

namespace Sys2Proof.Machine

def exec (i : Instr) (s : State) : Host.Outcome State Fault Refusal :=
  match i with
  -- command words
  | .nop => Sys2Proof.Machine.execNop s
  | .decompress => Sys2Proof.Machine.execDecompress s
  | .compress => Sys2Proof.Machine.execCompress s
  | .composite => Sys2Proof.Machine.execComposite s
  | .illegalCmd v => Sys2Proof.Machine.execIllegalCmd v s
  -- LZW codes
  | .clear => Sys2Proof.Machine.execClear s
  | .eoi => Sys2Proof.Machine.execEoi s
  | .literalFirst c => Sys2Proof.Machine.execLiteralFirst c s
  | .literal c => Sys2Proof.Machine.execLiteral c s
  | .dict c => Sys2Proof.Machine.execDict c s
  | .kwkwk c => Sys2Proof.Machine.execKwkwk c s
  | .badcode c => Sys2Proof.Machine.execBadcode c s
  -- framing elements
  | .minCodeSize m => Sys2Proof.Machine.execMinCodeSize m s
  | .dataBlock n data => Sys2Proof.Machine.execDataBlock n data s
  | .terminator => Sys2Proof.Machine.execTerminator s
  -- host bus operations
  | .regRead off => Sys2Proof.Machine.execRegRead off s
  | .regWrite off v => Sys2Proof.Machine.execRegWrite off v s
  | .lmemRead a n => Sys2Proof.Machine.execLmemRead a n s
  | .lmemWrite a n v => Sys2Proof.Machine.execLmemWrite a n v s
  | .softReset v => Sys2Proof.Machine.execSoftReset v s
  | .w1cStatus r v => Sys2Proof.Machine.execW1cStatus r v s
  -- pseudo-instructions
  | .wait => Sys2Proof.Machine.execWait s
  | .run op => Sys2Proof.Machine.execRun op s
  | .ack => Sys2Proof.Machine.execAck s
  | .clrerr => Sys2Proof.Machine.execClrerr s
  | .reset => Sys2Proof.Machine.execReset s

end Sys2Proof.Machine
end

