-- ==== Sys2Proof/Machine/Agents.lean ====
section
/-! DEFINITION. The agents' turns: what the host, the block and the platform do when it is their turn (00_scope.md R19),
and how a completion step goes on element by element in a state that stands inside one (log 7). -/

namespace Sys2Proof.Machine

/-- What the host's turn fetches: nothing, an instruction, or an access the block answers with BUS_ERROR or not at all. -/
def fetchHost (s : State) : Option (Except Reject Instr) :=
  match s.host with
  | [] => none
  | l :: _ => some (decodeLine s.params l)

/-- A rejected access: the block does not answer one outside its windows (20_memory.md R61, log 12), and answers any
other with BUS_ERROR (R63, R64). -/
def rejectAccess (r : Reject) (s : State) : State :=
  match r with
  | .outsideWindows => respond .noResponse s
  | .regWidth | .regAlignment | .lmemWidth | .lmemAlignment | .lmemBounds | .endOfInput | .trailingBytes
  | .codeWidth => busError s

/-- The host's turn: its next line is decoded and runs; with no line pending the block waits (70_reset_and_hazards.md
R283). -/
def hostTurn (s : State) : Host.Outcome State Fault Refusal :=
  match s.host with
  | [] => .next s
  | l :: rest =>
    match decodeLine s.params l with
    | .ok i => exec i { s with host := rest }
    | .error r => .next (rejectAccess r { s with host := rest })

/-- The block's turn: when SEQ = RUNNING(op), the completion step of op, whose instruction is that of its command word
(43_control.md R236); when IDLE it does nothing (60_exceptions.md R270). -/
def blockTurn (s : State) : Host.Outcome State Fault Refusal :=
  match s.seq with
  | .idle => .next s
  | .running op => exec (decodeCmd op.word) s

/-- A turn between two commands or operations: the schedule says whose; when it says nothing, the block's while a command
runs (so that every accepted command completes, 43_control.md R237), else the host's (log 5). -/
def nextTurn (s : State) : Host.Outcome State Fault Refusal :=
  match s.sched with
  | .host :: r => hostTurn { s with sched := r }
  | .block :: r => blockTurn { s with sched := r }
  | .powerOn :: r => .next (powerOn { s with sched := r })
  | [] =>
    match s.seq with
    | .idle => hostTurn s
    | .running _ => blockTurn s

/-- Inside a DECOMPRESS: its next element is fetched and runs, or the command ends (40_decompress.md R132 to R135). -/
def decoderTurn (d : Decoder) (s : State) : Host.Outcome State Fault Refusal :=
  if d.finished then .next (finishDecompress d s)
  else match d.fetch with
    | .element i d' => exec i { s with datapath := .decoder d' }
    | .ended e => .next (applyEffect e s)

/-- Inside a COMPRESS: one turn of its loop, or its end (41_compress.md R175). -/
def encoderTurn (e : Encoder) (s : State) : Host.Outcome State Fault Refusal :=
  if e.finished then .next (finishCompress e s) else .next { s with datapath := .encoder e.step }

/-- Inside a COMPOSITE: one pixel, or its end (42_composite.md R208). -/
def compositorTurn (c : Compositor) (s : State) : Host.Outcome State Fault Refusal :=
  if c.finished then .next (finishComposite c.canvas s)
  else .next (setErr c.advance.2 { s with datapath := .compositor c.advance.1 })

/-- Every byte of a table word and of the zero operand bytes after it, up to the longest element (log 13). -/
def tableBytes (nbits w : Nat) : List Byte := leBytes (nbits / 8) w ++ List.replicate 256 0#8

/-- A decompressor whose next element is a code, at the place the opcode table's 12-bit codes are read (log 13). -/
def tableDecoder (w : Nat) : Decoder :=
  { Decoder.start 1 [] with
    minCode := some 8#8
    data := leBytes 2 w
    framed := true
    codec := some { m := tablePlace.m, width := tablePlace.width, prev := tablePlace.prev,
                    dict := List.replicate (tablePlace.nxt - firstCode tablePlace.m) [0#8] } }

/-- A decompressor whose next element is the framing element at the head of `bs`: the first byte of the image data, or a
later one. -/
def framingDecoder (first : Bool) (bs : List Byte) : Decoder :=
  if first then Decoder.start 0 bs else { Decoder.start 0 bs with minCode := some 2#8, codec := some (Codec.start 2) }

/-- Stand inside the completion step of a DECOMPRESS (log 7). -/
def insideDecompress (d : Decoder) (s : State) : State := { accept .decompress s with datapath := .decoder d }

end Sys2Proof.Machine
end

