-- ==== Sys2Proof/Machine/Step.lean ====
section
/-! DEFINITION. One step of the machine, and where a word of the opcode table is put for the step to fetch it. -/

namespace Sys2Proof.Machine

/-- One step. Between completion steps the datapath is idle and an agent takes its turn (00_scope.md R19); a state that
stands inside a completion step goes on with it (log 7). -/
def step (s : State) : Host.Outcome State Fault Refusal :=
  match s.datapath with
  | .idle => nextTurn s
  | .decoder d => decoderTurn d s
  | .encoder e => encoderTurn e s
  | .compositor c => compositorTurn c s

/-- `s` with a table word where the next step fetches it (log 13): a legal command word accepted, with the block's turn
next; an illegal one as the host's next CMD write; a framing byte or a code as the next element of a DECOMPRESS. -/
def State.withFetchWord (s : State) (nbits w : Nat) : State :=
  if nbits = 32 then
    match decodeOpcode (BitVec.ofNat 32 w) with
    | some op => { accept op s with datapath := .idle, sched := .block :: s.sched }
    | none => { s with datapath := .idle, sched := .host :: s.sched,
                       host := regAccess s.params .write 0x08 (BitVec.ofNat 32 w) :: s.host }
  else if nbits = 8 then insideDecompress (framingDecoder (tableFirst w) (tableBytes nbits w)) s
  else if nbits = 12 ∨ nbits = 16 then insideDecompress (tableDecoder w) s
  else insideDecompress (framingDecoder false (tableBytes nbits w)) s

end Sys2Proof.Machine
end

