-- ==== Sys2Proof/Safety.lean ====
section
/-! DEFINITION. What counts as a safe state and a safe host: the invariant of the machine, and the hazards software must
respect (70_reset_and_hazards.md R284, R285). -/

namespace Sys2Proof.Machine

/-- The listed bytes of LMEM lie below `lmemSize`: addresses LMEM_SIZE and above do not exist (20_memory.md R60). -/
def Memory.below (m : Memory) (lmemSize : Nat) : Prop := ∀ c ∈ m, c.1 < lmemSize

/-- STATUS while SEQ is as given: BUSY = 1 exactly when a command runs, and then LAST_OP is its opcode and DONE, FAULT
and FAULT_CAUSE are still as acceptance left them (10_state.md R54, 43_control.md R235, R240). -/
def Status.agrees (st : Status) : Seq → Prop
  | .idle => st.busy = false
  | .running op =>
    st.busy = true ∧ st.lastOp = op.code ∧ st.done = false ∧ st.fault = false ∧ st.faultCause = 0#8

/-- The invariant: the parameters are legal; LMEM is in its canonical form and lies inside LMEM_SIZE; no command-local
state exists (R55); STATUS agrees with SEQ; LAST_OP names a command and FAULT_CAUSE a cause (60_exceptions.md R255);
LAST_ERR is clear and nothing else than a running command can have been disturbed. -/
structure State.Inv (s : State) : Prop where
  params : s.params.WF
  memWf : s.mem.wf = true
  memBelow : s.mem.below s.params.lmemSize
  datapath : s.datapath = .idle
  status : s.regs.status.agrees s.seq
  lastOp : s.regs.status.lastOp.toNat ≤ 3
  faultCause : s.regs.status.faultCause.toNat ≤ 6
  lastErr : s.regs.status.busy = true → s.regs.lastErr = 0#8
  disturbed : s.regs.status.busy = false → s.disturbed = false

/-- The host operation breaks hazard H-BUSY-MEM in this state: while BUSY = 1 it writes a byte of a region of the running
command, or reads one of a write region (70_reset_and_hazards.md R284). -/
def breaksBusyMem (i : Instr) (s : State) : Bool :=
  s.regs.status.busy &&
  match i with
  | .lmemRead a n => (List.range n).any (fun k => inRunningWriteRegion s (a + k))
  | .lmemWrite a n _ => (List.range n).any (fun k => inRunningRegion s (a + k))
  | .nop | .decompress | .compress | .composite | .illegalCmd _ | .clear | .eoi | .literalFirst _ | .literal _
  | .dict _ | .kwkwk _ | .badcode _ | .minCodeSize _ | .dataBlock _ _ | .terminator | .regRead _ | .regWrite _ _
  | .softReset _ | .w1cStatus _ _ | .wait | .run _ | .ack | .clrerr | .reset => false

/-- The host operation breaks hazard H-BUSY-REG in this state: while BUSY = 1 it writes CMD or an operand register, or
reads a result register (70_reset_and_hazards.md R285). -/
def breaksBusyReg (i : Instr) (s : State) : Bool :=
  s.regs.status.busy &&
  match i with
  | .regRead off => isResultReg off
  | .regWrite off _ => off == 0x08 || inOverrunRange off
  | .illegalCmd _ => true
  | .run _ => true
  | .nop | .decompress | .compress | .composite | .clear | .eoi | .literalFirst _ | .literal _ | .dict _ | .kwkwk _
  | .badcode _ | .minCodeSize _ | .dataBlock _ _ | .terminator | .lmemRead _ _ | .lmemWrite _ _ _ | .softReset _
  | .w1cStatus _ _ | .wait | .ack | .clrerr | .reset => false

end Sys2Proof.Machine
end

