-- ==== Sys2Proof/Certificates/Slice0/Obligations.lean ====
section
/-! DEFINITION. The statements for the provers, and the few words they are written in. -/

namespace Sys2Proof.Claim

open Sys2Proof.Machine

/-! ### Words the statements share -/

/-- A region passes the bounds check (20_memory.md R71). -/
def Fits (size base len : Nat) : Prop := len = 0 ∨ base + len ≤ size

/-- Two regions share no byte address (20_memory.md R72). -/
def Apart (b₁ l₁ b₂ l₂ : Nat) : Prop := l₁ = 0 ∨ l₂ = 0 ∨ b₁ + l₁ ≤ b₂ ∨ b₂ + l₂ ≤ b₁

/-- The regions of DECOMPRESS pass the bounds check (40_decompress.md R131). -/
def DecompressFits (s : State) : Prop :=
  Fits s.params.lmemSize s.regs.inBase.toNat s.regs.inLen.toNat ∧
  Fits s.params.lmemSize s.regs.pixBase.toNat s.regs.npix

/-- Its write region is apart from the other (40_decompress.md R131). -/
def DecompressApart (s : State) : Prop :=
  Apart s.regs.inBase.toNat s.regs.inLen.toNat s.regs.pixBase.toNat s.regs.npix

/-- The regions of COMPRESS pass the bounds check (41_compress.md R172). -/
def CompressFits (s : State) : Prop :=
  Fits s.params.lmemSize s.regs.pixBase.toNat s.regs.pixCount.toNat ∧
  Fits s.params.lmemSize s.regs.outBase.toNat s.regs.outCap.toNat

/-- Its write region is apart from the other (41_compress.md R172). -/
def CompressApart (s : State) : Prop :=
  Apart s.regs.pixBase.toNat s.regs.pixCount.toNat s.regs.outBase.toNat s.regs.outCap.toNat

/-- The minimum code size LZW_CFG holds is 2 to 8 (41_compress.md R171). -/
def CompressSizeOk (s : State) : Prop := 2 ≤ s.regs.lzwCfg.toNat ∧ s.regs.lzwCfg.toNat ≤ 8

/-- Every index of the buffer has a literal code (41_compress.md R173). -/
def CompressIndicesOk (s : State) : Prop :=
  ∀ i, i < s.regs.pixCount.toNat → (readByte s (s.regs.pixBase.toNat + i)).toNat < 2 ^ s.regs.lzwCfg.toNat

/-- The regions of COMPOSITE pass the bounds check, the N-2 canvas where it is included (42_composite.md R202). -/
def CompositeFits (s : State) : Prop :=
  Fits s.params.lmemSize s.regs.pixBase.toNat s.regs.pixCount.toNat ∧
  Fits s.params.lmemSize s.regs.ctBase.toNat (3 * s.regs.ctLen.toNat) ∧
  (s.regs.seeds = true → Fits s.params.lmemSize s.regs.n2Base.toNat s.regs.canvasBytes) ∧
  Fits s.params.lmemSize s.regs.canvasBase.toNat s.regs.canvasBytes

/-- Its canvas is apart from every read region (42_composite.md R202). -/
def CompositeApart (s : State) : Prop :=
  Apart s.regs.pixBase.toNat s.regs.pixCount.toNat s.regs.canvasBase.toNat s.regs.canvasBytes ∧
  Apart s.regs.ctBase.toNat (3 * s.regs.ctLen.toNat) s.regs.canvasBase.toNat s.regs.canvasBytes ∧
  (s.regs.seeds = true → Apart s.regs.n2Base.toNat s.regs.canvasBytes s.regs.canvasBase.toNat s.regs.canvasBytes)

/-- The state in which a command ended without a fault left nothing but BUSY = 0, DONE = 1 and SEQ = IDLE
(43_control.md R236). -/
def ended (s : State) : State :=
  { s with
    regs := { s.regs with status := { s.regs.status with busy := false, done := true } }
    seq := .idle
    datapath := .idle }

/-- The state in which a command ended with fault `cause` and no other effect (60_exceptions.md R255, R258). -/
def faulted (cause : BitVec 8) (s : State) : State :=
  { s with
    regs := { s.regs with status := { s.regs.status with busy := false, done := true, fault := true,
                                                         faultCause := cause } }
    seq := .idle
    datapath := .idle }

/-- SetErr(b) (00_scope.md R13). -/
def withErr (b : BitVec 8) (s : State) : State :=
  { s with regs := { s.regs with lastErr := s.regs.lastErr ||| b, errState := s.regs.errState ||| b } }

/-- The state with the decompressor `d` in its datapath. -/
def inDecoder (d : Decoder) (s : State) : State := { s with datapath := .decoder d }

/-- The state with the compressor `e` in its datapath. -/
def inEncoder (e : Encoder) (s : State) : State := { s with datapath := .encoder e }

/-- The state after the codec became `k` and `Emit(str)` ran (40_decompress.md R144). -/
def emitted (str : List Byte) (k : Codec) (d : Decoder) (s : State) : State :=
  withErr (if d.npix - d.out.length < str.length then 0x08#8 else 0#8)
    (inDecoder { d with codec := some k, out := d.out ++ str.take (d.npix - d.out.length) } s)

/-- The host moves next, and `s0` is the state its turn starts from (00_scope.md R19). -/
def HostMoves (s s0 : State) : Prop :=
  s.datapath = .idle ∧
    ((∃ r, s.sched = .host :: r ∧ s0 = { s with sched := r }) ∨ (s.sched = [] ∧ s.seq = .idle ∧ s0 = s))

/-- The block moves next, with command `op` running, and `s0` is the state its turn starts from. -/
def BlockMoves (s s0 : State) (op : Opcode) : Prop :=
  s.datapath = .idle ∧ s.seq = .running op ∧
    ((∃ r, s.sched = .block :: r ∧ s0 = { s with sched := r }) ∨ (s.sched = [] ∧ s0 = s))

/-- `n` steps lead from `s` to `t`. -/
def Steps : Nat → State → State → Prop
  | 0, s, t => t = s
  | n + 1, s, t => ∃ u, step s = .next u ∧ Steps n u t

/-- The bytes of a sub-block: its size byte, then its data (30_encoding.md R94). -/
def sized (b : List Byte) : List Byte := BitVec.ofNat 8 b.length :: b

/-- The data of a data sub-block has 1 to 255 bytes (30_encoding.md R94). -/
def IsBlock (b : List Byte) : Prop := 1 ≤ b.length ∧ b.length ≤ 255

/-- An encoded form with the datum of a read dropped: a read carries none. -/
def dropReadData : Encoded → Encoded
  | .line (.access b) => .line (.access (match b.kind with | .read => { b with data := 0#32 } | .write => b))
  | .line l => .line l
  | .cmd w => .cmd w
  | .code v w => .code v w
  | .bytes bs => .bytes bs

/-- The inner loop of Pack, `while nb >= 8` (41_compress.md R178): the bytes appended, then `acc` and `nb` after it. The
first argument bounds the number of turns. -/
def drain : Nat → Nat → Nat → List Byte × Nat × Nat
  | 0, acc, nb => ([], acc, nb)
  | fuel + 1, acc, nb =>
    if 8 ≤ nb then
      let r := drain fuel (acc / 256) (nb - 8)
      (BitVec.ofNat 8 (acc % 256) :: r.1, r.2)
    else ([], acc, nb)

/-- Pack as 41_compress.md R178 writes it, from `acc` and `nb` on. -/
def packFrom : Nat → Nat → List (Nat × Nat) → List Byte
  | acc, nb, [] => if 0 < nb then [BitVec.ofNat 8 acc] else []
  | acc, nb, (c, w) :: codes =>
    let r := drain (nb + w) (acc + c * 2 ^ nb) (nb + w)
    r.1 ++ packFrom r.2.1 r.2.2 codes

/-- The bits of a register that are not RAZ (10_state.md R21 to R53). -/
def readMask (off : Nat) : Word :=
  match off with
  | 0x04 => 0x00000001#32
  | 0x08 => 0x00000000#32
  | 0x0C => 0x00FF0F1F#32
  | 0x10 => 0x000000FF#32
  | 0x14 => 0x000000FF#32
  | 0x34 => 0x0000000F#32
  | 0x38 => 0x00000FFF#32
  | 0x50 => 0x0000FF03#32
  | 0x5C => 0x00000107#32
  | 0x7C => 0x000F1FFF#32
  | _ => if off < 0x80 then 0xFFFFFFFF#32 else 0x00000000#32

/-- The RW bits of a register (10_state.md R22 to R49). -/
def rwMask (off : Nat) : Word :=
  match off with
  | 0x04 => 0x00000001#32
  | 0x18 => 0xFFFFFFFF#32
  | 0x1C => 0xFFFFFFFF#32
  | 0x20 => 0xFFFFFFFF#32
  | 0x24 => 0xFFFFFFFF#32
  | 0x28 => 0xFFFFFFFF#32
  | 0x2C => 0xFFFFFFFF#32
  | 0x34 => 0x0000000F#32
  | 0x44 => 0xFFFFFFFF#32
  | 0x48 => 0xFFFFFFFF#32
  | 0x4C => 0xFFFFFFFF#32
  | 0x50 => 0x0000FF03#32
  | 0x54 => 0xFFFFFFFF#32
  | 0x58 => 0xFFFFFFFF#32
  | 0x5C => 0x00000107#32
  | 0x60 => 0xFFFFFFFF#32
  | 0x64 => 0xFFFFFFFF#32
  | 0x68 => 0xFFFFFFFF#32
  | 0x6C => 0xFFFFFFFF#32
  | 0x70 => 0xFFFFFFFF#32
  | _ => 0x00000000#32

/-- The W1C bits of a register (10_state.md R24, R25). -/
def w1cMask (off : Nat) : Word :=
  match off with
  | 0x0C => 0x0000001E#32
  | 0x10 => 0x000000FF#32
  | _ => 0x00000000#32

/-- The offsets of the result registers (43_control.md R231). -/
def resultOffsets : List Nat := [0x10, 0x14, 0x24, 0x30, 0x38, 0x3C, 0x40, 0x74, 0x78, 0x7C]

/-- `r` with every register a command may write taken from `q`: STATUS and the result registers (43_control.md R231,
R236). -/
def withResultsOf (q r : Regs) : Regs :=
  { r with
    status := q.status, errState := q.errState, lastErr := q.lastErr, pixCount := q.pixCount, outLen := q.outLen,
    lzwInfo := q.lzwInfo, lzwCodes := q.lzwCodes, inPos := q.inPos, blockCount := q.blockCount,
    codeCount := q.codeCount, lzwState := q.lzwState }

/-- The instruction may clear bits of ERRSTATE: a write to ERRSTATE or a reset (10_state.md R25, 43_control.md R241). -/
def clearsErrState : Instr → Bool
  | .w1cStatus .errState _ => true
  | .regWrite off v => off == 0x10 || (off == 0x04 && v.getLsbD 1)
  | .softReset _ => true
  | .clrerr => true
  | .reset => true
  | .w1cStatus .status _ | .nop | .decompress | .compress | .composite | .illegalCmd _ | .clear | .eoi
  | .literalFirst _ | .literal _ | .dict _ | .kwkwk _ | .badcode _ | .minCodeSize _ | .dataBlock _ _ | .terminator
  | .regRead _ | .lmemRead _ _ | .lmemWrite _ _ _ | .wait | .run _ | .ack => false

/-- The instruction is the completion step of a command, or a soft reset: what ends BUSY (10_state.md R24,
43_control.md R236, R241). -/
def mayEndBusy : Instr → Bool
  | .nop | .decompress | .compress | .composite => true
  | .regWrite off v => off == 0x04 && v.getLsbD 1
  | .softReset _ => true
  | .reset => true
  | .illegalCmd _ | .clear | .eoi | .literalFirst _ | .literal _ | .dict _ | .kwkwk _ | .badcode _ | .minCodeSize _
  | .dataBlock _ _ | .terminator | .regRead _ | .lmemRead _ _ | .lmemWrite _ _ _ | .w1cStatus _ _ | .wait | .run _
  | .ack | .clrerr => false

/-- The instruction is a CMD write of a legal word: what starts BUSY (43_control.md R235). -/
def mayStartBusy : Instr → Bool
  | .regWrite off v => off == 0x08 && !illegalCmdWord v
  | .run _ => true
  | .nop | .decompress | .compress | .composite | .softReset _ | .reset | .illegalCmd _ | .clear | .eoi
  | .literalFirst _ | .literal _ | .dict _ | .kwkwk _ | .badcode _ | .minCodeSize _ | .dataBlock _ _ | .terminator
  | .regRead _ | .lmemRead _ _ | .lmemWrite _ _ _ | .w1cStatus _ _ | .wait | .ack | .clrerr => false

/-- The pixel of the canvas list at column x and row y (20_memory.md R67). -/
def pixelAt (c : List Pixel) (sw x y : Nat) : Pixel := c.getD (y * sw + x) Pixel.blank

/-- The index of the pixel at stream row k, column j: 0 for a missing one (42_composite.md R208). -/
def streamIndex (s : State) (k j : Nat) : Byte :=
  if k * s.regs.imgW + j < s.regs.pixCount.toNat then readByte s (s.regs.pixBase.toNat + (k * s.regs.imgW + j))
  else 0#8

/-- Entry i of the colour table in LMEM, opaque (20_memory.md R66, 42_composite.md R212). -/
def tableEntry (s : State) (i : Nat) : Pixel where
  r := readByte s (s.regs.ctBase.toNat + 3 * i)
  g := readByte s (s.regs.ctBase.toNat + 3 * i + 1)
  b := readByte s (s.regs.ctBase.toNat + 3 * i + 2)
  a := 255#8

/-- Stream row k, column j is drawn at (x, y) of the screen (42_composite.md R207 to R209). -/
def DrawnAt (s : State) (k j x y : Nat) : Prop :=
  k < s.regs.imgH ∧ j < s.regs.imgW ∧ x = s.regs.imgX + j ∧
    y = s.regs.imgY + (rowMap s.regs.imgFlags.interlaced s.regs.imgH).getD k 0 ∧ x < s.regs.screenW ∧ y < s.regs.screenH

/-- The index is transparent (42_composite.md R210). -/
def Transparent (s : State) (i : Byte) : Prop := s.regs.imgFlags.transparent = true ∧ i = s.regs.imgFlags.transparentIndex

/-- The index is drawn as a bad one: not transparent, and CT_LEN or more (42_composite.md R211). -/
def BadIndex (s : State) (i : Byte) : Prop := ¬Transparent s i ∧ s.regs.ctLen.toNat ≤ i.toNat

end Sys2Proof.Claim

section

open Sys2Proof Sys2Proof.Machine Sys2Proof.Claim

/-! ## Encoding -/

/-- Decoding undoes encoding, for every instruction at every place where it is well formed: every operand value the
encoding admits. -/
def Obligations.DecodeOfEncode : Prop :=
  ∀ (p : Place) (i : Instr), i.wfIn p = true → decode p (encode p i) = .ok i

/-- Encoding undoes decoding, so an encoded form has one meaning: what decodes to a well-formed instruction is what that
instruction is encoded as. A read's datum means nothing; the CMD write of an illegal word has the word itself as its
canonical form. -/
def Obligations.EncodeOfDecode : Prop :=
  ∀ (p : Place) (e : Encoded) (i : Instr), decode p e = .ok i → i.wfIn p = true →
    encode p i = dropReadData e ∨ ∃ v, i = .illegalCmd v ∧ e = .line (regAccess p.params .write 0x08 v)

/-- The opcode map (R91), and every other word illegal (R92). -/
def Obligations.CommandWordMap : Prop :=
  ∀ w : Word,
    decodeCmd w = (if w = 0x00000000#32 then .nop else if w = 0x00000001#32 then .decompress
      else if w = 0x00000002#32 then .compress else if w = 0x00000003#32 then .composite else .illegalCmd w) ∧
    (illegalCmdWord w = true ↔
      w ≠ 0x00000000#32 ∧ w ≠ 0x00000001#32 ∧ w ≠ 0x00000002#32 ∧ w ≠ 0x00000003#32)

/-- The class table of R100: a 12-bit code is of exactly the class whose condition it meets. -/
def Obligations.CodeClassConditions : Prop :=
  ∀ (m nxt : Nat) (prev : Option Nat) (c : Nat), c < 4096 → 2 ^ m + 2 ≤ nxt →
    (classify m nxt prev c = .clear ↔ c = 2 ^ m) ∧
    (classify m nxt prev c = .eoi ↔ c = 2 ^ m + 1) ∧
    (classify m nxt prev c = .literalFirst c ↔ c < 2 ^ m ∧ prev = none) ∧
    (classify m nxt prev c = .literal c ↔ c < 2 ^ m ∧ prev ≠ none) ∧
    (classify m nxt prev c = .dict c ↔ 2 ^ m + 2 ≤ c ∧ c < nxt ∧ prev ≠ none) ∧
    (classify m nxt prev c = .kwkwk c ↔ c = nxt ∧ prev ≠ none ∧ nxt < 4096) ∧
    (classify m nxt prev c = .badcode c ↔ 2 ^ m + 2 ≤ c ∧ (nxt < c ∨ prev = none)) ∧
    (classify m nxt prev c ∈ [Instr.clear, .eoi, .literalFirst c, .literal c, .dict c, .kwkwk c, .badcode c])

/-- Codes are packed least significant bit first (R96, R97): the value of a code is the sum of its stream bits, and bit k
of the stream is bit k mod 8 of byte k / 8. -/
def Obligations.CodeValueIsSumOfBits : Prop :=
  ∀ (d : List Byte) (p w : Nat),
    codeAt d p w =
      ((List.range w).map (fun i => ((d.getD ((p + i) / 8) 0#8).getLsbD ((p + i) % 8)).toNat * 2 ^ i)).sum

/-- Words written out from the spec's encodings decode to the instructions they stand for: the four command words and
two illegal ones (R91, R238), the codes of `CLR/3 1/3 6/3 7/3 EOI/4` at m = 2 (R122) in the decoder's states, the first
two codes of R97's example, and the framing of `02 02 8C 5F 00` (R123). -/
def Obligations.WordsDecodeAsWritten : Prop :=
  decodeCmd 0x00000000#32 = .nop ∧ decodeCmd 0x00000001#32 = .decompress ∧ decodeCmd 0x00000002#32 = .compress ∧
  decodeCmd 0x00000003#32 = .composite ∧ decodeCmd 0x00000007#32 = .illegalCmd 7#32 ∧
  decodeCmd 0x00000011#32 = .illegalCmd 0x11#32 ∧
  classify 2 6 none (codeAt [0x8C#8, 0x5F#8] 0 3) = .clear ∧
  classify 2 6 none (codeAt [0x8C#8, 0x5F#8] 3 3) = .literalFirst 1 ∧
  classify 2 6 (some 1) (codeAt [0x8C#8, 0x5F#8] 6 3) = .kwkwk 6 ∧
  classify 2 7 (some 6) (codeAt [0x8C#8, 0x5F#8] 9 3) = .kwkwk 7 ∧
  classify 2 8 (some 7) (codeAt [0x8C#8, 0x5F#8] 12 4) = .eoi ∧
  codeAt [0x00#8, 0x51#8, 0xFC#8, 0x1B#8] 0 9 = 256 ∧ codeAt [0x00#8, 0x51#8, 0xFC#8, 0x1B#8] 9 9 = 40 ∧
  decodeElement true [0x02#8, 0x02#8, 0x8C#8, 0x5F#8, 0x00#8] =
    .ok (.minCodeSize 0x02#8, [0x02#8, 0x8C#8, 0x5F#8, 0x00#8]) ∧
  decodeElement false [0x02#8, 0x8C#8, 0x5F#8, 0x00#8] = .ok (.dataBlock 0x02#8 [0x8C#8, 0x5F#8], [0x00#8]) ∧
  decodeElement false [0x00#8] = .ok (.terminator, [])

/-! ## Steps -/

/-- A step runs the instruction that is decoded: the host's next line, the running command's word, the framing element at
the byte cursor, the code at the bit cursor; the cursor moves past it and CODE_COUNT counts a code (R134). -/
def Obligations.StepRunsDecodedInstruction : Prop :=
  (∀ (s s0 : State) (l : HostLine) (rest : List HostLine) (i : Instr), HostMoves s s0 → s.host = l :: rest →
    decodeLine s.params l = .ok i → step s = exec i { s0 with host := rest }) ∧
  (∀ (s s0 : State) (op : Opcode), BlockMoves s s0 op →
    decodeCmd op.word = op.instr ∧ step s = exec op.instr s0) ∧
  (∀ (s : State) (d : Decoder) (i : Instr) (rest : List Byte), s.datapath = .decoder d → d.framed = false →
    decodeElement d.minCode.isNone d.rest = .ok (i, rest) →
    step s = exec i (inDecoder { d with rest := rest, inPos := d.inPos + (d.rest.length - rest.length) } s)) ∧
  (∀ (s : State) (d : Decoder) (k : Codec), s.datapath = .decoder d → d.framed = true → d.codec = some k →
    d.stopped = false → d.out.length < d.npix → d.bitPos + k.width ≤ 8 * d.data.length →
    step s = exec (classify k.m k.nxt k.prev (codeAt d.data d.bitPos k.width))
      (inDecoder { d with bitPos := d.bitPos + k.width, codes := d.codes + 1 } s))

/-- Where no element is left: fewer than w bits end the code stream with END_OF_STREAM (R134); an input without a further
byte ends the framing pass with INPUT_TRUNCATED (R132), and with END_OF_STREAM too where not even the first byte is there
and pixels are expected (R133). -/
def Obligations.InputRunsOut : Prop :=
  (∀ (s : State) (d : Decoder) (k : Codec), s.datapath = .decoder d → d.framed = true → d.codec = some k →
    d.stopped = false → d.out.length < d.npix → 8 * d.data.length < d.bitPos + k.width →
    step s = .next (withErr 0x01#8 (inDecoder { d with stopped := true } s))) ∧
  (∀ (s : State) (d : Decoder), s.datapath = .decoder d → d.framed = false → d.rest = [] →
    step s = .next (withErr (if d.minCode = none ∧ 0 < d.npix then 0x03#8 else 0x02#8)
      (inDecoder { d with framed := true } s)))

/-- A bus access that breaks R63 or R64 gives the host BUS_ERROR and changes nothing of the block (R261): a register
access in the window that is not 4 bytes wide or not at a multiple of 4, and an LMEM access of a width other than 1, 2 or 4, misaligned,
or ending beyond LMEM_SIZE; both as the host's access and as the operands of the bus instructions themselves. -/
def Obligations.BadAccessIsBusError : Prop :=
  (∀ (s s0 : State) (b : BusAccess) (rest : List HostLine), s.params.WF → HostMoves s s0 → s.host = .access b :: rest →
    ((∃ off, b.addr = s.params.regBase + off ∧ off < 256 ∧ (b.width ≠ 4 ∨ off % 4 ≠ 0)) ∨
     (∃ a, b.addr = s.params.lmemHostBase + a ∧ a < s.params.lmemSize ∧
       (¬(b.width = 1 ∨ b.width = 2 ∨ b.width = 4) ∨ a % b.width ≠ 0 ∨ s.params.lmemSize < a + b.width))) →
    step s = .next { s0 with host := rest, resp := some .busError }) ∧
  (∀ (s : State) (off : Nat), off < 256 → off % 4 ≠ 0 →
    exec (.regRead off) s = .next { s with resp := some .busError } ∧
    ∀ v, exec (.regWrite off v) s = .next { s with resp := some .busError }) ∧
  (∀ (s : State) (a n : Nat), ¬(n = 1 ∨ n = 2 ∨ n = 4) ∨ a % n ≠ 0 ∨ s.params.lmemSize < a + n →
    exec (.lmemRead a n) s = .next { s with resp := some .busError } ∧
    ∀ v, exec (.lmemWrite a n v) s = .next { s with resp := some .busError })

/-! ## LZW codes -/

/-- CLEAR (R136) completes wherever a codec runs, at any width: the width, the next code, the previous code and the
dictionary restart; nothing else changes. Read from the code stream it is also counted in CODE_COUNT. -/
def Obligations.ClearRestartsDictionary : Prop :=
  ∀ (s : State) (d : Decoder) (k : Codec), s.datapath = .decoder d → d.codec = some k →
    ∃ k', exec .clear s = .next (inDecoder { d with codec := some k' } s) ∧
      k'.m = k.m ∧ k'.width = k.m + 1 ∧ k'.nxt = 2 ^ k.m + 2 ∧ k'.prev = none ∧
      (∀ c, 2 ^ k.m + 2 ≤ c → k'.str? c = none) ∧
      (d.framed = true → d.stopped = false → d.out.length < d.npix → d.bitPos + k.width ≤ 8 * d.data.length →
        codeAt d.data d.bitPos k.width = 2 ^ k.m →
        step s = .next (inDecoder
          { d with bitPos := d.bitPos + k.width, codes := d.codes + 1, codec := some k' } s))

/-- The codes that stop decoding. EOI (R137) sets TOO_FEW_PIXELS where indices are missing, BADCODE (R142) sets BAD_CODE
and, read from the code stream, is counted in CODE_COUNT; both emit nothing and leave the codec as it is; once the framing
has ended, the very next step finishes the command, the missing pixels 0 (R145). -/
def Obligations.EoiAndBadCodeStopDecoding : Prop :=
  (∀ (s : State) (d : Decoder) (k : Codec), s.datapath = .decoder d → d.codec = some k →
    exec .eoi s = .next (withErr (if d.out.length < d.npix then 0x04#8 else 0#8)
      (inDecoder { d with stopped := true } s))) ∧
  (∀ (s : State) (d : Decoder) (k : Codec) (c : Nat), s.datapath = .decoder d → d.codec = some k →
    2 ^ k.m + 2 ≤ c → (k.prev = none ∨ k.nxt < c) →
    exec (.badcode c) s = .next (withErr 0x10#8 (inDecoder { d with stopped := true } s))) ∧
  (∀ (s : State) (d : Decoder) (k : Codec) (c : Nat), s.datapath = .decoder d → d.codec = some k →
    2 ^ k.m + 2 ≤ c → (k.prev = none ∨ k.nxt < c) →
    d.framed = true → d.stopped = false → d.out.length < d.npix → d.bitPos + k.width ≤ 8 * d.data.length →
    codeAt d.data d.bitPos k.width = c →
    step s = .next (withErr 0x10#8 (inDecoder
      { d with bitPos := d.bitPos + k.width, codes := d.codes + 1, stopped := true } s))) ∧
  (∀ (s : State) (d : Decoder), s.datapath = .decoder d → d.stopped = true → d.framed = true →
    step s = .next (finishDecompress d s) ∧
    d.pixels = d.out ++ List.replicate (d.npix - d.out.length) 0#8)

/-- LITERAL. The first code (R138) emits its index and becomes the previous code, and adds no entry; a later one (R139)
adds the entry str(prev) ++ [c], emits [c] and becomes the previous code. -/
def Obligations.LiteralCodes : Prop :=
  ∀ (s : State) (d : Decoder) (k : Codec) (c : Nat), s.datapath = .decoder d → d.codec = some k → c < 2 ^ k.m →
    (k.prev = none →
      exec (.literalFirst c) s = .next (emitted [BitVec.ofNat 8 c] { k with prev := some c } d s)) ∧
    (∀ q, k.prev = some q →
      exec (.literal c) s = .next
        (emitted [BitVec.ofNat 8 c] { k.addEntry (k.str q ++ [BitVec.ofNat 8 c]) with prev := some c } d s))

/-- DICT (R140): the entry str(prev) ++ [s[0]] is added and s = str(c), as it was before, is emitted. -/
def Obligations.DictCodeEmitsItsString : Prop :=
  ∀ (s : State) (d : Decoder) (k : Codec) (c q : Nat), s.datapath = .decoder d → d.codec = some k →
    2 ^ k.m + 2 ≤ c → c < k.nxt → k.prev = some q →
    exec (.dict c) s = .next
      (emitted (k.str c) { k.addEntry (k.str q ++ (k.str c).take 1) with prev := some c } d s)

/-- KWKWK (R141): with t = str(prev), the string t ++ [t[0]] is added and emitted, and is str(c) from then on. -/
def Obligations.KwkwkNamesTheEntryItMakes : Prop :=
  ∀ (s : State) (d : Decoder) (k : Codec) (q : Nat), s.datapath = .decoder d → d.codec = some k →
    k.prev = some q → k.nxt < 4096 →
    exec (.kwkwk k.nxt) s = .next
      (emitted (k.str q ++ (k.str q).take 1)
        { k.addEntry (k.str q ++ (k.str q).take 1) with prev := some k.nxt } d s) ∧
    (k.addEntry (k.str q ++ (k.str q).take 1)).str? k.nxt = some (k.str q ++ (k.str q).take 1)

/-- The dictionary (R56) and AddEntry (R143). A literal stands for its own index, CLEAR and EOI for none, and nothing is
assigned from nxt on. Below 4096 the string added becomes that of nxt and no other string changes, nxt goes up by one, and
w grows by one right after code 2^w - 1 was assigned, up to 12; at 4096 nothing changes. -/
def Obligations.DictionaryGrowth : Prop :=
  (∀ (k : Codec) (c : Nat),
    (c < 2 ^ k.m → k.str? c = some [BitVec.ofNat 8 c]) ∧
    (c = 2 ^ k.m ∨ c = 2 ^ k.m + 1 → k.str? c = none) ∧
    (2 ^ k.m + 2 ≤ c → c < k.nxt → (k.str? c).isSome = true) ∧
    (k.nxt ≤ c → k.str? c = none)) ∧
  (∀ (k : Codec) (x : List Byte),
    (k.nxt < 4096 →
      (k.addEntry x).nxt = k.nxt + 1 ∧ (k.addEntry x).str? k.nxt = some x ∧
      (∀ c, c ≠ k.nxt → (k.addEntry x).str? c = k.str? c) ∧
      (k.addEntry x).width = (if k.nxt = 2 ^ k.width - 1 ∧ k.width < 12 then k.width + 1 else k.width)) ∧
    (4096 ≤ k.nxt → k.addEntry x = k) ∧
    (k.addEntry x).m = k.m ∧ (k.addEntry x).prev = k.prev)

/-- The model's choice (log 8): a code or framing element executed where no DECOMPRESS stands before such an element, or
a code outside its class, stops by name; the block never fetches one. -/
def Obligations.ElementsStopOutsideDecoder : Prop :=
  (∀ (s : State), (∀ d, s.datapath = .decoder d → d.codec = none) →
    exec .clear s = .fault .noElementStream ∧ exec .eoi s = .fault .noElementStream ∧
    ∀ c, exec (.literalFirst c) s = .fault .noElementStream ∧ exec (.literal c) s = .fault .noElementStream ∧
      exec (.dict c) s = .fault .noElementStream ∧ exec (.kwkwk c) s = .fault .noElementStream ∧
      exec (.badcode c) s = .fault .noElementStream) ∧
  (∀ (s : State) (d : Decoder) (k : Codec) (c : Nat), s.datapath = .decoder d → d.codec = some k →
    (classify k.m k.nxt k.prev c ≠ .literalFirst c → exec (.literalFirst c) s = .fault .notOfThisClass) ∧
    (classify k.m k.nxt k.prev c ≠ .literal c → exec (.literal c) s = .fault .notOfThisClass) ∧
    (classify k.m k.nxt k.prev c ≠ .dict c → exec (.dict c) s = .fault .notOfThisClass) ∧
    (classify k.m k.nxt k.prev c ≠ .kwkwk c → exec (.kwkwk c) s = .fault .notOfThisClass) ∧
    (classify k.m k.nxt k.prev c ≠ .badcode c → exec (.badcode c) s = .fault .notOfThisClass)) ∧
  (∀ (s : State), (∀ d, s.datapath = .decoder d → d.framed = true ∨ d.minCode ≠ none) →
    ∀ m, exec (.minCodeSize m) s = .fault .noElementStream) ∧
  (∀ (s : State), (∀ d, s.datapath = .decoder d → d.framed = true ∨ d.minCode = none) →
    exec .terminator s = .fault .noElementStream ∧
    ∀ n data, exec (.dataBlock n data) s = .fault .noElementStream)

/-! ## Framing -/

/-- MIN_CODE_SIZE (R102, R133): 2 to 8 starts the codec at width m+1 with no entry and no previous code; any other value
sets BAD_MIN_CODE_SIZE and leaves no codec running. That this happens as the byte is read, within the framing pass, is the
model's choice (DEDUCED, log 9): R130 runs Init after the whole framing pass, and no register or byte of LMEM can tell. -/
def Obligations.MinCodeSizeStartsCodec : Prop :=
  ∀ (s : State) (d : Decoder) (m : Byte), s.datapath = .decoder d → d.framed = false → d.minCode = none →
    (2 ≤ m.toNat ∧ m.toNat ≤ 8 →
      exec (.minCodeSize m) s = .next (inDecoder
        { d with minCode := some m,
                 codec := some { m := m.toNat, width := m.toNat + 1, prev := none, dict := [] } } s)) ∧
    (¬(2 ≤ m.toNat ∧ m.toNat ≤ 8) →
      exec (.minCodeSize m) s = .next (withErr 0x20#8 (inDecoder { d with minCode := some m, codec := none } s)))

/-- DATA_BLOCK and TERMINATOR (R94, R132): a block's bytes join D and it is counted; one that lacks bytes also ends the
framing pass with INPUT_TRUNCATED; the terminator ends it. -/
def Obligations.SubBlocksJoinData : Prop :=
  ∀ (s : State) (d : Decoder) (b : Byte), s.datapath = .decoder d → d.framed = false → d.minCode = some b →
    (∀ (n : Byte) (data : List Byte), data.length = n.toNat →
      exec (.dataBlock n data) s = .next
        (inDecoder { d with data := d.data ++ data, blocks := d.blocks + 1 } s)) ∧
    (∀ (n : Byte) (data : List Byte), data.length < n.toNat →
      exec (.dataBlock n data) s = .next (withErr 0x02#8
        (inDecoder { d with data := d.data ++ data, blocks := d.blocks + 1, framed := true } s))) ∧
    exec .terminator s = .next (inDecoder { d with framed := true } s)

/-- Framing (R93 to R95, R132, R148), whatever is decoded. Well-formed image data: D is the concatenation of the
sub-blocks, BLOCK_COUNT their number, IN_POS stands just past the terminator, and INPUT_TRUNCATED is not set. Without a
terminator, or with a last sub-block that lacks bytes: INPUT_TRUNCATED is set, all of the input is consumed, and D and
BLOCK_COUNT take in the short block. -/
def Obligations.FramingOfSubBlocks : Prop :=
  ∀ (npix : Nat) (m : Byte) (blocks : List (List Byte)), (∀ b ∈ blocks, IsBlock b) →
    (∀ (tail : List Byte) (r : Effect), r = decodeStream npix (m :: (blocks.flatMap sized ++ 0x00#8 :: tail)) →
      r.1.data = blocks.flatten ∧ r.1.blocks = blocks.length ∧ r.1.inPos = 2 + (blocks.flatMap sized).length ∧
        r.2 &&& 0x02#8 = 0#8) ∧
    (∀ r : Effect, r = decodeStream npix (m :: blocks.flatMap sized) →
      r.1.data = blocks.flatten ∧ r.1.blocks = blocks.length ∧ r.1.inPos = 1 + (blocks.flatMap sized).length ∧
        r.2 &&& 0x02#8 = 0x02#8) ∧
    (∀ (n : Byte) (short : List Byte) (r : Effect), short.length < n.toNat →
      r = decodeStream npix (m :: (blocks.flatMap sized ++ n :: short)) →
      r.1.data = blocks.flatten ++ short ∧ r.1.blocks = blocks.length + 1 ∧
        r.1.inPos = 2 + (blocks.flatMap sized).length + short.length ∧ r.2 &&& 0x02#8 = 0x02#8)

/-! ## DECOMPRESS -/

/-- DECOMPRESS (R130, R131, R146, R150) completes for every content of its input: with its regions in bounds and apart,
every byte of the pixel region takes its pixel, no other byte changes, the error bits are ORed into LAST_ERR and ERRSTATE,
the result registers take their values, and nothing else changes but BUSY = 0 and DONE = 1. CODE_COUNT is the number of
codes read where 32 bits hold it; beyond, the spec states no value, and a free value stands there: the model's choice
(log 25). -/
def Obligations.DecompressWritesPixels : Prop :=
  ∀ s : State, s.disturbed = false → DecompressFits s → DecompressApart s →
    let r := decodeStream s.regs.npix (readBytes s s.regs.inBase.toNat s.regs.inLen.toNat)
    ∃ t, exec .decompress s = .next t ∧
      (∀ a, readByte t a =
        if s.regs.pixBase.toNat ≤ a ∧ a < s.regs.pixBase.toNat + s.regs.npix
        then (r.1.out ++ List.replicate (s.regs.npix - r.1.out.length) 0#8).getD (a - s.regs.pixBase.toNat) 0#8
        else readByte s a) ∧
      t = { ended (withErr r.2 s) with
        mem := t.mem
        regs := { (ended (withErr r.2 s)).regs with
          pixCount := BitVec.ofNat 32 s.regs.npix
          inPos := BitVec.ofNat 32 r.1.inPos
          blockCount := BitVec.ofNat 32 r.1.blocks
          codeCount := if r.1.codes < 2 ^ 32 then BitVec.ofNat 32 r.1.codes else Config.wideCodeCount r.1.codes
          lzwInfo := r.1.info
          lzwCodes := r.1.lzwCodes
          lzwState := r.1.lzwState } }

/-- LZW_INFO, LZW_CODES and LZW_STATE after a DECOMPRESS (R133, R145, R150), by the first byte of its input: all 0 where
there is none; the byte with INIT_WIDTH = 0 and the rest 0 where it is not accepted, and then nothing is decoded; else
m, m+1, CLEAR(m), EOI(m), and the last next code and width of a codec of that m. -/
def Obligations.ResultRegistersByFirstByte : Prop :=
  ∀ (npix : Nat) (input : List Byte) (d : Decoder), d = (decodeStream npix input).1 →
    (input = [] →
      d.out = [] ∧ d.info = { minCodeSize := 0#8, initWidth := 0#4 } ∧
      d.lzwCodes = { clearCode := 0#16, eoiCode := 0#16 } ∧
      d.lzwState = { nextCode := 0#13, codeWidth := 0#4 }) ∧
    (∀ (m : Byte) (rest : List Byte), input = m :: rest → ¬(2 ≤ m.toNat ∧ m.toNat ≤ 8) →
      d.out = [] ∧ d.info = { minCodeSize := m, initWidth := 0#4 } ∧
      d.lzwCodes = { clearCode := 0#16, eoiCode := 0#16 } ∧
      d.lzwState = { nextCode := 0#13, codeWidth := 0#4 }) ∧
    (∀ (m : Byte) (rest : List Byte), input = m :: rest → 2 ≤ m.toNat ∧ m.toNat ≤ 8 →
      d.info = { minCodeSize := m, initWidth := BitVec.ofNat 4 (m.toNat + 1) } ∧
      d.lzwCodes = { clearCode := BitVec.ofNat 16 (2 ^ m.toNat), eoiCode := BitVec.ofNat 16 (2 ^ m.toNat + 1) } ∧
      ∃ k, d.codec = some k ∧ k.m = m.toNat ∧ m.toNat + 1 ≤ k.width ∧ k.width ≤ 12 ∧ 2 ^ m.toNat + 2 ≤ k.nxt ∧
        k.nxt ≤ 4096 ∧ d.lzwState = { nextCode := BitVec.ofNat 13 k.nxt, codeWidth := BitVec.ofNat 4 k.width })

/-- Decoding ends, and within the count (R135, R144, R145, R149): for every input the completion step reaches its end, with
at most npix indices decoded, npix pixels written, and the ones not decoded 0; with npix = 0 no code is read and an
accepted codec stays in its start state, and an empty input sets INPUT_TRUNCATED alone. -/
def Obligations.DecodingEndsWithinCount : Prop :=
  ∀ (npix : Nat) (input : List Byte) (d : Decoder), d = (decodeStream npix input).1 →
    d.finished = true ∧ d.out.length ≤ npix ∧ d.pixels.length = npix ∧
    (∀ i, d.out.length ≤ i → i < npix → d.pixels.getD i 0xFF#8 = 0#8) ∧
    (npix = 0 → d.codes = 0 ∧ d.pixels = [] ∧
      (∀ (m : Byte) (rest : List Byte), input = m :: rest → 2 ≤ m.toNat ∧ m.toNat ≤ 8 →
        d.codec = some { m := m.toNat, width := m.toNat + 1, prev := none, dict := [] }) ∧
      (input = [] → (decodeStream npix input).2 = 0x02#8))

/-- Which error bits mean what after a DECOMPRESS (R145, R147, R148): never BAD_COLOUR_INDEX nor NO_IMAGE_DATA;
BAD_MIN_CODE_SIZE exactly where the first byte is outside 2 to 8; TOO_FEW_PIXELS, BAD_CODE and END_OF_STREAM only where
pixels are missing, TOO_MANY_PIXELS only where none is; and where pixels are missing, a bit that stopped decoding says
why: one of END_OF_STREAM, TOO_FEW_PIXELS, BAD_CODE and BAD_MIN_CODE_SIZE, and no two of them. -/
def Obligations.DecompressErrorBits : Prop :=
  ∀ (npix : Nat) (input : List Byte),
    let r := decodeStream npix input
    r.2 &&& 0xC0#8 = 0#8 ∧
    (r.2 &&& 0x20#8 ≠ 0#8 ↔ ∃ m rest, input = m :: rest ∧ ¬(2 ≤ m.toNat ∧ m.toNat ≤ 8)) ∧
    (r.2 &&& 0x15#8 ≠ 0#8 → r.1.out.length < npix) ∧
    (r.2 &&& 0x08#8 ≠ 0#8 → r.1.out.length = npix) ∧
    (r.1.out.length < npix →
      r.2 &&& 0x35#8 = 0x01#8 ∨ r.2 &&& 0x35#8 = 0x04#8 ∨ r.2 &&& 0x35#8 = 0x10#8 ∨ r.2 &&& 0x35#8 = 0x20#8)

/-- DECOMPRESS one element at a time is DECOMPRESS in one step: the machine that stands before the first element, run step
by step through the meanings of the elements, reaches the very state the atomic completion step gives (R130, R135). -/
def Obligations.DecompressIsItsElements : Prop :=
  ∀ s : State, DecompressFits s → DecompressApart s →
    ∃ n t, exec .decompress s = .next t ∧ Steps n (inDecoder (startDecompress s) s) t

/-! ## COMPRESS -/

/-- COMPRESS (R170, R180, R184) completes where its operands keep the rules and the encoding fits: the bytes of E go to
OUT_BASE, no other byte changes, the result registers take their values, and nothing else changes but BUSY = 0 and
DONE = 1; no error bit is set. -/
def Obligations.CompressWritesImageData : Prop :=
  ∀ s : State, s.disturbed = false → CompressSizeOk s → CompressFits s → CompressApart s → CompressIndicesOk s →
    let m := s.regs.lzwCfg.toNat
    let p := readBytes s s.regs.pixBase.toNat s.regs.pixCount.toNat
    let e := encodeIndices m p
    let out := compressBytes m p
    out.length ≤ s.regs.outCap.toNat →
    ∃ t, exec .compress s = .next t ∧
      (∀ a, readByte t a =
        if s.regs.outBase.toNat ≤ a ∧ a < s.regs.outBase.toNat + out.length
        then out.getD (a - s.regs.outBase.toNat) 0#8 else readByte s a) ∧
      t = { ended s with
        mem := t.mem
        regs := { (ended s).regs with
          outLen := BitVec.ofNat 32 out.length
          blockCount := BitVec.ofNat 32 (blocksOf (pack e.codes)).length
          codeCount := BitVec.ofNat 32 e.codes.length
          lzwInfo := { minCodeSize := BitVec.ofNat 8 m, initWidth := BitVec.ofNat 4 (m + 1) }
          lzwCodes := { clearCode := BitVec.ofNat 16 (2 ^ m), eoiCode := BitVec.ofNat 16 (2 ^ m + 1) }
          lzwState := { nextCode := BitVec.ofNat 13 e.dnext, codeWidth := BitVec.ofNat 4 e.dw } } }

/-- The output capacity fault (R181): the first OUT_CAP bytes are written, OUT_LEN = OUT_CAP, cause 5, and nothing else
changes. An encoding has at least 4 bytes, so OUT_CAP = 0 faults for every buffer. -/
def Obligations.CompressOutputCapacity : Prop :=
  ∀ s : State, s.disturbed = false → CompressSizeOk s → CompressFits s → CompressApart s → CompressIndicesOk s →
    let out := compressBytes s.regs.lzwCfg.toNat (readBytes s s.regs.pixBase.toNat s.regs.pixCount.toNat)
    4 ≤ out.length ∧
    (s.regs.outCap.toNat < out.length →
      ∃ t, exec .compress s = .next t ∧
        (∀ a, readByte t a =
          if s.regs.outBase.toNat ≤ a ∧ a < s.regs.outBase.toNat + s.regs.outCap.toNat
          then out.getD (a - s.regs.outBase.toNat) 0#8 else readByte s a) ∧
        t = { faulted 5#8 s with
          mem := t.mem
          regs := { (faulted 5#8 s).regs with outLen := s.regs.outCap } })

/-- The turn of Encode's loop (R175, R176) as the machine takes it: the first index starts the match; an index that
extends it does; any other ends it, the match's code is written and a new entry or, with all codes up to 4095 assigned, a
Clear follows; after the last index the match and EOI are written. -/
def Obligations.EncoderTurnIsGreedy : Prop :=
  ∀ (s : State) (e : Encoder), s.datapath = .encoder e → e.finished = false →
    (e.rest = [] → e.cur = none →
      step s = .next (inEncoder { e.emitCode (2 ^ e.m + 1) with finished := true } s)) ∧
    (∀ c, e.rest = [] → e.cur = some c →
      step s = .next (inEncoder { (e.emitCode c).emitCode (2 ^ e.m + 1) with finished := true } s)) ∧
    (∀ b r, e.rest = b :: r → e.cur = none →
      step s = .next (inEncoder { e with rest := r, cur := some b.toNat } s)) ∧
    (∀ b r c c', e.rest = b :: r → e.cur = some c → e.lookup c b = some c' →
      step s = .next (inEncoder { e with rest := r, cur := some c' } s)) ∧
    (∀ b r c, e.rest = b :: r → e.cur = some c → e.lookup c b = none → e.enext < 4096 →
      step s = .next (inEncoder
        { e.emitCode c with rest := r, ed := { code := c, index := b, value := e.enext } :: e.ed,
                            cur := some b.toNat } s)) ∧
    (∀ b r c, e.rest = b :: r → e.cur = some c → e.lookup c b = none → 4096 ≤ e.enext →
      step s = .next (inEncoder
        { (e.emitCode c).emitCode (2 ^ e.m) with rest := r, ed := [], cur := some b.toNat } s))

/-- EmitCode and the width mirror (R175, R177): the code is appended at the width in force before its own update. -/
def Obligations.MirrorTracksDecoderWidth : Prop :=
  ∀ (e : Encoder) (c : Nat),
    (e.emitCode c).codes = e.codes ++ [(c, e.dw)] ∧
    (c = 2 ^ e.m → (e.emitCode c).dw = e.m + 1 ∧ (e.emitCode c).dnext = 2 ^ e.m + 2 ∧ (e.emitCode c).dfirst = true) ∧
    (c = 2 ^ e.m + 1 ∨ (c ≠ 2 ^ e.m ∧ e.dfirst = false ∧ 4096 ≤ e.dnext) →
      (e.emitCode c).dw = e.dw ∧ (e.emitCode c).dnext = e.dnext ∧ (e.emitCode c).dfirst = e.dfirst) ∧
    (c ≠ 2 ^ e.m → c ≠ 2 ^ e.m + 1 → e.dfirst = true →
      (e.emitCode c).dw = e.dw ∧ (e.emitCode c).dnext = e.dnext ∧ (e.emitCode c).dfirst = false) ∧
    (c ≠ 2 ^ e.m → c ≠ 2 ^ e.m + 1 → e.dfirst = false → e.dnext < 4096 →
      (e.emitCode c).dnext = e.dnext + 1 ∧
      (e.emitCode c).dw = (if e.dnext = 2 ^ e.dw - 1 ∧ e.dw < 12 then e.dw + 1 else e.dw) ∧
      (e.emitCode c).dfirst = false)

/-- What every encoding looks like (R175, R176, R99): it reaches its end, starts with Clear at width m+1, ends with EOI,
and every code fits the width it is written at, which is m+1 to 12. The empty buffer is Clear and EOI, a single index
stands between them, all at width m+1 (R182, R183). -/
def Obligations.EncodingStartsClearEndsEoi : Prop :=
  ∀ (m : Nat) (p : List Byte) (e : Encoder), 2 ≤ m → m ≤ 8 → (∀ b ∈ p, b.toNat < 2 ^ m) → e = encodeIndices m p →
    e.finished = true ∧ (∃ mid, e.codes = (2 ^ m, m + 1) :: mid ++ [(2 ^ m + 1, e.dw)]) ∧
    (∀ x ∈ e.codes, x.1 < 2 ^ x.2 ∧ m + 1 ≤ x.2 ∧ x.2 ≤ 12) ∧
    (p = [] → e.codes = [(2 ^ m, m + 1), (2 ^ m + 1, m + 1)] ∧ e.dnext = 2 ^ m + 2 ∧ e.dw = m + 1) ∧
    (∀ b, p = [b] → e.codes = [(2 ^ m, m + 1), (b.toNat, m + 1), (2 ^ m + 1, m + 1)])

/-- Pack as R178 writes it, with the accumulator, gives the bytes of the model's packing, bit by bit as R98 says; codes of
at least 3 bits give at least one byte. -/
def Obligations.PackIsTheAccumulator : Prop :=
  ∀ codes : List (Nat × Nat), (∀ x ∈ codes, x.1 < 2 ^ x.2) →
    pack codes = packFrom 0 0 codes ∧ (codes ≠ [] → (∀ x ∈ codes, 3 ≤ x.2) → 1 ≤ (pack codes).length)

/-- Packing and reading back (R97, R98): a code is read back where its bits start, each directly after the previous one;
the last byte is completed with zero bits. -/
def Obligations.PackedCodesReadBack : Prop :=
  ∀ (before after : List (Nat × Nat)) (c w pos total : Nat) (d : List Byte), c < 2 ^ w →
    d = pack (before ++ (c, w) :: after) → pos = (before.map Prod.snd).sum →
    total = pos + w + (after.map Prod.snd).sum →
    codeAt d pos w = c ∧ d.length = (total + 7) / 8 ∧ ∀ k, total ≤ k → streamBit d k = false

/-- Framing (R179): [m], full sub-blocks of 255 bytes and a last one of 1 to 255, and the terminator; k = ceil(|D| / 255)
and |E| = 2 + |D| + k. -/
def Obligations.FrameLayout : Prop :=
  ∀ (m : Nat) (d : List Byte), d ≠ [] →
    ∃ (full : List (List Byte)) (last : List Byte),
      frame m d = BitVec.ofNat 8 m :: ((full ++ [last]).flatMap sized ++ [0x00#8]) ∧
      (∀ b ∈ full, b.length = 255) ∧ 1 ≤ last.length ∧ last.length ≤ 255 ∧ full.flatten ++ last = d ∧
      blocksOf d = full ++ [last] ∧ (blocksOf d).length = (d.length + 254) / 255 ∧
      (frame m d).length = 2 + d.length + (blocksOf d).length

/-- The round trip (R153, R186), on the machine: COMPRESS of a buffer, then DECOMPRESS of what it wrote with an IMG_SIZE of
as many pixels, gives the buffer back, sets no error bit, consumes exactly OUT_LEN bytes and ends with the compressor's
LZW_STATE, having read every code but EOI (none of an empty buffer). At a legal LMEM_SIZE that number fits in CODE_COUNT. -/
def Obligations.RoundTrip : Prop :=
  ∀ s t u : State, s.disturbed = false → CompressSizeOk s → CompressFits s → CompressApart s → CompressIndicesOk s →
    exec .compress s = .next t → t.regs.status.fault = false → s.regs.status.fault = false →
    u.disturbed = false → DecompressFits u → DecompressApart u → u.regs.npix = s.regs.pixCount.toNat →
    u.regs.inLen = t.regs.outLen →
    (∀ i, i < t.regs.outLen.toNat →
      readByte u (u.regs.inBase.toNat + i) = readByte t (s.regs.outBase.toNat + i)) →
    ∃ v, exec .decompress u = .next v ∧
      (∀ i, i < s.regs.pixCount.toNat →
        readByte v (u.regs.pixBase.toNat + i) = readByte s (s.regs.pixBase.toNat + i)) ∧
      v.regs.lastErr = u.regs.lastErr ∧ v.regs.errState = u.regs.errState ∧
      v.regs.inPos = t.regs.outLen ∧ v.regs.lzwState = t.regs.lzwState ∧
      (s.params.WF → s.regs.pixCount ≠ 0#32 → v.regs.codeCount = t.regs.codeCount - 1#32) ∧
      (s.regs.pixCount = 0#32 → v.regs.codeCount = 0#32)

/-! ## COMPOSITE -/

/-- COMPOSITE (R200, R216) completes for every content of its buffers: with CT_LEN in range and its regions in bounds and
apart, every byte of the canvas region takes its pixel's byte, no other byte changes, the error bits are ORed into LAST_ERR
and ERRSTATE, and nothing else changes but BUSY = 0 and DONE = 1. -/
def Obligations.CompositeWritesCanvas : Prop :=
  ∀ s : State, s.disturbed = false → s.regs.ctLen.toNat ≤ 256 → CompositeFits s → CompositeApart s →
    let r := compositeCanvas s
    ∃ t, exec .composite s = .next t ∧
      (∀ x y, x < s.regs.screenW → y < s.regs.screenH →
        readPixel t (s.regs.canvasBase.toNat + 4 * (y * s.regs.screenW + x)) = pixelAt r.1 s.regs.screenW x y) ∧
      (∀ a, a < s.regs.canvasBase.toNat ∨ s.regs.canvasBase.toNat + 4 * (s.regs.screenW * s.regs.screenH) ≤ a →
        readByte t a = readByte s a) ∧
      t = { ended (withErr r.2 s) with mem := t.mem }

/-- Steps 1 to 3 (R204 to R206, R215), pixel by pixel: the rectangle of frame N-1 takes the fill colour under disposal 2,
the rest is frame N-2's canvas where it exists and the disposal is above 1, else blank. -/
def Obligations.DisposalOfPreviousFrame : Prop :=
  ∀ (s : State) (x y : Nat), x < s.regs.screenW → y < s.regs.screenH →
    let disp := s.regs.prevInfo.prevDisposal.toNat
    pixelAt (disposedCanvas s) s.regs.screenW x y =
      if disp = 2 ∧ s.regs.prevX ≤ x ∧ x < s.regs.prevX + s.regs.prevW ∧ s.regs.prevY ≤ y ∧
          y < s.regs.prevY + s.regs.prevH then
        (if s.regs.imgFlags.transparent = true then { r := 0#8, g := 0#8, b := 0#8, a := 0#8 }
         else { r := s.regs.prevBg.extractLsb' 0 8, g := s.regs.prevBg.extractLsb' 8 8,
                b := s.regs.prevBg.extractLsb' 16 8, a := s.regs.prevBg.extractLsb' 24 8 })
      else if 1 < disp ∧ s.regs.prevInfo.n2Exists = true then
        readPixel s (s.regs.n2Base.toNat + 4 * (y * s.regs.screenW + x))
      else { r := 0#8, g := 0#8, b := 0#8, a := 0#8 }

/-- Drawing frame N (R203, R207 to R212, R217), pixel by pixel. An empty buffer gives the blank canvas and NO_IMAGE_DATA.
Otherwise a position no stream pixel is drawn at keeps what disposal left; so does one whose index is transparent; an
index of CT_LEN or more draws opaque black; any other its colour, opaque. BAD_COLOUR_INDEX is set exactly where a drawn,
not transparent index is CT_LEN or more. -/
def Obligations.DrawnPixels : Prop :=
  ∀ (s : State) (r : List Pixel × ErrBits), r = compositeCanvas s →
    (s.regs.pixCount = 0#32 → r.2 = 0x80#8 ∧
      ∀ x y, x < s.regs.screenW → y < s.regs.screenH →
        pixelAt r.1 s.regs.screenW x y = { r := 0#8, g := 0#8, b := 0#8, a := 0#8 }) ∧
    (s.regs.pixCount ≠ 0#32 →
      (∀ x y, x < s.regs.screenW → y < s.regs.screenH → (∀ k j, ¬DrawnAt s k j x y) →
        pixelAt r.1 s.regs.screenW x y = pixelAt (disposedCanvas s) s.regs.screenW x y) ∧
      (∀ k j x y, DrawnAt s k j x y →
        (Transparent s (streamIndex s k j) →
          pixelAt r.1 s.regs.screenW x y = pixelAt (disposedCanvas s) s.regs.screenW x y) ∧
        (BadIndex s (streamIndex s k j) →
          pixelAt r.1 s.regs.screenW x y = { r := 0#8, g := 0#8, b := 0#8, a := 255#8 }) ∧
        (¬Transparent s (streamIndex s k j) → (streamIndex s k j).toNat < s.regs.ctLen.toNat →
          pixelAt r.1 s.regs.screenW x y = tableEntry s (streamIndex s k j).toNat)) ∧
      ((∃ k j x y, DrawnAt s k j x y ∧ BadIndex s (streamIndex s k j)) → r.2 = 0x40#8) ∧
      ((∀ k j x y, DrawnAt s k j x y → ¬BadIndex s (streamIndex s k j)) → r.2 = 0#8))

/-- The row order (R207): the identity, or the four passes one after the other; a permutation of the rows either way. -/
def Obligations.RowMapIsPermutation : Prop :=
  ∀ h : Nat,
    rowMap false h = List.range h ∧
    rowMap true h = (List.range h).filter (fun y => y % 8 == 0) ++ (List.range h).filter (fun y => y % 8 == 4) ++
      (List.range h).filter (fun y => y % 4 == 2) ++ (List.range h).filter (fun y => y % 2 == 1) ∧
    (rowMap true h).length = h ∧ (rowMap true h).Nodup ∧ (∀ y, y ∈ rowMap true h ↔ y < h) ∧
    rowMap true 10 = [0, 8, 4, 2, 6, 1, 3, 5, 7, 9]

/-- COMPRESS and COMPOSITE one turn at a time are COMPRESS and COMPOSITE in one step: run step by step from their start,
they reach the very state the atomic completion step gives (R175, R208). -/
def Obligations.CompressAndCompositeAreTheirTurns : Prop :=
  (∀ s : State, CompressSizeOk s → CompressFits s → CompressApart s → CompressIndicesOk s →
    ∃ n t, exec .compress s = .next t ∧
      Steps n (inEncoder (Encoder.start s.regs.lzwCfg.toNat
        (readBytes s s.regs.pixBase.toNat s.regs.pixCount.toNat)) s) t) ∧
  (∀ s : State, s.regs.pixCount ≠ 0#32 → s.regs.ctLen.toNat ≤ 256 → CompositeFits s → CompositeApart s →
    ∃ n t, exec .composite s = .next t ∧
      Steps n { s with datapath := .compositor (startComposite s (disposedCanvas s)) } t)

/-! ## Faults -/

/-- The checks of each command in their order (R71, R72, R131, R171 to R173, R201, R202, R256), each ending the command
with its cause and no other effect (R255, R258). OUTPUT_CAPACITY is the statement CompressOutputCapacity. -/
def Obligations.FaultsInCheckOrder : Prop :=
  ∀ s : State, s.disturbed = false →
    (¬DecompressFits s → exec .decompress s = .next (faulted 1#8 s)) ∧
    (DecompressFits s → ¬DecompressApart s → exec .decompress s = .next (faulted 2#8 s)) ∧
    (¬CompressSizeOk s → exec .compress s = .next (faulted 3#8 s)) ∧
    (CompressSizeOk s → ¬CompressFits s → exec .compress s = .next (faulted 1#8 s)) ∧
    (CompressSizeOk s → CompressFits s → ¬CompressApart s → exec .compress s = .next (faulted 2#8 s)) ∧
    (CompressSizeOk s → CompressFits s → CompressApart s → ¬CompressIndicesOk s →
      exec .compress s = .next (faulted 4#8 s)) ∧
    (256 < s.regs.ctLen.toNat → exec .composite s = .next (faulted 6#8 s)) ∧
    (s.regs.ctLen.toNat ≤ 256 → ¬CompositeFits s → exec .composite s = .next (faulted 1#8 s)) ∧
    (s.regs.ctLen.toNat ≤ 256 → CompositeFits s → ¬CompositeApart s → exec .composite s = .next (faulted 2#8 s))

/-! ## All commands -/

/-- NOP (R234) completes in every state: it only ends, with DONE = 1. -/
def Obligations.NopOnlyEnds : Prop :=
  ∀ s : State, exec .nop s = .next { ended s with disturbed := false }

/-- The completion step of every command, in every state, whether or not a hazard disturbed it (R236, R70, R76, R27 to
R49): it completes; BUSY = 0, DONE = 1, SEQ = IDLE, no datapath, LAST_OP, ILLEGAL_CMD and OVERRUN as they were; no byte
outside its write regions changes; of the registers only STATUS and the result registers do; a fault cause that is
written is 1 to 6. -/
def Obligations.CommandsKeepToTheirRegions : Prop :=
  ∀ (op : Opcode) (s : State),
    ∃ t, exec op.instr s = .next t ∧
      t.regs.status.busy = false ∧ t.regs.status.done = true ∧ t.regs.status.lastOp = s.regs.status.lastOp ∧
      t.regs.status.illegalCmd = s.regs.status.illegalCmd ∧ t.regs.status.overrun = s.regs.status.overrun ∧
      ((t.regs.status.fault = s.regs.status.fault ∧ t.regs.status.faultCause = s.regs.status.faultCause) ∨
       (t.regs.status.fault = true ∧ 1 ≤ t.regs.status.faultCause.toNat ∧ t.regs.status.faultCause.toNat ≤ 6)) ∧
      (∀ a, (regionsOf op s.regs).any (fun g => g.write && g.has a) = false → readByte t a = readByte s a) ∧
      t.regs = withResultsOf t.regs s.regs ∧
      t = { s with regs := t.regs, mem := t.mem, seq := .idle, datapath := .idle, disturbed := false,
                   fresh := t.fresh }

/-- Accumulation (R252, R253): an undisturbed command ORs one and the same set of bits into LAST_ERR and ERRSTATE, so a
command that started with LAST_ERR = 0 leaves in it exactly what it added to ERRSTATE; NOP, COMPRESS and every faulting
command add nothing (R184, R255). -/
def Obligations.ErrorBitsAccumulate : Prop :=
  ∀ (op : Opcode) (s t : State), s.disturbed = false → s.regs.status.fault = false → exec op.instr s = .next t →
    ∃ bits : BitVec 8, t.regs.lastErr = s.regs.lastErr ||| bits ∧ t.regs.errState = s.regs.errState ||| bits ∧
      (s.regs.lastErr = 0#8 → t.regs.errState = s.regs.errState ||| t.regs.lastErr) ∧
      (op = .nop ∨ op = .compress ∨ t.regs.status.fault = true → bits = 0#8)

/-- Two rules over all instructions. ERRSTATE only accumulates (R25): except a write to ERRSTATE and a reset, no
instruction run on an undisturbed state clears a bit of it. BUSY (R24, R235, R236, R241): only a legal CMD write starts
it, only the completion step of a command or a reset ends it. -/
def Obligations.OnlyTheseInstructionsChangeStatus : Prop :=
  ∀ (i : Instr) (s t : State), exec i s = .next t →
    (s.disturbed = false → clearsErrState i = false → s.regs.errState &&& ~~~t.regs.errState = 0#8) ∧
    (s.regs.status.busy = true → t.regs.status.busy = false → mayEndBusy i = true) ∧
    (s.regs.status.busy = false → t.regs.status.busy = true → mayStartBusy i = true)

/-- Determinism (R294): two undisturbed states with the same registers and parameters, and the same bytes in the read
regions of the command, however else they differ, give the same registers, and at every address either the same byte or
each its own byte unchanged. -/
def Obligations.CommandReadsOnlyItsRegions : Prop :=
  ∀ (op : Opcode) (s s' : State), s.disturbed = false → s'.disturbed = false → s'.regs = s.regs →
    s'.params = s.params →
    (∀ g ∈ regionsOf op s.regs, g.write = false → ∀ a, g.has a = true → readByte s' a = readByte s a) →
    ∃ t t', exec op.instr s = .next t ∧ exec op.instr s' = .next t' ∧ t'.regs = t.regs ∧
      ∀ a, readByte t' a = readByte t a ∨ (readByte t a = readByte s a ∧ readByte t' a = readByte s' a)

/-! ## Host bus operations -/

/-- Command acceptance (R235, R238, R239), as a CMD write and as the instruction ILLEGAL_CMD: while BUSY it only sets
OVERRUN; an illegal word only sets ILLEGAL_CMD; a legal one sets BUSY and LAST_OP, clears DONE, FAULT, FAULT_CAUSE and
LAST_ERR, starts the sequencer, and leaves the rest. -/
def Obligations.CmdWriteProtocol : Prop :=
  ∀ (s : State) (v : Word),
    (s.regs.status.busy = true → ∀ i ∈ [Instr.regWrite 0x08 v, Instr.illegalCmd v],
      exec i s = .next
        { s with regs := { s.regs with status := { s.regs.status with overrun := true } }, resp := some .ok }) ∧
    (s.regs.status.busy = false → illegalCmdWord v = true → ∀ i ∈ [Instr.regWrite 0x08 v, Instr.illegalCmd v],
      exec i s = .next
        { s with regs := { s.regs with status := { s.regs.status with illegalCmd := true } }, resp := some .ok }) ∧
    (∀ op : Opcode, s.regs.status.busy = false → v = op.word →
      exec (.regWrite 0x08 v) s = .next
        { s with
          regs := { s.regs with
            lastErr := 0#8
            status := { s.regs.status with busy := true, lastOp := v.extractLsb' 0 4, done := false, fault := false,
                                           faultCause := 0#8 } }
          seq := .running op
          disturbed := false
          resp := some .ok })

/-- REG_READ (R231): at every aligned offset it gives the register's value and changes nothing; while BUSY = 1 a result
register gives any value in its fields, and 0 in its reserved bits (R20, R25, R26, R35, R52). The register map (R20 to R53), offset by offset: reserved bits, write-only fields and reserved
offsets read as 0, ID as its value, and every other offset holds the fields its rule names, at their bits. -/
def Obligations.RegReadGivesValue : Prop :=
  (∀ (s : State) (off : Nat), off % 4 = 0 → off < 256 →
    (s.regs.status.busy = false ∨ off ∉ resultOffsets →
      exec (.regRead off) s = .next { s with resp := some (.data (s.regs.value off)) }) ∧
    (s.regs.status.busy = true → off ∈ resultOffsets →
      ∃ v n, exec (.regRead off) s = .next { s with resp := some (.data v), fresh := n } ∧
        v &&& ~~~readMask off = 0#32) ∧
    s.regs.value off &&& ~~~readMask off = 0#32) ∧
  ∀ r : Regs,
    r.value 0x00 = 0x4C5A5701#32 ∧ (r.value 0x04).getLsbD 0 = r.irqEn ∧ r.value 0x08 = 0#32 ∧
    (r.value 0x0C).getLsbD 0 = r.status.busy ∧ (r.value 0x0C).getLsbD 1 = r.status.done ∧
    (r.value 0x0C).getLsbD 2 = r.status.fault ∧ (r.value 0x0C).getLsbD 3 = r.status.illegalCmd ∧
    (r.value 0x0C).getLsbD 4 = r.status.overrun ∧ (r.value 0x0C).extractLsb' 8 4 = r.status.lastOp ∧
    (r.value 0x0C).extractLsb' 16 8 = r.status.faultCause ∧
    (r.value 0x10).extractLsb' 0 8 = r.errState ∧ (r.value 0x14).extractLsb' 0 8 = r.lastErr ∧
    r.value 0x18 = r.inBase ∧ r.value 0x1C = r.inLen ∧ r.value 0x20 = r.pixBase ∧ r.value 0x24 = r.pixCount ∧
    r.value 0x28 = r.outBase ∧ r.value 0x2C = r.outCap ∧ r.value 0x30 = r.outLen ∧
    (r.value 0x34).extractLsb' 0 4 = r.lzwCfg ∧
    (r.value 0x38).extractLsb' 0 8 = r.lzwInfo.minCodeSize ∧ (r.value 0x38).extractLsb' 8 4 = r.lzwInfo.initWidth ∧
    (r.value 0x3C).extractLsb' 0 16 = r.lzwCodes.clearCode ∧ (r.value 0x3C).extractLsb' 16 16 = r.lzwCodes.eoiCode ∧
    r.value 0x40 = r.inPos ∧
    r.value 0x44 = r.screenSize ∧ ((r.value 0x44).extractLsb' 0 16).toNat = r.screenW ∧
    ((r.value 0x44).extractLsb' 16 16).toNat = r.screenH ∧
    r.value 0x48 = r.imgPos ∧ ((r.value 0x48).extractLsb' 0 16).toNat = r.imgX ∧
    ((r.value 0x48).extractLsb' 16 16).toNat = r.imgY ∧
    r.value 0x4C = r.imgSize ∧ ((r.value 0x4C).extractLsb' 0 16).toNat = r.imgW ∧
    ((r.value 0x4C).extractLsb' 16 16).toNat = r.imgH ∧
    (r.value 0x50).getLsbD 0 = r.imgFlags.interlaced ∧ (r.value 0x50).getLsbD 1 = r.imgFlags.transparent ∧
    (r.value 0x50).extractLsb' 8 8 = r.imgFlags.transparentIndex ∧
    r.value 0x54 = r.ctBase ∧ r.value 0x58 = r.ctLen ∧
    (r.value 0x5C).extractLsb' 0 3 = r.prevInfo.prevDisposal ∧ (r.value 0x5C).getLsbD 8 = r.prevInfo.n2Exists ∧
    r.value 0x60 = r.prevPos ∧ ((r.value 0x60).extractLsb' 0 16).toNat = r.prevX ∧
    ((r.value 0x60).extractLsb' 16 16).toNat = r.prevY ∧
    r.value 0x64 = r.prevSize ∧ ((r.value 0x64).extractLsb' 0 16).toNat = r.prevW ∧
    ((r.value 0x64).extractLsb' 16 16).toNat = r.prevH ∧
    r.value 0x68 = r.prevBg ∧ r.value 0x6C = r.canvasBase ∧ r.value 0x70 = r.n2Base ∧
    r.value 0x74 = r.blockCount ∧ r.value 0x78 = r.codeCount ∧
    (r.value 0x7C).extractLsb' 0 13 = r.lzwState.nextCode ∧ (r.value 0x7C).extractLsb' 16 4 = r.lzwState.codeWidth ∧
    ∀ off, 0x80 ≤ off → r.value off = 0#32

/-- REG_WRITE while idle (R232), CMD and the soft reset apart: at every aligned offset each RW field takes the written
bits, each W1C bit written 1 is cleared, every other bit and every other register keeps its value, and no state outside
the registers changes. -/
def Obligations.RegWriteByFieldKind : Prop :=
  ∀ (s : State) (off : Nat) (v : Word), off % 4 = 0 → off < 256 → s.regs.status.busy = false → off ≠ 0x08 →
    ¬(off = 0x04 ∧ v.getLsbD 1 = true) →
    ∃ t, exec (.regWrite off v) s = .next t ∧
      (∀ o, o % 4 = 0 → o < 256 → t.regs.value o =
        if o = off then
          (s.regs.value o &&& ~~~rwMask o &&& ~~~(v &&& w1cMask o)) ||| (v &&& rwMask o)
        else s.regs.value o) ∧
      t = { s with regs := t.regs, resp := some .ok }

/-- REG_WRITE while BUSY (R239): at CMD and at offsets 0x14 to 0x7C it only sets OVERRUN; ID and the reserved offsets
take nothing; CTRL (without a reset), STATUS and ERRSTATE take the write as when idle. -/
def Obligations.RegWriteWhileBusy : Prop :=
  ∀ (s : State) (off : Nat) (v : Word), off % 4 = 0 → off < 256 → s.regs.status.busy = true →
    (off = 0x08 ∨ (0x14 ≤ off ∧ off ≤ 0x7C) →
      exec (.regWrite off v) s = .next
        { s with regs := { s.regs with status := { s.regs.status with overrun := true } }, resp := some .ok }) ∧
    (off = 0x00 ∨ 0x80 ≤ off → exec (.regWrite off v) s = .next { s with resp := some .ok }) ∧
    (off = 0x04 → v.getLsbD 1 = false →
      exec (.regWrite off v) s = .next { s with regs := { s.regs with irqEn := v.getLsbD 0 }, resp := some .ok }) ∧
    (off = 0x0C → exec (.regWrite off v) s = exec (.w1cStatus .status v) s) ∧
    (off = 0x10 → exec (.regWrite off v) s = exec (.w1cStatus .errState v) s)

/-- Write-1-to-clear (R240), at once and also while BUSY = 1. -/
def Obligations.WriteOneToClear : Prop :=
  ∀ (s : State) (v : Word),
    exec (.w1cStatus .status v) s = .next
      { s with
        regs := { s.regs with
          status := { s.regs.status with
            done := s.regs.status.done && !v.getLsbD 1
            fault := s.regs.status.fault && !v.getLsbD 2
            illegalCmd := s.regs.status.illegalCmd && !v.getLsbD 3
            overrun := s.regs.status.overrun && !v.getLsbD 4 } }
        resp := some .ok } ∧
    ∃ t, exec (.w1cStatus .errState v) s = .next t ∧
      (∀ i, i < 8 → t.regs.errState.getLsbD i = (s.regs.errState.getLsbD i && !v.getLsbD i)) ∧
      t = { s with regs := { s.regs with errState := t.regs.errState }, resp := some .ok }

/-- Soft reset (R241, R281), idle or busy: every register takes its reset value, SEQ = IDLE, an aborted command's write
regions take unspecified values and no other byte changes, none at all when no command was running; IRQ_EN of the same
write does not survive. -/
def Obligations.SoftResetAborts : Prop :=
  ∀ (s : State) (v : Word), v.getLsbD 1 = true →
    ∃ t, exec (.softReset v) s = .next t ∧ exec (.regWrite 0x04 v) s = .next t ∧
      (∀ off, t.regs.value off = if off = 0x00 then 0x4C5A5701#32 else 0#32) ∧ t.regs = Regs.reset ∧
      (∀ a, inRunningWriteRegion s a = false → readByte t a = readByte s a) ∧
      (s.seq = .idle → t.mem = s.mem) ∧ irq t = false ∧
      t = { s with regs := Regs.reset, seq := .idle, datapath := .idle, disturbed := false, mem := t.mem,
                   fresh := t.fresh, resp := some .ok }

/-- LMEM_READ (R62, R233, R76): the little-endian value of the bytes, with no side effect, while idle or, while BUSY = 1,
outside the running command's write regions; inside them any value. -/
def Obligations.LmemReadLittleEndian : Prop :=
  ∀ (s : State) (a n : Nat), n = 1 ∨ n = 2 ∨ n = 4 → a % n = 0 → a + n ≤ s.params.lmemSize →
    (s.regs.status.busy = false →
      exec (.lmemRead a n) s = .next { s with resp := some (.data (BitVec.ofNat 32
        ((List.range n).map (fun i => (readByte s (a + i)).toNat * 2 ^ (8 * i))).sum)) }) ∧
    ((∀ i, i < n → inRunningWriteRegion s (a + i) = false) →
      ∃ k, exec (.lmemRead a n) s = .next { s with fresh := k, resp := some (.data (BitVec.ofNat 32
        ((List.range n).map (fun i => (readByte s (a + i)).toNat * 2 ^ (8 * i))).sum)) }) ∧
    ∃ v k, exec (.lmemRead a n) s = .next { s with fresh := k, resp := some (.data v) }

/-- LMEM_WRITE (R62, R233, R76): byte i of the value goes to a + i and no other byte changes; a write while BUSY = 1 to a
region of the running command also disturbs the command (the model's note of R76, log 11); reading back with the same
width gives the written value. -/
def Obligations.LmemWriteThenRead : Prop :=
  ∀ (s : State) (a n : Nat) (v : Word), n = 1 ∨ n = 2 ∨ n = 4 → a % n = 0 → a + n ≤ s.params.lmemSize →
    ∃ t, exec (.lmemWrite a n v) s = .next t ∧
      (∀ b, readByte t b = if a ≤ b ∧ b < a + n then v.extractLsb' (8 * (b - a)) 8 else readByte s b) ∧
      t = { s with mem := t.mem, resp := some .ok, disturbed := t.disturbed } ∧
      (t.disturbed = true ↔ s.disturbed = true ∨
        (s.regs.status.busy = true ∧ ∃ i, i < n ∧ inRunningRegion s (a + i) = true)) ∧
      (s.regs.status.busy = false →
        exec (.lmemRead a n) t = .next { t with resp := some (.data (BitVec.ofNat 32 (v.toNat % 2 ^ (8 * n)))) })

/-- The pseudo-instructions as their expansions (R121): `wait` reads STATUS and repeats while BUSY = 1; `run` writes CMD,
which starts the command from idle and only sets OVERRUN while BUSY = 1, and waits; `ack`, `clrerr` and `reset` are one
register write each. One bus operation is one step, so what is left of `wait` and `run` stays the host's next line: that
form is the model's choice (DESIGN CHOICE, log 18). -/
def Obligations.PseudoInstructions : Prop :=
  ∀ s : State,
    (s.regs.status.busy = false →
      exec .wait s = .next { s with resp := some (.data (s.regs.value 0x0C)) }) ∧
    (s.regs.status.busy = true →
      exec .wait s = .next { s with resp := some (.data (s.regs.value 0x0C)), host := .wait :: s.host }) ∧
    (∀ op : Opcode, s.regs.status.busy = false →
      exec (.run op) s = .next
        { s with
          regs := { s.regs with
            lastErr := 0#8
            status := { s.regs.status with busy := true, lastOp := op.code, done := false, fault := false,
                                           faultCause := 0#8 } }
          seq := .running op
          disturbed := false
          host := .wait :: s.host
          resp := some .ok }) ∧
    (∀ op : Opcode, s.regs.status.busy = true →
      exec (.run op) s = .next
        { s with regs := { s.regs with status := { s.regs.status with overrun := true } }, host := .wait :: s.host,
                 resp := some .ok }) ∧
    exec .ack s = .next
      { s with
        regs := { s.regs with
          status := { s.regs.status with done := false, fault := false, illegalCmd := false, overrun := false } }
        resp := some .ok } ∧
    exec .clrerr s = .next { s with regs := { s.regs with errState := 0#8 }, resp := some .ok } ∧
    exec .reset s = exec (.softReset 0x00000002#32) s ∧
    ∃ t, exec .reset s = .next t ∧ t.regs = Regs.reset ∧ t.seq = .idle

/-! ## Interrupt and reset -/

/-- The interrupt level (R57, R262, R263): it is a function of CTRL and STATUS, 0 after reset; after the
completion step of any command it is IRQ_EN, after `ack` it is 0, and a refused command word raises it where enabled. -/
def Obligations.InterruptFollowsStatus : Prop :=
  (∀ s : State, irq s = true ↔
    s.regs.irqEn = true ∧ (s.regs.status.done = true ∨ s.regs.status.illegalCmd = true)) ∧
  (∀ p : Params, irq (State.resetWith p) = false) ∧
  (∀ (op : Opcode) (s t : State), exec op.instr s = .next t → irq t = s.regs.irqEn) ∧
  (∀ s t : State, exec .ack s = .next t → irq t = false) ∧
  (∀ (s t : State) (v : Word), s.regs.status.busy = false → exec (.illegalCmd v) s = .next t → irq t = s.regs.irqEn)

/-- Reset values (R59, R280, R282), for every value of the parameters: every offset of the register window reads 0 but
ID; SEQ = IDLE, IRQ = 0, no command-local state; no byte of LMEM written. A power-on reset asserted in any state between
commands gives them again (R280, R242); the turn it takes is an entry of the model's schedule (log 19). -/
def Obligations.ResetValues : Prop :=
  (∀ (p : Params) (off : Nat),
    (State.resetWith p).regs.value off = if off = 0x00 then 0x4C5A5701#32 else 0x00000000#32) ∧
  (∀ p : Params, (State.resetWith p).seq = .idle ∧ (State.resetWith p).datapath = .idle ∧
    irq (State.resetWith p) = false ∧ ∀ a, (State.resetWith p).mem.get? a = none) ∧
  State.reset = State.resetWith Params.sample ∧
  (∀ (s : State) (r : List Turn), s.datapath = .idle → s.sched = .powerOn :: r →
    ∃ t, step s = .next t ∧ t.regs = (State.resetWith s.params).regs ∧ t.seq = .idle ∧ t.datapath = .idle ∧
      irq t = false ∧ (∀ a, t.mem.get? a = none) ∧ t.params = s.params ∧ t.host = s.host ∧ t.sched = r)

/-- Every command issued with the reset values (R282): COMPRESS faults with cause 3, DECOMPRESS sets INPUT_TRUNCATED,
COMPOSITE sets NO_IMAGE_DATA, NOP leaves STATUS = 2 (R234). -/
def Obligations.CommandsFromReset : Prop :=
  ∀ p : Params,
    (∃ t, exec .nop (accept .nop (State.resetWith p)) = .next t ∧ t.regs.value 0x0C = 0x00000002#32) ∧
    (∃ t, exec .decompress (accept .decompress (State.resetWith p)) = .next t ∧
      t.regs.value 0x0C = 0x00000102#32 ∧ t.regs.lastErr = 0x02#8) ∧
    (∃ t, exec .compress (accept .compress (State.resetWith p)) = .next t ∧ t.regs.value 0x0C = 0x00030206#32) ∧
    (∃ t, exec .composite (accept .composite (State.resetWith p)) = .next t ∧
      t.regs.value 0x0C = 0x00000302#32 ∧ t.regs.lastErr = 0x80#8)

/-! ## The whole machine -/

/-- The invariant holds after reset, at every legal value of the parameters. -/
def Obligations.ResetMeetsInvariant : Prop := ∀ p : Params, p.WF → (State.resetWith p).Inv

/-- Every step keeps the invariant: LMEM stays canonical and inside LMEM_SIZE (R60), BUSY = 1 exactly while a command runs
(R54), LAST_OP names that command and DONE, FAULT and FAULT_CAUSE stay clear until it ends (R235, R240), a fault cause is
0 to 6 (R255), no command-local state survives a step (R55). -/
def Obligations.StepKeepsInvariant : Prop := ∀ s t : State, s.Inv → step s = .next t → t.Inv

/-- The block never stops (R251, R254) and makes progress (R237): from every state with the invariant, whatever the host
sends, a step answers a next state; and at the block's turn an accepted command completes. When that turn comes is open
(R237 gives no bound): that it is the next step where the schedule is empty is the model's choice (DESIGN CHOICE,
log 5). -/
def Obligations.StepNeverStops : Prop :=
  (∀ s : State, s.Inv → ∃ t, step s = .next t) ∧
  (∀ (s s0 : State) (op : Opcode), BlockMoves s s0 op →
    ∃ t, step s = .next t ∧ t.seq = .idle ∧ t.regs.status.busy = false ∧ t.regs.status.done = true)

/-- What the block does not respond to (R61): a host access outside both windows uses up the host's line, gives it
noResponse and changes no state of the block; the register operations themselves do so at an offset beyond the window.
That the host then gets a result of this name and goes on is the model's choice (DESIGN CHOICE, log 12). -/
def Obligations.NoResponseOutsideWindows : Prop :=
  (∀ (s s0 : State) (b : BusAccess) (rest : List HostLine), HostMoves s s0 → s.host = .access b :: rest →
    ¬(s.params.regBase ≤ b.addr ∧ b.addr < s.params.regBase + 256) →
    ¬(s.params.lmemHostBase ≤ b.addr ∧ b.addr < s.params.lmemHostBase + s.params.lmemSize) →
    step s = .next { s0 with host := rest, resp := some .noResponse }) ∧
  (∀ (s : State) (off : Nat), 256 ≤ off →
    exec (.regRead off) s = .next { s with resp := some .noResponse } ∧
    ∀ v, exec (.regWrite off v) s = .next { s with resp := some .noResponse })

end
end

