-- ==== Sys2Proof/Laws/Bits.lean ====
section
/-! SUPPORT. Packing and reading back: the bytes of `pack` hold exactly the stream bits of the codes, a code is read back
from where its bits start, and the sub-blocks of a string join to it again. -/

namespace Sys2Proof.Machine

/-! ### Bits of a code -/

@[simp] theorem codeBits_length (c w : Nat) : (codeBits c w).length = w := by
  induction w generalizing c with
  | zero => rfl
  | succ w ih => simp [codeBits, ih]

theorem testBit_zero_add_two_mul (c : Nat) : (c.testBit 0).toNat + 2 * (c / 2) = c := by
  rw [Nat.testBit_zero]
  by_cases h : c % 2 = 1
  · simp [h]; omega
  · simp [h]; omega

/-! ### Bytes of bits -/

theorem foldr_bits_testBit (bs : List Bool) (j : Nat) :
    (bs.foldr (fun (b : Bool) acc => b.toNat + 2 * acc) 0).testBit j = bs.getD j false := by
  induction bs generalizing j with
  | nil => simp
  | cons b bs ih =>
    cases j with
    | zero =>
      rw [List.foldr_cons, Nat.testBit_zero, List.getD_cons_zero]
      cases b <;> simp
    | succ j =>
      rw [List.foldr_cons, Nat.testBit_succ, List.getD_cons_succ, ← ih j]
      congr 1
      cases b <;> simp
      omega

theorem bitsByte_getLsbD (bs : List Bool) (j : Nat) (h : j < 8) : (bitsByte bs).getLsbD j = bs.getD j false := by
  rw [bitsByte, BitVec.getLsbD_ofNat, foldr_bits_testBit]
  simp [h]

/-- Bit k of the bytes is bit k of the bits, and zero beyond them (30_encoding.md R96, R98). -/
theorem streamBit_bitsToBytes (n : Nat) (bs : List Bool) (h : bs.length ≤ 8 * n) (k : Nat) :
    streamBit (bitsToBytes n bs) k = bs.getD k false := by
  induction n generalizing bs k with
  | zero =>
    have : bs = [] := by simpa using h
    subst this
    simp [bitsToBytes, streamBit]
  | succ n ih =>
    cases bs with
    | nil => simp [bitsToBytes, streamBit]
    | cons b bs =>
      by_cases hk : k < 8
      · have h0 : k / 8 = 0 := by omega
        have h1 : k % 8 = k := by omega
        simp only [bitsToBytes, streamBit, h0, h1, List.getD_cons_zero]
        rw [bitsByte_getLsbD _ _ hk, List.getD_eq_getElem?_getD, List.getD_eq_getElem?_getD, List.getElem?_take, if_pos hk]
      · have e : k = (k - 8) + 8 := by omega
        have h0 : k / 8 = (k - 8) / 8 + 1 := by omega
        have h1 : k % 8 = (k - 8) % 8 := by omega
        have hl : ((b :: bs).drop 8).length ≤ 8 * n := by
          rw [List.length_drop]; simp only [List.length_cons] at h ⊢; omega
        have := ih ((b :: bs).drop 8) hl (k - 8)
        simp only [bitsToBytes, streamBit, h0, h1, List.getD_cons_succ] at this ⊢
        rw [this, List.getD_eq_getElem?_getD, List.getD_eq_getElem?_getD, List.getElem?_drop]
        rw [show 8 + (k - 8) = k by omega]

theorem bitsToBytes_length (n : Nat) (bs : List Bool) (h : bs.length ≤ 8 * n) :
    (bitsToBytes n bs).length = (bs.length + 7) / 8 := by
  induction n generalizing bs with
  | zero =>
    have : bs = [] := by simpa using h
    subst this
    simp [bitsToBytes]
  | succ n ih =>
    cases bs with
    | nil => simp [bitsToBytes]
    | cons b bs =>
      have hl : ((b :: bs).drop 8).length ≤ 8 * n := by
        rw [List.length_drop]; simp only [List.length_cons] at h ⊢; omega
      rw [bitsToBytes, List.length_cons, ih _ hl, List.length_drop]
      simp only [List.length_cons]
      omega

/-! ### Packed codes -/

theorem pack_length (codes : List (Nat × Nat)) : (pack codes).length = ((streamBits codes).length + 7) / 8 :=
  bitsToBytes_length _ _ (by omega)

theorem streamBit_pack (codes : List (Nat × Nat)) (k : Nat) :
    streamBit (pack codes) k = (streamBits codes).getD k false :=
  streamBit_bitsToBytes _ _ (by omega) k

theorem streamBits_append (xs ys : List (Nat × Nat)) : streamBits (xs ++ ys) = streamBits xs ++ streamBits ys :=
  List.flatMap_append

theorem streamBits_cons (c w : Nat) (ys : List (Nat × Nat)) :
    streamBits ((c, w) :: ys) = codeBits c w ++ streamBits ys := rfl

/-- A code is read back from the place its bits start at (30_encoding.md R97, R98). -/
theorem codeAt_of_bits (d : List Byte) (p : Nat) (c w : Nat) (hc : c < 2 ^ w)
    (h : ∀ i, i < w → streamBit d (p + i) = (codeBits c w).getD i false) : codeAt d p w = c := by
  induction w generalizing p c with
  | zero =>
    simp only [Nat.pow_zero, Nat.lt_one_iff] at hc
    simp [codeAt, hc]
  | succ w ih =>
    have h0 := h 0 (Nat.succ_pos w)
    simp only [Nat.add_zero, codeBits, List.getD_cons_zero] at h0
    have hc2 : c / 2 < 2 ^ w := by rw [Nat.pow_succ] at hc; omega
    have ht := ih (p + 1) (c / 2) hc2 (by
      intro i hi
      have := h (i + 1) (by omega)
      rw [codeBits, List.getD_cons_succ] at this
      rw [show p + 1 + i = p + (i + 1) by omega, this])
    rw [codeAt, ht, h0]
    exact testBit_zero_add_two_mul c

theorem codeAt_pack (pre post : List (Nat × Nat)) (c w : Nat) (hc : c < 2 ^ w) :
    codeAt (pack (pre ++ (c, w) :: post)) (streamBits pre).length w = c := by
  refine codeAt_of_bits _ _ c w hc ?_
  intro i hi
  rw [streamBit_pack, streamBits_append, streamBits_cons]
  simp only [List.getD_eq_getElem?_getD]
  rw [List.getElem?_append_right (by omega), Nat.add_sub_cancel_left, List.getElem?_append_left (by simpa using hi)]

/-! ### Sub-blocks -/

theorem subBlocks_flatten (n : Nat) (d : List Byte) (h : d.length ≤ n) : (subBlocks n d).flatten = d := by
  induction n generalizing d with
  | zero =>
    have : d = [] := by simpa using h
    subst this; rfl
  | succ n ih =>
    cases d with
    | nil => rfl
    | cons b bs =>
      rw [subBlocks, List.flatten_cons, ih _ (by rw [List.length_drop]; simp only [List.length_cons, Config.maxSubBlock] at h ⊢; omega)]
      exact List.take_append_drop _ _

/-- The sub-blocks of D join to D (41_compress.md R179). -/
theorem blocksOf_flatten (d : List Byte) : (blocksOf d).flatten = d := subBlocks_flatten _ d (Nat.le_refl _)

theorem subBlocks_size (n : Nat) (d : List Byte) : ∀ b ∈ subBlocks n d, 1 ≤ b.length ∧ b.length ≤ 255 := by
  induction n generalizing d with
  | zero => simp [subBlocks]
  | succ n ih =>
    cases d with
    | nil => simp [subBlocks]
    | cons x xs =>
      intro b hb
      rw [subBlocks, List.mem_cons] at hb
      rcases hb with rfl | hb
      · rw [List.length_take]; simp only [List.length_cons, Config.maxSubBlock]; omega
      · exact ih _ b hb

/-- Every sub-block has 1 to 255 bytes (41_compress.md R179). -/
theorem blocksOf_size (d : List Byte) : ∀ b ∈ blocksOf d, 1 ≤ b.length ∧ b.length ≤ 255 := subBlocks_size _ d

theorem frame_eq (m : Nat) (d : List Byte) :
    frame m d = BitVec.ofNat 8 m :: ((blocksOf d).flatMap (fun b => BitVec.ofNat 8 b.length :: b) ++ [0#8]) := rfl

theorem flatMap_sized_length (bs : List (List Byte)) :
    (bs.flatMap (fun b => BitVec.ofNat 8 b.length :: b)).length = bs.flatten.length + bs.length := by
  induction bs with
  | nil => rfl
  | cons b bs ih => simp only [List.flatMap_cons, List.length_append, List.length_cons, ih, List.flatten_cons]; omega

/-- |E| = 2 + |D| + k (41_compress.md R179). -/
theorem frame_length (m : Nat) (d : List Byte) : (frame m d).length = 2 + d.length + (blocksOf d).length := by
  rw [frame_eq, List.length_cons, List.length_append, flatMap_sized_length, blocksOf_flatten]
  simp only [List.length_cons, List.length_nil]
  omega

/-! ### Values of bits, and full sub-blocks -/

theorem codeBits_append_value (c w : Nat) (h : c < 2 ^ w) (bs : List Bool) :
   (codeBits c w ++ bs).foldr (fun (b : Bool) acc => b.toNat + 2 * acc) 0 = c + 2 ^ w * bs.foldr (fun (b : Bool) acc => b.toNat + 2 * acc) 0 := by
  induction w generalizing c with
  | zero => simp [codeBits]; omega
  | succ w ih =>
    have := testBit_zero_add_two_mul c
    rw [codeBits, List.cons_append, List.foldr_cons, ih _ (by rw [pow_succ] at h; omega), pow_succ]
    linarith [this]

/-- The value of bits, least significant first. -/
def bitsValue (bs : List Bool) : Nat := bs.foldr (fun (b : Bool) acc => b.toNat + 2 * acc) 0

theorem bitsValue_append (as bs : List Bool) : bitsValue (as ++ bs) = bitsValue as + 2 ^ as.length * bitsValue bs := by
  induction as with
  | nil => simp [bitsValue]
  | cons a as ih =>
    have : bitsValue (a :: (as ++ bs)) = a.toNat + 2 * bitsValue (as ++ bs) := rfl
    rw [List.cons_append, this, ih, show bitsValue (a :: as) = a.toNat + 2 * bitsValue as from rfl, List.length_cons, pow_succ]; ring

theorem bitsValue_lt (bs : List Bool) : bitsValue bs < 2 ^ bs.length := by
  induction bs with
  | nil => simp [bitsValue]
  | cons b bs ih =>
    rw [show bitsValue (b :: bs) = b.toNat + 2 * bitsValue bs from rfl, List.length_cons, pow_succ]
    have := b.toNat_le; omega

theorem bitsValue_codeBits (c w : Nat) (h : c < 2 ^ w) : bitsValue (codeBits c w) = c := by
  have := codeBits_append_value c w h []
  simpa [bitsValue] using this

theorem bitsByte_bitsValue (bs : List Bool) : bitsByte bs = BitVec.ofNat 8 (bitsValue bs) := rfl

theorem bitsToBytes_fuel (n m : Nat) (bs : List Bool) (hn : bs.length ≤ n) (hm : bs.length ≤ m) : bitsToBytes n bs = bitsToBytes m bs := by
  induction n generalizing bs m with
  | zero =>
    obtain rfl : bs = [] := List.eq_nil_of_length_eq_zero (by omega)
    cases m <;> rfl
  | succ n ih =>
    cases bs with
    | nil => cases m <;> rfl
    | cons b bs =>
      cases m with
      | zero => simp at hm
      | succ m =>
        rw [bitsToBytes, bitsToBytes, ih m]
        · simp at hn ⊢; omega
        · simp at hm ⊢; omega

/-- The sub-blocks of bytes that are not none: full ones, and a last one of 1 to 255 (41_compress.md R179). -/
theorem subBlocks_full (n : Nat) (d : List Byte) (hd : d ≠ []) (hl : d.length ≤ n) :
    ∃ (full : List (List Byte)) (last : List Byte), subBlocks n d = full ++ [last] ∧ 
     (∀ b ∈ full, b.length = 255) ∧ 1 ≤ last.length ∧ last.length ≤ 255 ∧ 255 * full.length + last.length = d.length := by
    induction n generalizing d with
    | zero => exact absurd (List.eq_nil_of_length_eq_zero (by omega)) hd
    | succ n ih =>
      cases d with
      | nil => exact absurd rfl hd
      | cons b bs =>
        rw [subBlocks]
        by_cases h : (b :: bs).length ≤ 255
        · refine ⟨[], b :: bs, ?_, by simp, by simp, h, by simp⟩
          rw [Config.maxSubBlock, List.drop_of_length_le h, List.take_of_length_le h]
          cases n <;> rfl
        · have hn : (b :: bs).drop 255 ≠ [] := by
            intro h0; have := congrArg List.length h0; rw [List.length_drop] at this; simp at this h; omega
          obtain ⟨full, last, e, h1, h2, h3, h4⟩ := ih ((b :: bs).drop 255) hn (by rw [List.length_drop]; omega)
          rw [List.length_drop] at h4
          refine ⟨(b :: bs).take 255 :: full, last, ?_, ?_, h2, h3, ?_⟩
          · rw [Config.maxSubBlock, e]; rfl
          · intro x hx
            rcases List.mem_cons.1 hx with rfl | hx
            · rw [List.length_take]; omega
            · exact h1 x hx
          · rw [List.length_cons]; omega

end Sys2Proof.Machine
end

