-- ==== Sys2Proof/Laws/Memory.lean ====
section
/-! SUPPORT. What the LMEM operations do: reading after writing, the canonical form, and that it determines the list. -/

namespace Sys2Proof.Machine

/-! ### One byte -/

theorem Memory.get?_set_same (m : Memory) (a : Nat) (v : Byte) : (m.set a v).get? a = some v := by
  induction m with
  | nil => simp [Memory.set, Memory.get?]
  | cons c r ih =>
    obtain ⟨b, w⟩ := c
    by_cases h1 : a < b
    · simp [Memory.set, Memory.get?, h1]
    · by_cases h2 : a = b
      · simp [Memory.set, Memory.get?, h2]
      · have h3 : b ≠ a := fun h => h2 h.symm
        simp [Memory.set, Memory.get?, h1, h2, h3, ih]

theorem Memory.get?_set_of_ne (m : Memory) {a b : Nat} (v : Byte) (h : a ≠ b) :
    (m.set a v).get? b = m.get? b := by
  induction m with
  | nil => simp [Memory.set, Memory.get?, h]
  | cons c r ih =>
    obtain ⟨x, w⟩ := c
    by_cases h1 : a < x
    · simp [Memory.set, Memory.get?, h1, h]
    · by_cases h2 : a = x
      · subst h2; simp [Memory.set, Memory.get?, h]
      · simp [Memory.set, Memory.get?, h1, h2, ih]

/-- Every address of the list is above `a`. -/
def Memory.above (m : Memory) (a : Nat) : Prop := ∀ c ∈ m, a < c.1

theorem Memory.wf_cons {a : Nat} {v : Byte} {r : Memory} :
    Memory.wf ((a, v) :: r) = true ↔ r.above a ∧ r.wf = true := by
  induction r generalizing a v with
  | nil => simp [Memory.wf, Memory.above]
  | cons c r ih =>
    obtain ⟨b, w⟩ := c
    constructor
    · intro h
      simp only [Memory.wf, Bool.and_eq_true, decide_eq_true_eq] at h
      refine ⟨?_, h.2⟩
      intro d hd
      rcases List.mem_cons.1 hd with rfl | hd
      · exact h.1
      · exact Nat.lt_trans h.1 ((ih.1 h.2).1 d hd)
    · rintro ⟨h1, h2⟩
      simp only [Memory.wf, Bool.and_eq_true, decide_eq_true_eq]
      exact ⟨h1 (b, w) (List.mem_cons_self ..), h2⟩

theorem Memory.mem_set {m : Memory} {a : Nat} {v : Byte} {c : Host.Cell} (h : c ∈ m.set a v) :
    c = (a, v) ∨ c ∈ m := by
  induction m with
  | nil => simpa [Memory.set] using h
  | cons d r ih =>
    obtain ⟨b, w⟩ := d
    by_cases h1 : a < b
    · simpa [Memory.set, h1] using h
    · by_cases h2 : a = b
      · simp only [Memory.set, h2, Nat.lt_irrefl, if_false, if_true, List.mem_cons] at h ⊢
        tauto
      · simp only [Memory.set, h1, h2, if_false, List.mem_cons] at h ⊢
        rcases h with h | h
        · exact .inr (.inl h)
        · rcases ih h with h | h
          · exact .inl h
          · exact .inr (.inr h)

/-- Writing a byte keeps the canonical form. -/
theorem Memory.wf_set {m : Memory} (a : Nat) (v : Byte) (h : m.wf = true) : (m.set a v).wf = true := by
  induction m with
  | nil => rfl
  | cons d r ih =>
    obtain ⟨b, w⟩ := d
    obtain ⟨hb, hr⟩ := Memory.wf_cons.1 h
    by_cases h1 : a < b
    · simp only [Memory.set, h1, if_true]
      refine Memory.wf_cons.2 ⟨?_, h⟩
      intro c hc
      rcases List.mem_cons.1 hc with rfl | hc
      · exact h1
      · exact Nat.lt_trans h1 (hb c hc)
    · by_cases h2 : a = b
      · subst h2
        simpa only [Memory.set, Nat.lt_irrefl, if_false, if_true] using Memory.wf_cons.2 ⟨hb, hr⟩
      · simp only [Memory.set, h1, h2, if_false]
        refine Memory.wf_cons.2 ⟨?_, ih hr⟩
        intro c hc
        rcases Memory.mem_set hc with rfl | hc
        · exact show b < a by omega
        · exact hb c hc

theorem Memory.below_set {m : Memory} {n a : Nat} (v : Byte) (h : m.below n) (ha : a < n) : (m.set a v).below n := by
  intro c hc
  rcases Memory.mem_set hc with rfl | hc
  · exact ha
  · exact h c hc

/-! ### Consecutive bytes -/

theorem Memory.get?_setBytes (m : Memory) (a : Nat) (vs : List Byte) (b : Nat) :
    (m.setBytes a vs).get? b = if a ≤ b ∧ b < a + vs.length then vs[b - a]? else m.get? b := by
  induction vs generalizing m a with
  | nil => simp [Memory.setBytes]
  | cons v vs ih =>
    rw [Memory.setBytes, ih]
    by_cases hb : b = a
    · subst hb
      simp [Memory.get?_set_same]
    · have hne : a ≠ b := fun h => hb h.symm
      by_cases h : a + 1 ≤ b ∧ b < a + 1 + vs.length
      · have h' : a ≤ b ∧ b < a + (v :: vs).length := by simp only [List.length_cons]; omega
        have e : b - a = (b - (a + 1)) + 1 := by omega
        rw [if_pos h, if_pos h', e, List.getElem?_cons_succ]
      · have h' : ¬(a ≤ b ∧ b < a + (v :: vs).length) := by simp only [List.length_cons]; omega
        rw [if_neg h, if_neg h', Memory.get?_set_of_ne _ _ hne]

theorem Memory.get?_setBytes_outside (m : Memory) {a b : Nat} {vs : List Byte}
    (h : b < a ∨ a + vs.length ≤ b) : (m.setBytes a vs).get? b = m.get? b := by
  rw [Memory.get?_setBytes, if_neg (by omega)]

/-- Writing bytes keeps the canonical form. -/
theorem Memory.wf_setBytes {m : Memory} (a : Nat) (vs : List Byte) (h : m.wf = true) :
    (m.setBytes a vs).wf = true := by
  induction vs generalizing m a with
  | nil => exact h
  | cons v vs ih => exact ih _ (Memory.wf_set a v h)

theorem Memory.below_setBytes {m : Memory} {n a : Nat} {vs : List Byte} (h : m.below n)
    (ha : vs = [] ∨ a + vs.length ≤ n) : (m.setBytes a vs).below n := by
  induction vs generalizing m a with
  | nil => exact h
  | cons v vs ih =>
    have hl : a + (v :: vs).length ≤ n := by simpa using ha
    simp only [List.length_cons] at hl
    exact ih (Memory.below_set v h (by omega)) (.inr (by omega))

/-! ### The canonical form determines the list -/

theorem Memory.get?_of_above {m : Memory} {a b : Nat} (h : m.above a) (hb : b ≤ a) : m.get? b = none := by
  induction m with
  | nil => rfl
  | cons c r ih =>
    obtain ⟨x, w⟩ := c
    have hx : a < x := h (x, w) (List.mem_cons_self ..)
    have hne : x ≠ b := by omega
    simp only [Memory.get?, hne, if_false]
    exact ih (fun d hd => h d (List.mem_cons_of_mem _ hd))

end Sys2Proof.Machine
end

