-- ==== Sys2Proof/Laws/State.lean ====
section
/-! SUPPORT. One lemma per field per update of State, so that no proof unfolds a record update. -/

namespace Sys2Proof.Machine

/-! ### setErr -/

@[simp] theorem setErr_params (b : ErrBits) (s : State) : (setErr b s).params = s.params := rfl
@[simp] theorem setErr_seq (b : ErrBits) (s : State) : (setErr b s).seq = s.seq := rfl
@[simp] theorem setErr_datapath (b : ErrBits) (s : State) : (setErr b s).datapath = s.datapath := rfl
@[simp] theorem setErr_mem (b : ErrBits) (s : State) : (setErr b s).mem = s.mem := rfl
@[simp] theorem setErr_host (b : ErrBits) (s : State) : (setErr b s).host = s.host := rfl
@[simp] theorem setErr_resp (b : ErrBits) (s : State) : (setErr b s).resp = s.resp := rfl
@[simp] theorem setErr_sched (b : ErrBits) (s : State) : (setErr b s).sched = s.sched := rfl
@[simp] theorem setErr_disturbed (b : ErrBits) (s : State) : (setErr b s).disturbed = s.disturbed := rfl
@[simp] theorem setErr_fresh (b : ErrBits) (s : State) : (setErr b s).fresh = s.fresh := rfl
@[simp] theorem setErr_epoch (b : ErrBits) (s : State) : (setErr b s).epoch = s.epoch := rfl
@[simp] theorem setErr_status (b : ErrBits) (s : State) : (setErr b s).regs.status = s.regs.status := rfl
@[simp] theorem setErr_lastErr (b : ErrBits) (s : State) :
    (setErr b s).regs.lastErr = s.regs.lastErr ||| b := rfl
@[simp] theorem setErr_errState (b : ErrBits) (s : State) :
    (setErr b s).regs.errState = s.regs.errState ||| b := rfl
@[simp] theorem setErr_zero (s : State) : setErr 0#8 s = s := by simp [setErr]
@[simp] theorem setErr_setErr (a b : ErrBits) (s : State) : setErr b (setErr a s) = setErr (a ||| b) s := by
  simp [setErr, BitVec.or_assoc]

/-! ### respond -/

@[simp] theorem respond_params (b : BusResult) (s : State) : (respond b s).params = s.params := rfl
@[simp] theorem respond_regs (b : BusResult) (s : State) : (respond b s).regs = s.regs := rfl
@[simp] theorem respond_seq (b : BusResult) (s : State) : (respond b s).seq = s.seq := rfl
@[simp] theorem respond_datapath (b : BusResult) (s : State) : (respond b s).datapath = s.datapath := rfl
@[simp] theorem respond_mem (b : BusResult) (s : State) : (respond b s).mem = s.mem := rfl
@[simp] theorem respond_host (b : BusResult) (s : State) : (respond b s).host = s.host := rfl
@[simp] theorem respond_resp (b : BusResult) (s : State) : (respond b s).resp = some b := rfl
@[simp] theorem respond_sched (b : BusResult) (s : State) : (respond b s).sched = s.sched := rfl
@[simp] theorem respond_disturbed (b : BusResult) (s : State) : (respond b s).disturbed = s.disturbed := rfl
@[simp] theorem respond_fresh (b : BusResult) (s : State) : (respond b s).fresh = s.fresh := rfl
@[simp] theorem respond_epoch (b : BusResult) (s : State) : (respond b s).epoch = s.epoch := rfl

/-! ### setOverrun, setIllegalCmd, raiseFault -/

@[simp] theorem setOverrun_params (s : State) : (setOverrun s).params = s.params := rfl
@[simp] theorem setOverrun_seq (s : State) : (setOverrun s).seq = s.seq := rfl
@[simp] theorem setOverrun_datapath (s : State) : (setOverrun s).datapath = s.datapath := rfl
@[simp] theorem setOverrun_mem (s : State) : (setOverrun s).mem = s.mem := rfl
@[simp] theorem setOverrun_lastErr (s : State) : (setOverrun s).regs.lastErr = s.regs.lastErr := rfl
@[simp] theorem setOverrun_disturbed (s : State) : (setOverrun s).disturbed = s.disturbed := rfl
@[simp] theorem setOverrun_status (s : State) :
    (setOverrun s).regs.status = { s.regs.status with overrun := true } := rfl

@[simp] theorem setIllegalCmd_params (s : State) : (setIllegalCmd s).params = s.params := rfl
@[simp] theorem setIllegalCmd_seq (s : State) : (setIllegalCmd s).seq = s.seq := rfl
@[simp] theorem setIllegalCmd_datapath (s : State) : (setIllegalCmd s).datapath = s.datapath := rfl
@[simp] theorem setIllegalCmd_mem (s : State) : (setIllegalCmd s).mem = s.mem := rfl
@[simp] theorem setIllegalCmd_lastErr (s : State) : (setIllegalCmd s).regs.lastErr = s.regs.lastErr := rfl
@[simp] theorem setIllegalCmd_disturbed (s : State) : (setIllegalCmd s).disturbed = s.disturbed := rfl
@[simp] theorem setIllegalCmd_status (s : State) :
    (setIllegalCmd s).regs.status = { s.regs.status with illegalCmd := true } := rfl

@[simp] theorem raiseFault_params (c : FaultCause) (s : State) : (raiseFault c s).params = s.params := rfl
@[simp] theorem raiseFault_mem (c : FaultCause) (s : State) : (raiseFault c s).mem = s.mem := rfl
@[simp] theorem raiseFault_lastErr (c : FaultCause) (s : State) :
    (raiseFault c s).regs.lastErr = s.regs.lastErr := rfl
@[simp] theorem raiseFault_errState (c : FaultCause) (s : State) :
    (raiseFault c s).regs.errState = s.regs.errState := rfl
@[simp] theorem raiseFault_status (c : FaultCause) (s : State) :
    (raiseFault c s).regs.status = s.regs.status.raise c := rfl

/-! ### accept -/

@[simp] theorem accept_params (op : Opcode) (s : State) : (accept op s).params = s.params := rfl
@[simp] theorem accept_seq (op : Opcode) (s : State) : (accept op s).seq = .running op := rfl
@[simp] theorem accept_datapath (op : Opcode) (s : State) : (accept op s).datapath = s.datapath := rfl
@[simp] theorem accept_mem (op : Opcode) (s : State) : (accept op s).mem = s.mem := rfl
@[simp] theorem accept_lastErr (op : Opcode) (s : State) : (accept op s).regs.lastErr = 0#8 := rfl
@[simp] theorem accept_errState (op : Opcode) (s : State) : (accept op s).regs.errState = s.regs.errState := rfl
@[simp] theorem accept_status (op : Opcode) (s : State) :
    (accept op s).regs.status = s.regs.status.accept op := rfl
@[simp] theorem accept_disturbed (op : Opcode) (s : State) : (accept op s).disturbed = false := rfl

/-! ### hostWrite, clearW1c -/

@[simp] theorem hostWrite_params (s : State) (a n : Nat) (v : Word) : (hostWrite s a n v).params = s.params := rfl
@[simp] theorem hostWrite_regs (s : State) (a n : Nat) (v : Word) : (hostWrite s a n v).regs = s.regs := rfl
@[simp] theorem hostWrite_seq (s : State) (a n : Nat) (v : Word) : (hostWrite s a n v).seq = s.seq := rfl
@[simp] theorem hostWrite_datapath (s : State) (a n : Nat) (v : Word) :
    (hostWrite s a n v).datapath = s.datapath := rfl
@[simp] theorem hostWrite_mem (s : State) (a n : Nat) (v : Word) :
    (hostWrite s a n v).mem = s.mem.setBytes a (wordBytes v n) := rfl

@[simp] theorem clearW1c_params (r : W1cReg) (v : Word) (s : State) : (clearW1c r v s).params = s.params := by
  cases r <;> rfl
@[simp] theorem clearW1c_seq (r : W1cReg) (v : Word) (s : State) : (clearW1c r v s).seq = s.seq := by
  cases r <;> rfl
@[simp] theorem clearW1c_datapath (r : W1cReg) (v : Word) (s : State) :
    (clearW1c r v s).datapath = s.datapath := by cases r <;> rfl
@[simp] theorem clearW1c_mem (r : W1cReg) (v : Word) (s : State) : (clearW1c r v s).mem = s.mem := by
  cases r <;> rfl
@[simp] theorem clearW1c_lastErr (r : W1cReg) (v : Word) (s : State) :
    (clearW1c r v s).regs.lastErr = s.regs.lastErr := by cases r <;> rfl
@[simp] theorem clearW1c_disturbed (r : W1cReg) (v : Word) (s : State) :
    (clearW1c r v s).disturbed = s.disturbed := by cases r <;> rfl

/-! ### softReset, powerOn -/

@[simp] theorem softReset_regs (s : State) : (softReset s).regs = Regs.reset := rfl
@[simp] theorem softReset_seq (s : State) : (softReset s).seq = .idle := rfl
@[simp] theorem softReset_datapath (s : State) : (softReset s).datapath = .idle := rfl
@[simp] theorem softReset_disturbed (s : State) : (softReset s).disturbed = false := rfl

@[simp] theorem powerOn_params (s : State) : (powerOn s).params = s.params := rfl
@[simp] theorem powerOn_regs (s : State) : (powerOn s).regs = Regs.reset := rfl
@[simp] theorem powerOn_seq (s : State) : (powerOn s).seq = .idle := rfl
@[simp] theorem powerOn_datapath (s : State) : (powerOn s).datapath = .idle := rfl
@[simp] theorem powerOn_mem (s : State) : (powerOn s).mem = [] := rfl
@[simp] theorem powerOn_disturbed (s : State) : (powerOn s).disturbed = false := rfl

/-! ### complete -/

@[simp] theorem complete_seq (op : Opcode) (c : Option FaultCause) (s : State) : (complete op c s).seq = .idle := rfl
@[simp] theorem complete_datapath (op : Opcode) (c : Option FaultCause) (s : State) :
    (complete op c s).datapath = .idle := rfl
@[simp] theorem complete_disturbed (op : Opcode) (c : Option FaultCause) (s : State) :
    (complete op c s).disturbed = false := rfl

/-- What an undisturbed completion does with no fault (43_control.md R236). -/
theorem complete_ok (op : Opcode) (s : State) (h : s.disturbed = false) :
    complete op none s =
      { s with regs := { s.regs with status := s.regs.status.finish }, seq := .idle, datapath := .idle,
               disturbed := false } := by
  simp [complete, h]

/-- What an undisturbed completion does with a fault (43_control.md R236, 60_exceptions.md R258). -/
theorem complete_fault (op : Opcode) (c : FaultCause) (s : State) (h : s.disturbed = false) :
    complete op (some c) s =
      { s with regs := { s.regs with status := (s.regs.status.raise c).finish }, seq := .idle, datapath := .idle,
               disturbed := false } := by
  simp [complete, h, raiseFault]

end Sys2Proof.Machine
end

