-- ==== Sys2Proof/Laws/Read.lean ====
section
/-! SUPPORT. Reading bytes of LMEM: what each index of a read run is, what a write changes of it, and that a read depends
on the bytes it reads only. -/

namespace Sys2Proof.Machine

@[simp] theorem readBytes_length (s : State) (a n : Nat) : (readBytes s a n).length = n := by
  induction n generalizing a with
  | zero => rfl
  | succ n ih => simp [readBytes, ih]

theorem readBytes_getElem? (s : State) (a n i : Nat) (h : i < n) :
    (readBytes s a n)[i]? = some (readByte s (a + i)) := by
  induction n generalizing a i with
  | zero => omega
  | succ n ih =>
    cases i with
    | zero => simp [readBytes]
    | succ i =>
      rw [readBytes, List.getElem?_cons_succ, ih (a + 1) i (by omega)]
      rw [show a + 1 + i = a + (i + 1) by omega]

theorem readBytes_getD (s : State) (a n i : Nat) (h : i < n) :
    (readBytes s a n).getD i 0#8 = readByte s (a + i) := by
  rw [List.getD_eq_getElem?_getD, readBytes_getElem? s a n i h, Option.getD_some]

/-- A read run depends on its own bytes only. -/
theorem readBytes_congr {s t : State} {a n : Nat} (h : ∀ i, i < n → readByte s (a + i) = readByte t (a + i)) :
    readBytes s a n = readBytes t a n := by
  induction n generalizing a with
  | zero => rfl
  | succ n ih =>
    have h0 := h 0 (Nat.succ_pos n)
    simp only [Nat.add_zero] at h0
    rw [readBytes, readBytes, h0, ih]
    intro i hi
    have := h (i + 1) (by omega)
    rwa [show a + 1 + i = a + (i + 1) by omega]

/-- The byte read after a run of bytes is written. -/
theorem readByte_setBytes (s t : State) (a : Nat) (vs : List Byte) (b : Nat) (he : t.epoch = s.epoch)
    (hm : t.mem = s.mem.setBytes a vs) :
    readByte t b = if a ≤ b ∧ b < a + vs.length then vs.getD (b - a) 0#8 else readByte s b := by
  unfold readByte
  rw [hm, he, Memory.get?_setBytes]
  by_cases h : a ≤ b ∧ b < a + vs.length
  · have hl : b - a < vs.length := by omega
    rw [if_pos h, if_pos h, List.getD_eq_getElem?_getD, List.getElem?_eq_getElem hl]
    simp
  · rw [if_neg h, if_neg h]

theorem readByte_congr {s t : State} (he : t.epoch = s.epoch) (hm : t.mem = s.mem) (b : Nat) :
    readByte t b = readByte s b := by
  unfold readByte; rw [he, hm]

end Sys2Proof.Machine
end

