-- ==== Sys2Proof/Laws/Ops.lean ====
section
/-! SUPPORT. The shared operations: the region checks as arithmetic, what a scrambled region keeps, and everything the
end of a command can do. -/

namespace Sys2Proof.Machine

/-! ### Region checks (20_memory.md R71, R72) -/

theorem Region.inBounds_iff (size : Nat) (g : Region) :
    g.inBounds size = true ↔ g.len = 0 ∨ g.base + g.len ≤ size := by
  simp [Region.inBounds]

theorem Region.overlaps_false_iff (g h : Region) :
    g.overlaps h = false ↔ g.len = 0 ∨ h.len = 0 ∨ g.base + g.len ≤ h.base ∨ h.base + h.len ≤ g.base := by
  simp only [Region.overlaps, Bool.and_eq_false_iff, bne_eq_false_iff_eq, decide_eq_false_iff_not, not_and_or, not_lt]
  tauto

theorem regionFault_none_iff (size : Nat) (gs : List Region) :
    regionFault size gs = none ↔ gs.all (Region.inBounds size) = true ∧ anyOverlap gs = false := by
  unfold regionFault
  cases gs.all (Region.inBounds size) <;> cases anyOverlap gs <;> simp

theorem regionFault_bounds (size : Nat) (gs : List Region) (h : gs.all (Region.inBounds size) = false) :
    regionFault size gs = some .regionBounds := by simp [regionFault, h]

theorem regionFault_overlap (size : Nat) (gs : List Region) (h : gs.all (Region.inBounds size) = true)
    (ho : anyOverlap gs = true) : regionFault size gs = some .regionOverlap := by simp [regionFault, h, ho]

/-! ### CODE_COUNT (10_state.md R51, log 25) -/

theorem codeCountWord_of_lt {codes : Nat} (h : codes < 2 ^ 32) : codeCountWord codes = BitVec.ofNat 32 codes := if_pos h

@[simp] theorem codeCountWord_zero : codeCountWord 0 = 0#32 := rfl

/-- Every count that fits is read back from the register. -/
theorem codeCountWord_toNat {codes : Nat} (h : codes < 2 ^ 32) : (codeCountWord codes).toNat = codes := by
  rw [codeCountWord_of_lt h, BitVec.toNat_ofNat, Nat.mod_eq_of_lt h]

/-! ### Scrambled regions -/

@[simp] theorem freeBytes_length (start n : Nat) : (freeBytes start n).length = n := by simp [freeBytes]

theorem Region.clip_le (size : Nat) (g : Region) : g.clip size ≤ g.len ∧ (g.clip size = 0 ∨ g.base + g.clip size ≤ size) := by
  unfold Region.clip; omega

/-- All that scrambling changes: LMEM inside the region and the count of free values. -/
theorem scrambleRegion_frame (g : Region) (s : State) :
    scrambleRegion g s = { s with mem := (scrambleRegion g s).mem, fresh := (scrambleRegion g s).fresh } := rfl

theorem scrambleRegion_outside (g : Region) (s : State) {a : Nat} (h : g.has a = false) :
    readByte (scrambleRegion g s) a = readByte s a := by
  have hc := Region.clip_le s.params.lmemSize g
  simp only [Region.has, decide_eq_false_iff_not, not_and_or, not_le, not_lt] at h
  unfold scrambleRegion readByte
  simp only
  rw [Memory.get?_setBytes_outside]
  rw [freeBytes_length]; omega

theorem scrambleWrites_frame (gs : List Region) (s : State) :
    scrambleWrites gs s = { s with mem := (scrambleWrites gs s).mem, fresh := (scrambleWrites gs s).fresh } := by
  induction gs generalizing s with
  | nil => rfl
  | cons g gs ih =>
    rw [scrambleWrites, ih]
    split <;> rfl

theorem scrambleWrites_outside (gs : List Region) (s : State) {a : Nat}
    (h : gs.any (fun g => g.write && g.has a) = false) : readByte (scrambleWrites gs s) a = readByte s a := by
  induction gs generalizing s with
  | nil => rfl
  | cons g gs ih =>
    simp only [List.any_cons, Bool.or_eq_false_iff] at h
    rw [scrambleWrites, ih _ h.2]
    split
    · next hw =>
      rw [hw, Bool.true_and] at h
      exact scrambleRegion_outside g s h.1
    · rfl

theorem scrambleWrites_mem (gs : List Region) (s : State) (hw : s.mem.wf = true) (hb : s.mem.below s.params.lmemSize) :
    (scrambleWrites gs s).mem.wf = true ∧ (scrambleWrites gs s).mem.below s.params.lmemSize := by
  induction gs generalizing s with
  | nil => exact ⟨hw, hb⟩
  | cons g gs ih =>
    rw [scrambleWrites]
    split
    · refine ih _ (Memory.wf_setBytes _ _ hw) (Memory.below_setBytes hb ?_)
      have := (Region.clip_le s.params.lmemSize g).2
      rw [freeBytes_length]
      rcases this with h | h
      · exact .inl (by rw [h]; rfl)
      · exact .inr h
    · exact ih _ hw hb

/-- Of the registers, scrambling the results changes result registers only. -/
theorem scrambleResults_frame (op : Opcode) (c : Option FaultCause) (s : State) :
    scrambleResults op c s = { s with regs := (scrambleResults op c s).regs, fresh := (scrambleResults op c s).fresh } := by
  unfold scrambleResults
  split <;> rfl

theorem scrambleResults_status (op : Opcode) (c : Option FaultCause) (s : State) :
    (scrambleResults op c s).regs.status = s.regs.status := by
  unfold scrambleResults
  split <;> rfl

/-! ### The end of a command -/

/-- The STATUS a command ends with (43_control.md R236, 60_exceptions.md R258). -/
def endStatus (cause : Option FaultCause) (st : Status) : Status :=
  match cause with
  | none => st.finish
  | some c => (st.raise c).finish

theorem complete_status (op : Opcode) (c : Option FaultCause) (s : State) :
    (complete op c s).regs.status = endStatus c s.regs.status := by
  have h1 : ∀ s : State, (if s.disturbed then scrambleResults op c (scrambleWrites (regionsOf op s.regs) s) else s).regs.status
      = s.regs.status := by
    intro s
    split
    · rw [scrambleResults_status, scrambleWrites_frame]
    · rfl
  unfold complete
  cases c with
  | none => simp only [h1, endStatus]
  | some c => simp only [raiseFault_status, h1, endStatus]

/-- All that the end of a command changes. -/
theorem complete_frame (op : Opcode) (c : Option FaultCause) (s : State) :
    complete op c s =
      { s with regs := (complete op c s).regs, mem := (complete op c s).mem, seq := .idle, datapath := .idle,
               disturbed := false, fresh := (complete op c s).fresh } := by
  have h1 : (if s.disturbed then scrambleResults op c (scrambleWrites (regionsOf op s.regs) s) else s) =
      { s with
        regs := (if s.disturbed then scrambleResults op c (scrambleWrites (regionsOf op s.regs) s) else s).regs
        mem := (if s.disturbed then scrambleResults op c (scrambleWrites (regionsOf op s.regs) s) else s).mem
        fresh := (if s.disturbed then scrambleResults op c (scrambleWrites (regionsOf op s.regs) s) else s).fresh } := by
    split
    · rw [scrambleResults_frame, scrambleWrites_frame]
    · rfl
  unfold complete
  rw [h1]
  cases c <;> rfl

theorem complete_outside (op : Opcode) (c : Option FaultCause) (s : State) {a : Nat}
    (h : (regionsOf op s.regs).any (fun g => g.write && g.has a) = false) :
    readByte (complete op c s) a = readByte s a := by
  have h1 : readByte (if s.disturbed then scrambleResults op c (scrambleWrites (regionsOf op s.regs) s) else s) a =
      readByte s a := by
    split
    · rw [← scrambleWrites_outside (regionsOf op s.regs) s h]
      refine readByte_congr ?_ ?_ a <;> rw [scrambleResults_frame]
    · rfl
  rw [← h1]
  unfold complete
  cases c <;> exact readByte_congr rfl rfl a

theorem complete_mem (op : Opcode) (c : Option FaultCause) (s : State) (hw : s.mem.wf = true)
    (hb : s.mem.below s.params.lmemSize) :
    (complete op c s).mem.wf = true ∧ (complete op c s).mem.below s.params.lmemSize := by
  have h1 : (complete op c s).mem =
      (if s.disturbed then scrambleResults op c (scrambleWrites (regionsOf op s.regs) s) else s).mem := by
    unfold complete
    cases c <;> rfl
  rw [h1]
  split
  · rw [scrambleResults_frame]
    exact scrambleWrites_mem _ s hw hb
  · exact ⟨hw, hb⟩

/-! ### Soft reset -/

theorem softReset_frame (s : State) :
    softReset s =
      { s with regs := Regs.reset, seq := .idle, datapath := .idle, disturbed := false, mem := (softReset s).mem,
               fresh := (softReset s).fresh } := by
  unfold softReset
  rw [scrambleWrites_frame]

theorem softReset_outside (s : State) {a : Nat} (h : inRunningWriteRegion s a = false) :
    readByte (softReset s) a = readByte s a := by
  unfold softReset
  rw [← scrambleWrites_outside (runningRegions s) s h]
  refine readByte_congr ?_ rfl a
  rw [scrambleWrites_frame]

theorem softReset_mem (s : State) (hw : s.mem.wf = true) (hb : s.mem.below s.params.lmemSize) :
    (softReset s).mem.wf = true ∧ (softReset s).mem.below s.params.lmemSize :=
  scrambleWrites_mem _ s hw hb

theorem softReset_idle (s : State) (h : s.seq = .idle) : (softReset s).mem = s.mem := by
  simp [softReset, runningRegions, h, scrambleWrites]

end Sys2Proof.Machine
end

