-- ==== Sys2Proof/Laws/Checks.lean ====
section
/-! SUPPORT. What the checks of each command come to: the bounds check and the overlap check of its regions, in their
order, as conditions on the registers (20_memory.md R70 to R72; 60_exceptions.md R256). -/

namespace Sys2Proof.Machine

/-- A region [b, b+l) passes the bounds check. -/
abbrev fits (size b l : Nat) : Prop := l = 0 ∨ b + l ≤ size

/-- Two regions share no byte. -/
abbrev apart (b₁ l₁ b₂ l₂ : Nat) : Prop := l₁ = 0 ∨ l₂ = 0 ∨ b₁ + l₁ ≤ b₂ ∨ b₂ + l₂ ≤ b₁

theorem overlaps_eq (g h : Region) : g.overlaps h = !decide (apart g.base g.len h.base h.len) := by
  have := Region.overlaps_false_iff g h
  by_cases ha : apart g.base g.len h.base h.len
  · rw [this.2 ha]; simp [ha]
  · simp only [ha, decide_false, Bool.not_false]
    rw [← Bool.not_eq_false]
    exact fun hf => ha (this.1 hf)

theorem inBounds_eq (size : Nat) (g : Region) : g.inBounds size = decide (fits size g.base g.len) := by
  rw [Bool.eq_iff_iff, Region.inBounds_iff, decide_eq_true_iff]

/-- Two regions, the second the write region. -/
theorem regionFault_pair (size b₁ l₁ b₂ l₂ : Nat) :
    regionFault size [{ base := b₁, len := l₁, write := false }, { base := b₂, len := l₂, write := true }] =
      if ¬(fits size b₁ l₁ ∧ fits size b₂ l₂) then some .regionBounds
      else if ¬apart b₁ l₁ b₂ l₂ then some .regionOverlap else none := by
  unfold regionFault
  simp only [List.all_cons, List.all_nil, inBounds_eq, anyOverlap, List.any_cons, List.any_nil, overlaps_eq, Bool.false_or,
    Bool.or_false, Bool.and_true, Bool.true_and]
  by_cases h1 : fits size b₁ l₁ <;> by_cases h2 : fits size b₂ l₂ <;> by_cases h3 : apart b₁ l₁ b₂ l₂ <;>
    simp [h1, h2, h3]

theorem regionFault_decompress (size : Nat) (r : Regs) :
    regionFault size (regionsOf .decompress r) =
      if ¬(fits size r.inBase.toNat r.inLen.toNat ∧ fits size r.pixBase.toNat r.npix) then some .regionBounds
      else if ¬apart r.inBase.toNat r.inLen.toNat r.pixBase.toNat r.npix then some .regionOverlap else none :=
  regionFault_pair ..

theorem regionFault_compress (size : Nat) (r : Regs) :
    regionFault size (regionsOf .compress r) =
      if ¬(fits size r.pixBase.toNat r.pixCount.toNat ∧ fits size r.outBase.toNat r.outCap.toNat) then some .regionBounds
      else if ¬apart r.pixBase.toNat r.pixCount.toNat r.outBase.toNat r.outCap.toNat then some .regionOverlap
      else none :=
  regionFault_pair ..

theorem regionFault_composite (size : Nat) (r : Regs) :
    regionFault size (regionsOf .composite r) =
      if ¬(fits size r.pixBase.toNat r.pixCount.toNat ∧ fits size r.ctBase.toNat (3 * r.ctLen.toNat) ∧
          (r.seeds = true → fits size r.n2Base.toNat r.canvasBytes) ∧
          fits size r.canvasBase.toNat r.canvasBytes) then some .regionBounds
      else if ¬(apart r.pixBase.toNat r.pixCount.toNat r.canvasBase.toNat r.canvasBytes ∧
          apart r.ctBase.toNat (3 * r.ctLen.toNat) r.canvasBase.toNat r.canvasBytes ∧
          (r.seeds = true → apart r.n2Base.toNat r.canvasBytes r.canvasBase.toNat r.canvasBytes)) then some .regionOverlap
      else none := by
  unfold regionFault
  simp only [regionsOf]
  by_cases hs : r.seeds = true
  rotate_left
  · simp only [hs, if_false, Bool.false_eq_true, List.append_nil, List.cons_append, List.nil_append, List.all_cons,
      List.all_nil, inBounds_eq, anyOverlap, List.any_cons, List.any_nil, overlaps_eq, Bool.false_or, Bool.or_false,
      Bool.and_true, Bool.true_and, Bool.false_and, false_imp_iff, true_and, and_true]
    by_cases h1 : fits size r.pixBase.toNat r.pixCount.toNat <;> by_cases h2 : fits size r.ctBase.toNat (3 * r.ctLen.toNat) <;>
      by_cases h3 : fits size r.canvasBase.toNat r.canvasBytes <;>
      by_cases h4 : apart r.pixBase.toNat r.pixCount.toNat r.canvasBase.toNat r.canvasBytes <;>
      by_cases h5 : apart r.ctBase.toNat (3 * r.ctLen.toNat) r.canvasBase.toNat r.canvasBytes <;> simp [h1, h2, h3, h4, h5]
  · simp only [hs, if_true, List.cons_append, List.nil_append, List.all_cons,
      List.all_nil, inBounds_eq, anyOverlap, List.any_cons, List.any_nil, overlaps_eq, Bool.false_or, Bool.or_false,
      Bool.and_true, Bool.true_and, Bool.false_and, true_imp_iff]
    by_cases h1 : fits size r.pixBase.toNat r.pixCount.toNat <;> by_cases h2 : fits size r.ctBase.toNat (3 * r.ctLen.toNat) <;>
      by_cases h3 : fits size r.canvasBase.toNat r.canvasBytes <;> by_cases h6 : fits size r.n2Base.toNat r.canvasBytes <;>
      by_cases h4 : apart r.pixBase.toNat r.pixCount.toNat r.canvasBase.toNat r.canvasBytes <;>
      by_cases h5 : apart r.ctBase.toNat (3 * r.ctLen.toNat) r.canvasBase.toNat r.canvasBytes <;>
      by_cases h7 : apart r.n2Base.toNat r.canvasBytes r.canvasBase.toNat r.canvasBytes <;>
      simp [h1, h2, h3, h4, h5, h6, h7]

/-- The indices COMPRESS rejects (41_compress.md R173). -/
theorem indices_ok_iff (s : State) (a n bound : Nat) :
    (readBytes s a n).any (fun b => decide (bound ≤ b.toNat)) = false ↔
      ∀ i, i < n → (readByte s (a + i)).toNat < bound := by
  simp only [List.any_eq_false, decide_eq_true_eq, not_le]
  constructor
  · intro h i hi
    exact h _ (List.mem_of_getElem? (readBytes_getElem? s a n i hi))
  · intro h b hb
    obtain ⟨i, hi⟩ := List.getElem?_of_mem hb
    have hn : i < n := by
      by_contra hc
      rw [List.getElem?_eq_none (by rw [readBytes_length]; omega)] at hi
      cases hi
    rw [readBytes_getElem? s a n i hn] at hi
    injection hi with hi
    rw [← hi]; exact h i hn

theorem compressFault_eq (s : State) :
    compressFault s =
      if ¬(2 ≤ s.regs.lzwCfg.toNat ∧ s.regs.lzwCfg.toNat ≤ 8) then some .badMinCodeSize
      else if ¬(fits s.params.lmemSize s.regs.pixBase.toNat s.regs.pixCount.toNat ∧
          fits s.params.lmemSize s.regs.outBase.toNat s.regs.outCap.toNat) then some .regionBounds
      else if ¬apart s.regs.pixBase.toNat s.regs.pixCount.toNat s.regs.outBase.toNat s.regs.outCap.toNat then
        some .regionOverlap
      else if ¬(∀ i, i < s.regs.pixCount.toNat →
          (readByte s (s.regs.pixBase.toNat + i)).toNat < 2 ^ s.regs.lzwCfg.toNat) then some .pixelIndexRange
      else none := by
  unfold compressFault compressInput Config.minCodeSizeLo Config.minCodeSizeHi
  rw [regionFault_compress]
  have hi := indices_ok_iff s s.regs.pixBase.toNat s.regs.pixCount.toNat (2 ^ s.regs.lzwCfg.toNat)
  have hc : ∀ o : Option FaultCause, (if (readBytes s s.regs.pixBase.toNat s.regs.pixCount.toNat).any
        (fun b => decide (2 ^ s.regs.lzwCfg.toNat ≤ b.toNat)) = true then o else none) =
      if ¬(∀ i, i < s.regs.pixCount.toNat →
          (readByte s (s.regs.pixBase.toNat + i)).toNat < 2 ^ s.regs.lzwCfg.toNat) then o else none := by
    intro o
    split_ifs with h1 h2 h2
    · rw [hi.2 h2] at h1; exact absurd h1 (by decide)
    · rfl
    · rfl
    · exact absurd (hi.1 (by rw [← Bool.not_eq_true]; exact h1)) h2
  by_cases h1 : 2 ≤ s.regs.lzwCfg.toNat ∧ s.regs.lzwCfg.toNat ≤ 8
  · rw [if_neg (by omega), if_neg (not_not.2 h1)]
    rw [hc]
    by_cases h2 : fits s.params.lmemSize s.regs.pixBase.toNat s.regs.pixCount.toNat ∧
      fits s.params.lmemSize s.regs.outBase.toNat s.regs.outCap.toNat
    · rw [if_neg (not_not.2 h2), if_neg (not_not.2 h2)]
      by_cases h3 : apart s.regs.pixBase.toNat s.regs.pixCount.toNat s.regs.outBase.toNat s.regs.outCap.toNat
      · rw [if_neg (not_not.2 h3), if_neg (not_not.2 h3)]
      · rw [if_pos h3, if_pos h3]
    · rw [if_pos h2, if_pos h2]
  · rw [if_pos (by omega), if_pos h1]

end Sys2Proof.Machine
end

