-- ==== Sys2Proof/Laws/Decoder.lean ====
section
/-! SUPPORT. The decompressor's run: what one element can do, what the framing pass and the code loop keep, that every run
ends, and where. -/

namespace Sys2Proof.Machine

/-! ### Runs -/

theorem Decoder.run_zero (d : Decoder) : Decoder.run 0 d = (d, 0#8) := rfl

theorem Decoder.run_of_finished {d : Decoder} (h : d.finished = true) (fuel : Nat) : Decoder.run fuel d = (d, 0#8) := by
  cases fuel with
  | zero => rfl
  | succ n => rw [Decoder.run, if_pos h]

theorem Decoder.run_succ {d : Decoder} (h : d.finished = false) (fuel : Nat) :
    Decoder.run (fuel + 1) d =
      ((Decoder.run fuel d.advance.1).1, d.advance.2 ||| (Decoder.run fuel d.advance.1).2) := by
  rw [Decoder.run, if_neg (by simp [h])]

/-- More fuel than a finished run had changes nothing. -/
theorem Decoder.run_add {fuel : Nat} {d : Decoder} (h : (Decoder.run fuel d).1.finished = true) (extra : Nat) :
    Decoder.run (fuel + extra) d = Decoder.run fuel d := by
  induction fuel generalizing d with
  | zero =>
    have h : d.finished = true := h
    rw [Decoder.run_of_finished h, Decoder.run_of_finished h]
  | succ n ih =>
    cases hf : d.finished with
    | true => rw [Decoder.run_of_finished hf, Decoder.run_of_finished hf]
    | false =>
      rw [Decoder.run_succ hf] at h
      rw [show n + 1 + extra = (n + extra) + 1 by omega, Decoder.run_succ hf, Decoder.run_succ hf, ih h]

/-- A property every unfinished element keeps holds at the end of the run. -/
theorem Decoder.run_keeps (P : Decoder → Prop) (hstep : ∀ d, d.finished = false → P d → P d.advance.1)
    (fuel : Nat) (d : Decoder) (h : P d) : P (Decoder.run fuel d).1 := by
  induction fuel generalizing d with
  | zero => exact h
  | succ n ih =>
    cases hf : d.finished with
    | true => rwa [Decoder.run_of_finished hf]
    | false => rw [Decoder.run_succ hf]; exact ih _ (hstep d hf h)

/-- A set of error bits no unfinished element sets is not set by the run, while a property holds. -/
theorem Decoder.run_bits (P : Decoder → Prop) (mask : ErrBits)
    (hstep : ∀ d, d.finished = false → P d → P d.advance.1 ∧ d.advance.2 &&& mask = 0#8)
    (fuel : Nat) (d : Decoder) (h : P d) : (Decoder.run fuel d).2 &&& mask = 0#8 := by
  induction fuel generalizing d with
  | zero => exact BitVec.zero_and
  | succ n ih =>
    cases hf : d.finished with
    | true => rw [Decoder.run_of_finished hf]; exact BitVec.zero_and
    | false =>
      have hs := hstep d hf h
      rw [Decoder.run_succ hf]
      have := ih _ hs.1
      have hd : ∀ a b : ErrBits, (a ||| b) &&& mask = (a &&& mask) ||| (b &&& mask) := by
        intro a b; ext i; simp [Bool.and_or_distrib_right]
      rw [hd, hs.2, this]
      rfl

/-! ### Codes -/

/-- What the codec of the decompressor holds: m is an accepted size, the width is m+1 to 12, and at most 4096 codes are
assigned (10_state.md R55). -/
def Codec.ok (k : Codec) : Prop :=
  2 ≤ k.m ∧ k.m ≤ 8 ∧ k.m + 1 ≤ k.width ∧ k.width ≤ 12 ∧ k.nxt ≤ 4096

theorem Codec.firstCode_le_nxt (k : Codec) : firstCode k.m ≤ k.nxt := Nat.le_add_right ..

theorem firstCode_le {m : Nat} (h : m ≤ 8) : firstCode m ≤ 258 := by
  have : 2 ^ m ≤ 2 ^ 8 := Nat.pow_le_pow_right (by decide) h
  simp only [firstCode]; omega

theorem Codec.start_ok {m : Nat} (h : 2 ≤ m ∧ m ≤ 8) : (Codec.start m).ok := by
  have h1 := firstCode_le h.2
  refine ⟨h.1, h.2, Nat.le_refl _, ?_, ?_⟩
  · simp only [Codec.start, initWidth]; omega
  · simp only [Codec.start, Codec.nxt, List.length_nil]; omega

@[simp] theorem Codec.addEntry_m (x : List Byte) (k : Codec) : (k.addEntry x).m = k.m := by
  unfold Codec.addEntry; split <;> rfl

@[simp] theorem Codec.addEntry_prev (x : List Byte) (k : Codec) : (k.addEntry x).prev = k.prev := by
  unfold Codec.addEntry; split <;> rfl

theorem Codec.addEntry_nxt (x : List Byte) (k : Codec) :
    (k.addEntry x).nxt = if k.nxt < 4096 then k.nxt + 1 else k.nxt := by
  unfold Codec.addEntry Config.dictSize
  split
  · simp only [Codec.nxt, List.length_append, List.length_cons, List.length_nil]; omega
  · rfl

theorem Codec.addEntry_width (x : List Byte) (k : Codec) :
    (k.addEntry x).width =
      if k.nxt < 4096 then (if k.nxt = 2 ^ k.width - 1 ∧ k.width < 12 then k.width + 1 else k.width) else k.width := by
  unfold Codec.addEntry Config.dictSize Config.maxCodeWidth
  split <;> rfl

theorem Codec.addEntry_ok (x : List Byte) {k : Codec} (h : k.ok) : (k.addEntry x).ok := by
  obtain ⟨h1, h2, h3, h4, h5⟩ := h
  refine ⟨?_, ?_, ?_, ?_, ?_⟩
  · simpa using h1
  · simpa using h2
  · rw [Codec.addEntry_m, Codec.addEntry_width]; split_ifs <;> omega
  · rw [Codec.addEntry_width]; split_ifs <;> omega
  · rw [Codec.addEntry_nxt]; split_ifs <;> omega

theorem Codec.withPrev_ok {k : Codec} (p : Option Nat) (h : k.ok) : Codec.ok { k with prev := p } := h

/-- Everything a code can do (40_decompress.md R136 to R142): it emits a string with a codec of the same m that gained at
most one entry; or it is Clear; or it stops decoding with one bit. -/
theorem codeEffect_cases {d : Decoder} {k : Codec} (hk : d.codec = some k) (c : Nat) :
    (∃ k' x, elementEffect (k.classify c) d = (d.withCodec k').emit x ∧ k'.m = k.m ∧ (k.ok → k'.ok)) ∨
    elementEffect (k.classify c) d = (d.withCodec (Codec.start k.m), 0#8) ∨
    (∃ b, elementEffect (k.classify c) d = ({ d with stopped := true }, b) ∧
      (b = errBadCode ∨ b = errIf (decide (d.out.length < d.npix)) errTooFewPixels)) := by
  have hon : ∀ f, onCodec f d = f k d := fun f => by simp [onCodec, hk]
  unfold Codec.classify classify
  split
  · exact .inr (.inl (hon clearEffect))
  · split
    · exact .inr (.inr ⟨_, hon eoiEffect, .inr rfl⟩)
    · split
      · split
        · exact .inl ⟨_, _, hon (literalFirstEffect c), rfl, fun h => h⟩
        · exact .inl ⟨_, _, hon (literalEffect c), by simp,
            fun h => Codec.withPrev_ok _ (Codec.addEntry_ok _ h)⟩
      · split
        · exact .inl ⟨_, _, hon (dictEffect c), by simp,
            fun h => Codec.withPrev_ok _ (Codec.addEntry_ok _ h)⟩
        · split
          · exact .inl ⟨_, _, hon (kwkwkEffect c), by simp,
              fun h => Codec.withPrev_ok _ (Codec.addEntry_ok _ h)⟩
          · exact .inr (.inr ⟨_, hon (badcodeEffect c), .inl rfl⟩)

/-! ### One element -/

theorem Decoder.finished_framed {d : Decoder} (h : d.framed = false) : d.finished = false := by simp [Decoder.finished, h]

theorem Decoder.unfinished {d : Decoder} (h : d.finished = false) (hf : d.framed = true) :
    (∃ k, d.codec = some k) ∧ d.stopped = false ∧ d.out.length < d.npix := by
  simp only [Decoder.finished, hf, Bool.true_and, Bool.or_eq_false_iff, decide_eq_false_iff_not, not_le,
    Option.isNone_eq_false_iff, Option.isSome_iff_exists] at h
  exact ⟨h.1.1, h.1.2, h.2⟩

theorem Decoder.advance_empty {d : Decoder} (hf : d.framed = false) (hr : d.rest = []) :
    d.advance = ({ d with framed := true },
      errInputTruncated ||| errIf (d.minCode.isNone && decide (0 < d.npix)) errEndOfStream) := by
  simp [Decoder.advance, Decoder.fetch, hf, Decoder.fetchElement, hr, decodeElement]

theorem Decoder.advance_first {d : Decoder} (hf : d.framed = false) (hm : d.minCode = none) {b : Byte} {r : List Byte}
    (hr : d.rest = b :: r) :
    d.advance = minCodeSizeEffect b { d with rest := r, inPos := d.inPos + 1 } := by
  simp [Decoder.advance, Decoder.fetch, hf, Decoder.fetchElement, hr, decodeElement, hm, elementEffect]

theorem Decoder.advance_terminator {d : Decoder} (hf : d.framed = false) {m : Byte} (hm : d.minCode = some m)
    {r : List Byte} (hr : d.rest = 0#8 :: r) :
    d.advance = ({ d with rest := r, inPos := d.inPos + 1, framed := true }, 0#8) := by
  simp [Decoder.advance, Decoder.fetch, hf, Decoder.fetchElement, hr, decodeElement, hm, elementEffect, terminatorEffect]

theorem Decoder.advance_block {d : Decoder} (hf : d.framed = false) {m : Byte} (hm : d.minCode = some m) {n : Byte}
    {r : List Byte} (hn : n ≠ 0#8) (hr : d.rest = n :: r) :
    d.advance =
      ({ d with
          rest := r.drop n.toNat, inPos := d.inPos + (1 + (r.take n.toNat).length), data := d.data ++ r.take n.toNat,
          blocks := d.blocks + 1, framed := decide (r.length < n.toNat) },
        errIf (decide (r.length < n.toNat)) errInputTruncated) := by
  have hl : (r.take n.toNat).length < n.toNat ↔ r.length < n.toNat := by rw [List.length_take]; omega
  have e : d.inPos + (r.length + 1 - (r.length - n.toNat)) = d.inPos + (1 + (r.take n.toNat).length) := by
    rw [List.length_take]; omega
  simp only [Decoder.advance, Decoder.fetch, hf, if_true, Decoder.fetchElement, hr, decodeElement, hm,
    Option.isNone_some, Bool.false_eq_true, if_false, hn, elementEffect, dataBlockEffect, List.length_cons,
    List.length_drop, e, hl]

theorem Decoder.advance_end {d : Decoder} (hf : d.framed = true) {k : Codec} (hk : d.codec = some k)
    (hb : 8 * d.data.length < d.bitPos + k.width) :
    d.advance = ({ d with stopped := true }, errEndOfStream) := by
  simp [Decoder.advance, Decoder.fetch, hf, hk, Decoder.fetchCode, hb]

/-- The decompressor with its bit cursor and code count past a code of width w (40_decompress.md R134). -/
def Decoder.past (w : Nat) (d : Decoder) : Decoder := { d with bitPos := d.bitPos + w, codes := d.codes + 1 }

theorem Decoder.advance_code {d : Decoder} (hf : d.framed = true) {k : Codec} (hk : d.codec = some k)
    (hb : d.bitPos + k.width ≤ 8 * d.data.length) :
    d.advance = elementEffect (k.classify (codeAt d.data d.bitPos k.width)) (d.past k.width) := by
  have : ¬8 * d.data.length < d.bitPos + k.width := by omega
  simp [Decoder.advance, Decoder.fetch, hf, hk, Decoder.fetchCode, this, Decoder.past]

/-- Everything an element of the code loop can do. -/
theorem Decoder.advance_framed {d : Decoder} (hu : d.finished = false) (hf : d.framed = true) :
    ∃ k, d.codec = some k ∧ d.out.length < d.npix ∧ d.stopped = false ∧
      ((8 * d.data.length < d.bitPos + k.width ∧ d.advance = ({ d with stopped := true }, errEndOfStream)) ∨
       (d.bitPos + k.width ≤ 8 * d.data.length ∧
        ((∃ k' x, d.advance = ((d.past k.width).withCodec k').emit x ∧ k'.m = k.m ∧ (k.ok → k'.ok)) ∨
         d.advance = ((d.past k.width).withCodec (Codec.start k.m), 0#8) ∨
         (∃ b, d.advance = ({ d.past k.width with stopped := true }, b) ∧
          (b = errBadCode ∨ b = errTooFewPixels))))) := by
  obtain ⟨⟨k, hk⟩, hs, ho⟩ := Decoder.unfinished hu hf
  refine ⟨k, hk, ho, hs, ?_⟩
  by_cases hb : 8 * d.data.length < d.bitPos + k.width
  · exact .inl ⟨hb, Decoder.advance_end hf hk hb⟩
  · have hb : d.bitPos + k.width ≤ 8 * d.data.length := by omega
    refine .inr ⟨hb, ?_⟩
    rw [Decoder.advance_code hf hk hb]
    rcases codeEffect_cases (d := d.past k.width) (k := k) hk (codeAt d.data d.bitPos k.width) with h | h | ⟨b, h, h'⟩
    · exact .inl h
    · exact .inr (.inl h)
    · refine .inr (.inr ⟨b, h, ?_⟩)
      have : (d.past k.width).out.length < (d.past k.width).npix := ho
      simpa [errIf, this] using h'

/-! ### What every element keeps -/

/-- The decompressor is one a run can reach: the decoded indices keep to the count; a running codec is in range, has the m
that was read, and runs only after the first byte. -/
structure Decoder.Good (d : Decoder) : Prop where
  count : d.out.length ≤ d.npix
  codec : ∀ k, d.codec = some k → k.ok ∧ d.minCode = some (BitVec.ofNat 8 k.m)
  early : d.framed = false → d.out = [] ∧ d.codes = 0 ∧ d.bitPos = 0 ∧ d.stopped = false ∧
    ∀ k, d.codec = some k → k = Codec.start k.m

theorem Decoder.good_start (npix : Nat) (input : List Byte) : (Decoder.start npix input).Good :=
  ⟨Nat.zero_le _, by simp [Decoder.start], by simp [Decoder.start]⟩

theorem emit_out_length (x : List Byte) (d : Decoder) (h : d.out.length ≤ d.npix) :
    (d.emit x).1.out.length ≤ d.npix := by
  simp only [Decoder.emit, Decoder.room, List.length_append, List.length_take]; omega

theorem acceptsM_iff (m : Nat) : acceptsM m = true ↔ 2 ≤ m ∧ m ≤ 8 := by
  unfold acceptsM Config.minCodeSizeLo Config.minCodeSizeHi
  exact decide_eq_true_iff

theorem Decoder.good_advance {d : Decoder} (hu : d.finished = false) (h : d.Good) : d.advance.1.Good := by
  cases hf : d.framed with
  | true =>
    obtain ⟨k, hk, ho, hs, hc⟩ := Decoder.advance_framed hu hf
    have hok := h.codec k hk
    rcases hc with ⟨-, e⟩ | ⟨hb, ⟨k', x, e, hm, ho'⟩ | e | ⟨b, e, -⟩⟩
    · rw [e]; exact ⟨h.count, h.codec, by simp [hf]⟩
    · rw [e]
      refine ⟨emit_out_length x _ h.count, ?_, by simp [Decoder.emit, Decoder.withCodec, Decoder.past, hf]⟩
      intro k'' hk''
      obtain rfl : k' = k'' := by simpa [Decoder.emit, Decoder.withCodec] using hk''
      exact ⟨ho' hok.1, by rw [hm]; exact hok.2⟩
    · rw [e]
      refine ⟨h.count, ?_, by simp [Decoder.withCodec, Decoder.past, hf]⟩
      intro k'' hk''
      obtain rfl : Codec.start k.m = k'' := by simpa [Decoder.withCodec] using hk''
      exact ⟨Codec.start_ok ⟨hok.1.1, hok.1.2.1⟩, hok.2⟩
    · rw [e]; exact ⟨h.count, h.codec, by simp [Decoder.past, hf]⟩
  | false =>
    obtain ⟨e1, e2, e3, e4, e5⟩ := h.early hf
    cases hr : d.rest with
    | nil => rw [Decoder.advance_empty hf hr]; exact ⟨h.count, h.codec, by simp⟩
    | cons b r =>
      cases hm : d.minCode with
      | none =>
        rw [Decoder.advance_first hf hm hr]
        unfold minCodeSizeEffect
        split
        · next ha =>
          have hacc := (acceptsM_iff _).1 ha
          refine ⟨h.count, ?_, ?_⟩
          · intro k hk
            obtain rfl : Codec.start b.toNat = k := by simpa using hk
            exact ⟨Codec.start_ok hacc, by simp [Codec.start]⟩
          · intro _
            refine ⟨e1, e2, e3, e4, ?_⟩
            intro k hk
            obtain rfl : Codec.start b.toNat = k := by simpa using hk
            rfl
        · exact ⟨h.count, by simp, fun _ => ⟨e1, e2, e3, e4, by simp⟩⟩
      | some m =>
        by_cases hb : b = 0#8
        · subst hb
          rw [Decoder.advance_terminator hf hm hr]
          exact ⟨h.count, h.codec, by simp⟩
        · rw [Decoder.advance_block hf hm hb hr]
          exact ⟨h.count, h.codec, fun _ => ⟨e1, e2, e3, e4, e5⟩⟩

theorem Decoder.good_run (fuel : Nat) {d : Decoder} (h : d.Good) : (Decoder.run fuel d).1.Good :=
  Decoder.run_keeps Decoder.Good (fun _ hu h => Decoder.good_advance hu h) fuel d h

theorem Decoder.npix_advance {d : Decoder} (hu : d.finished = false) : d.advance.1.npix = d.npix := by
  cases hf : d.framed with
  | true =>
    obtain ⟨k, -, -, -, ⟨-, e⟩ | ⟨-, ⟨k', x, e, -, -⟩ | e | ⟨b, e, -⟩⟩⟩ := Decoder.advance_framed hu hf <;> rw [e] <;> rfl
  | false =>
    cases hr : d.rest with
    | nil => rw [Decoder.advance_empty hf hr]
    | cons b r =>
      cases hm : d.minCode with
      | none => rw [Decoder.advance_first hf hm hr]; unfold minCodeSizeEffect; split <;> rfl
      | some m =>
        by_cases hb : b = 0#8
        · subst hb; rw [Decoder.advance_terminator hf hm hr]
        · rw [Decoder.advance_block hf hm hb hr]

theorem Decoder.npix_run (fuel : Nat) (d : Decoder) : (Decoder.run fuel d).1.npix = d.npix :=
  Decoder.run_keeps (fun d' => d'.npix = d.npix) (fun _ hu h => (Decoder.npix_advance hu).trans h) fuel d rfl

/-! ### The code loop keeps the framing -/

/-- The part of the decompressor the framing pass makes. -/
def Decoder.framing (d : Decoder) : List Byte × Nat × Option Byte × List Byte × Nat × Bool :=
  (d.rest, d.inPos, d.minCode, d.data, d.blocks, d.framed)

theorem Decoder.framing_advance {d : Decoder} (hu : d.finished = false) (hf : d.framed = true) :
    d.advance.1.framing = d.framing ∧ d.advance.2 &&& 0xE2#8 = 0#8 ∧
      ∀ k, d.codec = some k → ∃ k', d.advance.1.codec = some k' ∧ k'.m = k.m := by
  obtain ⟨k, hk, ho, -, ⟨-, e⟩ | ⟨-, ⟨k', x, e, hm, -⟩ | e | ⟨b, e, hb⟩⟩⟩ := Decoder.advance_framed hu hf
  · rw [e]; exact ⟨rfl, show errEndOfStream &&& 0xE2#8 = 0#8 by decide, fun k hk => ⟨k, hk, rfl⟩⟩
  · rw [e]
    refine ⟨rfl, ?_, fun k'' hk'' => ⟨k', rfl, by rw [hm]; rw [hk] at hk''; injection hk'' with h; rw [h]⟩⟩
    simp only [Decoder.emit, errIf]
    split <;> decide
  · rw [e]
    exact ⟨rfl, show 0#8 &&& 0xE2#8 = 0#8 by decide, fun k'' hk'' => ⟨_, rfl, by rw [hk] at hk''; injection hk'' with h; rw [← h]; rfl⟩⟩
  · rw [e]
    refine ⟨rfl, ?_, fun k hk => ⟨k, hk, rfl⟩⟩
    show b &&& 0xE2#8 = 0#8
    rcases hb with rfl | rfl <;> decide

theorem Decoder.framed_of_framing {d d' : Decoder} (h : d'.framing = d.framing) : d'.framed = d.framed :=
  congrArg (fun x => x.2.2.2.2.2) h

theorem Decoder.framing_run (fuel : Nat) {d : Decoder} (hf : d.framed = true) :
    (Decoder.run fuel d).1.framing = d.framing ∧ (Decoder.run fuel d).2 &&& 0xE2#8 = 0#8 := by
  constructor
  · refine Decoder.run_keeps (fun d' => d'.framing = d.framing) ?_ fuel d rfl
    intro d' hu h
    have hf' : d'.framed = true := (Decoder.framed_of_framing h).trans hf
    exact (Decoder.framing_advance hu hf').1.trans h
  · refine Decoder.run_bits (fun d' => d'.framed = true) _ ?_ fuel d hf
    intro d' hu h
    have := Decoder.framing_advance hu h
    exact ⟨(Decoder.framed_of_framing this.1).trans h, this.2.1⟩

/-! ### Every run ends -/

/-- A bound on the elements still to come: framing elements take a byte each, codes a bit each. -/
def Decoder.left (d : Decoder) : Nat :=
  if d.framed = false then 9 * d.rest.length + 8 * d.data.length + 3
  else if d.finished then 0
  else 8 * d.data.length + 1 - d.bitPos

theorem Decoder.left_zero {d : Decoder} (hb : d.bitPos ≤ 8 * d.data.length) (h : d.left = 0) : d.finished = true := by
  unfold Decoder.left at h
  split at h
  · omega
  · split at h
    · assumption
    · omega

/-- The bit cursor stays inside the data. -/
def Decoder.Inside (d : Decoder) : Prop := d.bitPos ≤ 8 * d.data.length

theorem Decoder.left_framed {d : Decoder} (h : d.framed = true) : d.left ≤ 8 * d.data.length + 1 - d.bitPos := by
  unfold Decoder.left
  simp only [h, Bool.true_eq_false, if_false]
  split <;> omega

theorem Decoder.left_finished {d : Decoder} (h : d.finished = true) : d.left = 0 := by
  have hf : d.framed = true := by
    cases hf : d.framed with
    | true => rfl
    | false => rw [Decoder.finished_framed hf] at h; exact absurd h (by decide)
  simp [Decoder.left, hf, h]

theorem Decoder.left_advance {d : Decoder} (hu : d.finished = false) (h : d.Good) (hi : d.Inside) :
    d.advance.1.left < d.left ∧ d.advance.1.Inside := by
  cases hf : d.framed with
  | true =>
    have hl : d.left = 8 * d.data.length + 1 - d.bitPos := by simp [Decoder.left, hf, hu]
    unfold Decoder.Inside at hi
    obtain ⟨k, hk, ho, -, ⟨-, e⟩ | ⟨hb, hc⟩⟩ := Decoder.advance_framed hu hf
    · rw [e, hl]
      exact ⟨by rw [Decoder.left_finished (by simp [Decoder.finished, hf])]; omega, hi⟩
    · obtain ⟨-, -, hw, -⟩ := (h.codec k hk).1
      have key : ∀ d' : Decoder, d'.framed = true → d'.data = d.data → d'.bitPos = d.bitPos + k.width →
          d'.left < d.left ∧ d'.Inside := by
        intro d' h1 h2 h3
        have := Decoder.left_framed h1
        rw [h2, h3] at this
        rw [hl]
        refine ⟨by omega, ?_⟩
        unfold Decoder.Inside
        rw [h2, h3]; exact hb
      rcases hc with ⟨k', x, e, -, -⟩ | e | ⟨b, e, -⟩ <;> rw [e] <;> exact key _ hf rfl rfl
  | false =>
    have hl : d.left = 9 * d.rest.length + 8 * d.data.length + 3 := by simp [Decoder.left, hf]
    obtain ⟨-, -, e3, -, -⟩ := h.early hf
    have key : ∀ d' : Decoder, d'.bitPos = d.bitPos →
        9 * d'.rest.length + 8 * d'.data.length + 3 < d.left ∨ (d'.framed = true ∧ 8 * d'.data.length + 1 < d.left) →
        d'.left < d.left ∧ d'.Inside := by
      intro d' h1 h2
      refine ⟨?_, by unfold Decoder.Inside; omega⟩
      rcases h2 with h2 | ⟨h2, h3⟩
      · unfold Decoder.left
        split
        · omega
        · split <;> omega
      · have := Decoder.left_framed h2
        omega
    cases hr : d.rest with
    | nil =>
      rw [Decoder.advance_empty hf hr]
      exact key _ rfl (.inr ⟨rfl, by rw [hl]; simp only; omega⟩)
    | cons b r =>
      rw [hr, List.length_cons] at hl
      cases hm : d.minCode with
      | none =>
        rw [Decoder.advance_first hf hm hr]
        unfold minCodeSizeEffect
        split <;> exact key _ rfl (.inl (by rw [hl]; simp only; omega))
      | some m =>
        by_cases hb : b = 0#8
        · subst hb
          rw [Decoder.advance_terminator hf hm hr]
          exact key _ rfl (.inl (by rw [hl]; simp only; omega))
        · rw [Decoder.advance_block hf hm hb hr]
          refine key _ rfl (.inl ?_)
          rw [hl]
          simp only [List.length_append, List.length_take, List.length_drop]
          omega

/-- With that much fuel a run reaches the end of the command. -/
theorem Decoder.run_finished (fuel : Nat) {d : Decoder} (h : d.Good) (hi : d.Inside) (hl : d.left ≤ fuel) :
    (Decoder.run fuel d).1.finished = true := by
  induction fuel generalizing d with
  | zero => exact Decoder.left_zero (d := d) hi (by omega)
  | succ n ih =>
    cases hu : d.finished with
    | true => rw [Decoder.run_of_finished hu]; exact hu
    | false =>
      obtain ⟨h1, h2⟩ := Decoder.left_advance hu h hi
      rw [Decoder.run_succ hu]
      exact ih (Decoder.good_advance hu h) h2 (by omega)

theorem decodeStream_good (npix : Nat) (input : List Byte) : (decodeStream npix input).1.Good :=
  Decoder.good_run _ (Decoder.good_start npix input)

/-- Every DECOMPRESS reaches its end (40_decompress.md R135, R152). -/
theorem decodeStream_finished (npix : Nat) (input : List Byte) : (decodeStream npix input).1.finished = true := by
  refine Decoder.run_finished _ (Decoder.good_start npix input) (Nat.zero_le _) ?_
  simp [Decoder.left, Decoder.start, decodeFuel]

theorem decodeStream_npix (npix : Nat) (input : List Byte) : (decodeStream npix input).1.npix = npix :=
  Decoder.npix_run _ _

/-- npix pixels are written (40_decompress.md R145, R146). -/
theorem Decoder.pixels_length {d : Decoder} (h : d.out.length ≤ d.npix) : d.pixels.length = d.npix := by
  simp only [Decoder.pixels, List.length_append, List.length_replicate]; omega

/-! ### What the first byte settles -/

/-- After the first byte its value and whether a codec runs are settled; without a codec nothing is decoded, and with no
pixels expected no code is read. -/
theorem Decoder.first_advance {d : Decoder} (hu : d.finished = false) {m : Byte} (hm : d.minCode = some m) :
    d.advance.1.minCode = some m ∧ d.advance.1.codec.isSome = d.codec.isSome ∧ (d.codec = none → d.advance.1.out = d.out) ∧
     (d.npix = 0 → d.advance.1.codec = d.codec ∧ d.advance.1.codes = d.codes) := by
  cases hf : d.framed with
  | true =>
    obtain ⟨k, hk, ho, hs, hc⟩ := Decoder.advance_framed hu hf
    have hn : d.npix ≠ 0 := by omega
    rcases hc with ⟨-, e⟩ | ⟨hb, ⟨k', x, e, hm', ho'⟩ | e | ⟨b, e, -⟩⟩ <;> rw [e] <;>
      simp [hm, hk, hn, Decoder.emit, Decoder.past, Decoder.withCodec]
  | false =>
    cases hr : d.rest with
    | nil => rw [Decoder.advance_empty hf hr]; simp [hm]
    | cons b r =>
      by_cases hb : b = 0#8
      · subst hb; rw [Decoder.advance_terminator hf hm hr]; simp [hm]
      · rw [Decoder.advance_block hf hm hb hr]; simp [hm]

theorem Decoder.first_run (fuel : Nat) {d : Decoder} {m : Byte} (hm : d.minCode = some m) :
    (Decoder.run fuel d).1.minCode = some m ∧ (Decoder.run fuel d).1.codec.isSome = d.codec.isSome ∧ (d.codec = none → (Decoder.run fuel d).1.out = d.out) ∧
     (d.npix = 0 → (Decoder.run fuel d).1.codec = d.codec ∧ (Decoder.run fuel d).1.codes = d.codes) := by
  refine (Decoder.run_keeps (fun d' => (d'.npix = d.npix) ∧ d'.minCode = some m ∧ d'.codec.isSome = d.codec.isSome ∧ (d.codec = none → d'.out = d.out) ∧
     (d.npix = 0 → d'.codec = d.codec ∧ d'.codes = d.codes)) ?_ fuel d ⟨rfl, hm, rfl, fun _ => rfl, fun _ => ⟨rfl, rfl⟩⟩).2
  intro d' hu ⟨h1, h2, h3, h4, h5⟩
  obtain ⟨g1, g2, g3, g4⟩ := Decoder.first_advance hu h2
  refine ⟨(Decoder.npix_advance hu).trans h1, g1, g2.trans h3, ?_, ?_⟩
  · intro hn
    rw [g3, h4 hn]
    rw [hn] at h3; simpa using h3
  · intro h0
    have := g4 (h1.trans h0); have := h5 h0; simp_all

end Sys2Proof.Machine
end

