-- ==== Sys2Proof/Laws/Framing.lean ====
section
/-! SUPPORT. The framing pass over whole sub-blocks (40_decompress.md R132): where it stands after them, after the
terminator, and where the input ends early. -/

namespace Sys2Proof.Machine

/-- The bytes of sub-blocks, each its size byte and its data (30_encoding.md R94). -/
def blockBytes (blocks : List (List Byte)) : List Byte := blocks.flatMap (fun b => BitVec.ofNat 8 b.length :: b)

theorem blockBytes_cons (b : List Byte) (bs : List (List Byte)) :
    blockBytes (b :: bs) = BitVec.ofNat 8 b.length :: (b ++ blockBytes bs) := rfl

theorem size_byte {b : List Byte} (h : 1 ≤ b.length ∧ b.length ≤ 255) :
    BitVec.ofNat 8 b.length ≠ 0#8 ∧ (BitVec.ofNat 8 b.length).toNat = b.length := by
  have e : (BitVec.ofNat 8 b.length).toNat = b.length := by rw [BitVec.toNat_ofNat]; omega
  refine ⟨fun h0 => ?_, e⟩
  rw [h0] at e
  simp at e
  omega

/-- The decompressor after whole sub-blocks, with `tail` still to parse. -/
def Decoder.afterBlocks (blocks : List (List Byte)) (tail : List Byte) (d : Decoder) : Decoder :=
  { d with
    rest := tail, inPos := d.inPos + (blockBytes blocks).length, data := d.data ++ blocks.flatten,
    blocks := d.blocks + blocks.length }

theorem Decoder.run_blocks (fuel : Nat) (blocks : List (List Byte)) (tail : List Byte)
    (hb : ∀ b ∈ blocks, 1 ≤ b.length ∧ b.length ≤ 255) {d : Decoder} (hf : d.framed = false) {m : Byte}
    (hm : d.minCode = some m) (hr : d.rest = blockBytes blocks ++ tail) :
    Decoder.run (blocks.length + fuel) d = Decoder.run fuel (d.afterBlocks blocks tail) := by
  induction blocks generalizing d with
  | nil =>
    have : d.afterBlocks [] tail = d := by
      have h : d.rest = tail := hr
      subst h
      simp [Decoder.afterBlocks, blockBytes]
    rw [this]; simp
  | cons b bs ih =>
    have hs := size_byte (hb b (List.mem_cons_self ..))
    rw [blockBytes_cons, List.cons_append, List.append_assoc] at hr
    rw [show (b :: bs).length + fuel = (bs.length + fuel) + 1 by simp only [List.length_cons]; omega,
      Decoder.run_succ (Decoder.finished_framed hf), Decoder.advance_block hf hm hs.1 hr, hs.2]
    have hshort : ¬(b ++ (blockBytes bs ++ tail)).length < b.length := by simp
    have ht : (b ++ (blockBytes bs ++ tail)).take b.length = b := by simp
    have hd : (b ++ (blockBytes bs ++ tail)).drop b.length = blockBytes bs ++ tail := by simp
    rw [ht, hd]
    simp only [hshort, decide_false, errIf, Bool.false_eq_true, if_false]
    rw [ih (fun x hx => hb x (List.mem_cons_of_mem _ hx))
      (d := { d with rest := blockBytes bs ++ tail, inPos := d.inPos + (1 + b.length), data := d.data ++ b,
                     blocks := d.blocks + 1, framed := false }) rfl hm rfl]
    have he : (Decoder.afterBlocks bs tail
        { d with rest := blockBytes bs ++ tail, inPos := d.inPos + (1 + b.length), data := d.data ++ b,
                 blocks := d.blocks + 1, framed := false }) = d.afterBlocks (b :: bs) tail := by
      simp only [Decoder.afterBlocks, blockBytes_cons, List.flatten_cons, List.append_assoc, List.length_cons,
        List.length_append, hf]
      congr 1 <;> omega
    rw [he]
    simp

/-- The decompressor once the first byte is read, the rest still to parse. -/
def Decoder.afterFirst (npix : Nat) (m : Byte) (rest : List Byte) : Decoder :=
  (minCodeSizeEffect m { Decoder.start npix (m :: rest) with rest := rest, inPos := 1 }).1

/-- The bit the first byte sets (40_decompress.md R133). -/
def firstByteErr (m : Byte) : ErrBits := errIf (!acceptsM m.toNat) errBadMinCodeSize

theorem Decoder.afterFirst_fields (npix : Nat) (m : Byte) (rest : List Byte) :
    (Decoder.afterFirst npix m rest).framed = false ∧ (Decoder.afterFirst npix m rest).minCode = some m ∧
    (Decoder.afterFirst npix m rest).rest = rest ∧ (Decoder.afterFirst npix m rest).inPos = 1 ∧
    (Decoder.afterFirst npix m rest).data = [] ∧ (Decoder.afterFirst npix m rest).blocks = 0 ∧
    (Decoder.afterFirst npix m rest).codec = (if acceptsM m.toNat then some (Codec.start m.toNat) else none) := by
  unfold Decoder.afterFirst minCodeSizeEffect
  split <;> simp_all [Decoder.start]

theorem decodeStream_cons (npix : Nat) (m : Byte) (rest : List Byte) :
    decodeStream npix (m :: rest) =
      ((Decoder.run (9 * rest.length + 11) (Decoder.afterFirst npix m rest)).1,
        firstByteErr m ||| (Decoder.run (9 * rest.length + 11) (Decoder.afterFirst npix m rest)).2) := by
  unfold decodeStream
  rw [show decodeFuel (m :: rest).length = (9 * rest.length + 11) + 1 by
    simp only [decodeFuel, List.length_cons]; omega]
  rw [Decoder.run_succ rfl, Decoder.advance_first rfl rfl rfl]
  have : (minCodeSizeEffect m { Decoder.start npix (m :: rest) with rest := rest, inPos := 1 }).2 = firstByteErr m := by
    unfold minCodeSizeEffect firstByteErr errIf
    split <;> simp_all
  rw [← this]
  rfl

theorem decodeStream_nil (npix : Nat) :
    decodeStream npix [] =
      ({ Decoder.start npix [] with framed := true },
        errInputTruncated ||| errIf (decide (0 < npix)) errEndOfStream) := by
  unfold decodeStream
  rw [show decodeFuel ([] : List Byte).length = 2 + 1 from rfl, Decoder.run_succ rfl,
    Decoder.advance_empty rfl rfl, Decoder.run_of_finished (by simp [Decoder.finished, Decoder.start])]
  simp only [BitVec.or_zero]
  rfl

theorem blockBytes_length (bs : List (List Byte)) : (blockBytes bs).length = bs.flatten.length + bs.length := by
  induction bs with
  | nil => rfl
  | cons b bs ih =>
    simp only [blockBytes_cons, List.length_cons, List.length_append, ih, List.flatten_cons]; omega

theorem afterBlocks_fields (bs : List (List Byte)) (tail : List Byte) (d : Decoder) :
    (d.afterBlocks bs tail).framed = d.framed ∧ (d.afterBlocks bs tail).minCode = d.minCode ∧
    (d.afterBlocks bs tail).codec = d.codec ∧ (d.afterBlocks bs tail).npix = d.npix ∧
    (d.afterBlocks bs tail).rest = tail := ⟨rfl, rfl, rfl, rfl, rfl⟩

/-- Well-formed image data: the code loop starts on the joined sub-blocks, just past the terminator (30_encoding.md R93 to
R95, 40_decompress.md R132). -/
theorem decodeStream_wellFormed (npix : Nat) (m : Byte) (blocks : List (List Byte)) (tail : List Byte)
    (hb : ∀ b ∈ blocks, 1 ≤ b.length ∧ b.length ≤ 255) :
    ∃ fuel, 8 * blocks.flatten.length + 1 ≤ fuel ∧
      decodeStream npix (m :: (blockBytes blocks ++ 0#8 :: tail)) =
        ((Decoder.run fuel { (Decoder.afterFirst npix m []).afterBlocks blocks tail with
            inPos := 2 + (blockBytes blocks).length, framed := true }).1,
          firstByteErr m ||| (Decoder.run fuel { (Decoder.afterFirst npix m []).afterBlocks blocks tail with
            inPos := 2 + (blockBytes blocks).length, framed := true }).2) := by
  have hl := blockBytes_length blocks
  obtain ⟨h1, h2, h3, h4, h5, h6, h7⟩ := Decoder.afterFirst_fields npix m (blockBytes blocks ++ 0#8 :: tail)
  obtain ⟨fuel, hfu, hle⟩ : ∃ fuel, 9 * (blockBytes blocks ++ 0#8 :: tail).length + 11 = blocks.length + (fuel + 1) ∧
      8 * blocks.flatten.length + 1 ≤ fuel := by
    refine ⟨9 * (blockBytes blocks ++ 0#8 :: tail).length + 11 - blocks.length - 1, ?_, ?_⟩ <;>
      simp only [List.length_append, List.length_cons] <;> omega
  refine ⟨fuel, hle, ?_⟩
  · rw [decodeStream_cons, hfu]
    rw [Decoder.run_blocks _ blocks (0#8 :: tail) hb h1 h2 h3]
    have hfr : ((Decoder.afterFirst npix m (blockBytes blocks ++ 0#8 :: tail)).afterBlocks blocks
      (0#8 :: tail)).framed = false := h1
    rw [Decoder.run_succ (Decoder.finished_framed hfr), Decoder.advance_terminator hfr h2 rfl]
    have e : ({ (Decoder.afterFirst npix m (blockBytes blocks ++ 0#8 :: tail)).afterBlocks blocks (0#8 :: tail) with
        rest := tail
        inPos := ((Decoder.afterFirst npix m (blockBytes blocks ++ 0#8 :: tail)).afterBlocks blocks (0#8 :: tail)).inPos + 1
        framed := true } : Decoder) =
      { (Decoder.afterFirst npix m []).afterBlocks blocks tail with
            inPos := 2 + (blockBytes blocks).length, framed := true } := by
      unfold Decoder.afterFirst minCodeSizeEffect
      split <;> simp [Decoder.afterBlocks, Decoder.start] <;> omega
    rw [e]
    simp

/-- The start of `m` and whole sub-blocks, up to the point where the bytes after them are read. -/
theorem decodeStream_blocks (npix : Nat) (m : Byte) (blocks : List (List Byte)) (tail : List Byte)
    (hb : ∀ b ∈ blocks, 1 ≤ b.length ∧ b.length ≤ 255) :
    ∃ fuel d, decodeStream npix (m :: (blockBytes blocks ++ tail)) =
        ((Decoder.run (fuel + 1) d).1, firstByteErr m ||| (Decoder.run (fuel + 1) d).2) ∧
      d.framed = false ∧ d.minCode = some m ∧ d.rest = tail ∧ d.inPos = 1 + (blockBytes blocks).length ∧
      d.data = blocks.flatten ∧ d.blocks = blocks.length := by
  have hl := blockBytes_length blocks
  obtain ⟨h1, h2, h3, h4, h5, h6, h7⟩ := Decoder.afterFirst_fields npix m (blockBytes blocks ++ tail)
  obtain ⟨fuel, hfu⟩ : ∃ fuel, 9 * (blockBytes blocks ++ tail).length + 11 = blocks.length + (fuel + 1) :=
    ⟨9 * (blockBytes blocks ++ tail).length + 10 - blocks.length, by simp only [List.length_append]; omega⟩
  refine ⟨fuel, (Decoder.afterFirst npix m (blockBytes blocks ++ tail)).afterBlocks blocks tail, ?_, h1, h2, rfl, ?_, ?_, ?_⟩
  · rw [decodeStream_cons, hfu, Decoder.run_blocks _ blocks tail hb h1 h2 h3]
  · simp only [Decoder.afterBlocks, h4]
  · simp only [Decoder.afterBlocks, h5, List.nil_append]
  · simp only [Decoder.afterBlocks, h6, Nat.zero_add]

/-- What the framing pass leaves, for a decompressor that stands at its end (40_decompress.md R132). -/
theorem Decoder.run_framed_fields (fuel : Nat) {d : Decoder} (hf : d.framed = true) :
    (Decoder.run fuel d).1.data = d.data ∧ (Decoder.run fuel d).1.blocks = d.blocks ∧
      (Decoder.run fuel d).1.inPos = d.inPos ∧ (Decoder.run fuel d).1.minCode = d.minCode ∧
      (Decoder.run fuel d).2 &&& 0xE2#8 = 0#8 := by
  obtain ⟨h, hb⟩ := Decoder.framing_run fuel hf
  simp only [Decoder.framing, Prod.mk.injEq] at h
  exact ⟨h.2.2.2.1, h.2.2.2.2.1, h.2.1, h.2.2.1, hb⟩

end Sys2Proof.Machine
end

