-- ==== Sys2Proof/Laws/RoundTrip.lean ====
section
/-! SUPPORT. The decompressor follows the compressor: after every code the compressor writes, the decoder that has read the
codes so far holds the mirror's width and next code, the compressor's strings but the last, and the indices matched so
far (41_compress.md R177, R186; 40_decompress.md R153). -/

namespace Sys2Proof.Machine

/-! ### Reading one code -/

/-- The codec after a code that is read on, and the string it emits (40_decompress.md R136, R138 to R141). -/
def Codec.read (c : Nat) (k : Codec) : Codec × List Byte :=
  if c = clearCode k.m then (Codec.start k.m, [])
  else if c < 2 ^ k.m then
    ((if k.prev = none then { k with prev := some c }
      else { k.addEntry (k.prevStr ++ [BitVec.ofNat 8 c]) with prev := some c }), [BitVec.ofNat 8 c])
  else if c < k.nxt then ({ k.addEntry (k.prevStr ++ (k.str c).take 1) with prev := some c }, k.str c)
  else ({ k.addEntry (k.prevStr ++ k.prevStr.take 1) with prev := some c }, k.prevStr ++ k.prevStr.take 1)

theorem Codec.read_clear (k : Codec) : k.read (clearCode k.m) = (Codec.start k.m, []) := if_pos rfl

/-- The code is CLEAR, LITERAL, DICT or KWKWK: decoding goes on after it. -/
def Codec.Readable (k : Codec) (c : Nat) : Prop :=
  c = clearCode k.m ∨ c < 2 ^ k.m ∨
    (firstCode k.m ≤ c ∧ k.prev ≠ none ∧ (c < k.nxt ∨ (c = k.nxt ∧ k.nxt < Config.dictSize)))

theorem codeEffect_read {d : Decoder} {k : Codec} (hk : d.codec = some k) {c : Nat} (h : k.Readable c) :
    elementEffect (k.classify c) d = (d.withCodec (k.read c).1).emit (k.read c).2 := by
  have hon : ∀ f, onCodec f d = f k d := fun f => by simp [onCodec, hk]
  unfold Codec.classify classify Codec.read
  by_cases h1 : c = clearCode k.m
  · rw [if_pos h1, if_pos h1]
    simp [elementEffect, hon, clearEffect, Decoder.emit, errIf, Decoder.withCodec]
  · have hf : firstCode k.m = 2 ^ k.m + 2 := rfl
    have h2 : c ≠ eoiCode k.m := by
      unfold eoiCode
      rcases h with h | h | h
      · exact absurd h h1
      · omega
      · omega
    rw [if_neg h1, if_neg h1, if_neg h2]
    by_cases h3 : c < 2 ^ k.m
    · rw [if_pos h3, if_pos h3]
      by_cases h4 : k.prev = none
      · rw [if_pos h4, if_pos h4]; exact hon (literalFirstEffect c)
      · rw [if_neg h4, if_neg h4]; exact hon (literalEffect c)
    · rw [if_neg h3, if_neg h3]
      obtain ⟨h5, h6, h7⟩ : firstCode k.m ≤ c ∧ k.prev ≠ none ∧ (c < k.nxt ∨ (c = k.nxt ∧ k.nxt < Config.dictSize)) := by
        rcases h with h | h | h
        · exact absurd h h1
        · exact absurd h h3
        · exact h
      by_cases h8 : c < k.nxt
      · rw [if_pos ⟨h5, h8, h6⟩, if_pos h8]; exact hon (dictEffect c)
      · have h9 : c = k.nxt ∧ k.nxt < Config.dictSize := by
          rcases h7 with h7 | h7
          · exact absurd h7 h8
          · exact h7
        rw [if_neg (fun x => h8 x.2.1), if_pos ⟨h9.1, h6, h9.2⟩, if_neg h8]; exact hon (kwkwkEffect c)

/-! ### Reading a list of codes -/

/-- From codec and indices `s0`, the codes `l`, each of the width the codec asks for, lead to `s`; before each of them
fewer than `n` indices were decoded, and never more than `n`. -/
inductive Reads (n : Nat) (s0 : Codec × List Byte) : List (Nat × Nat) → Codec × List Byte → Prop where
  | nil : Reads n s0 [] s0
  | snoc {l : List (Nat × Nat)} {k : Codec} {out : List Byte} {c : Nat} :
    Reads n s0 l (k, out) → c < 2 ^ k.width → k.Readable c → out.length < n →
    (out ++ (k.read c).2).length ≤ n →
    Reads n s0 (l ++ [(c, k.width)]) ((k.read c).1, out ++ (k.read c).2)

/-- The decompressor after `l`, with codec and indices `s`. -/
def Decoder.having (l : List (Nat × Nat)) (s : Codec × List Byte) (d : Decoder) : Decoder :=
  { d with codec := some s.1, bitPos := (streamBits l).length, codes := l.length, out := s.2 }

/-- Codes that read on are read by the code loop, with no error bit. -/
theorem Decoder.run_reads {n : Nat} {s0 s : Codec × List Byte} {l : List (Nat × Nat)} (h : Reads n s0 l s)
    (d : Decoder) (hf : d.framed = true) (hs : d.stopped = false) (hn : d.npix = n) (post : List (Nat × Nat))
    (hd : d.data = pack (l ++ post)) (fuel : Nat) :
    Decoder.run (l.length + fuel) (d.having [] s0) = Decoder.run fuel (d.having l s) := by
  induction h generalizing post fuel with
  | nil => rw [List.length_nil, Nat.zero_add]
  | @snoc l k out c _ hc hr ho hle ih =>
    have hd' : d.data = pack (l ++ ((c, k.width) :: post)) := by rw [hd, List.append_assoc]; rfl
    rw [List.length_append, List.length_singleton, Nat.add_assoc, ih ((c, k.width) :: post) hd', Nat.add_comm 1 fuel]
    have hu : (d.having l (k, out)).finished = false := by
      simp [Decoder.finished, Decoder.having, hs, hn, ho]
    have hlen : (streamBits l).length + k.width ≤ 8 * d.data.length := by
      rw [hd', pack_length, streamBits_append, streamBits_cons]
      simp only [List.length_append, codeBits_length]
      omega
    have hcode : codeAt d.data (streamBits l).length k.width = c := by rw [hd']; exact codeAt_pack l post c k.width hc
    have hadv := Decoder.advance_code (d := d.having l (k, out)) (k := k) hf rfl hlen
    rw [Decoder.run_succ hu, hadv]
    change ((Decoder.run fuel (elementEffect (k.classify (codeAt d.data (streamBits l).length k.width))
        ((d.having l (k, out)).past k.width)).1).1,
      (elementEffect (k.classify (codeAt d.data (streamBits l).length k.width))
        ((d.having l (k, out)).past k.width)).2 |||
      (Decoder.run fuel (elementEffect (k.classify (codeAt d.data (streamBits l).length k.width))
        ((d.having l (k, out)).past k.width)).1).2) = _
    rw [hcode, codeEffect_read (k := k) rfl hr]
    have hroom : (k.read c).2.length ≤ n - out.length := by
      rw [List.length_append] at hle; omega
    have e1 : (((d.having l (k, out)).past k.width).withCodec (k.read c).1).emit (k.read c).2 =
        (d.having (l ++ [(c, k.width)]) ((k.read c).1, out ++ (k.read c).2), 0#8) := by
      have hr0 : (((d.having l (k, out)).past k.width).withCodec (k.read c).1).room = n - out.length := by
        simp [Decoder.room, Decoder.withCodec, Decoder.past, Decoder.having, hn]
      unfold Decoder.emit
      rw [hr0, List.take_of_length_le hroom, show decide (n - out.length < (k.read c).2.length) = false by
        simpa using hroom]
      simp only [errIf, Bool.false_eq_true, if_false, Decoder.withCodec, Decoder.past, Decoder.having,
        streamBits_append, List.length_append, List.length_singleton]
      congr 2
      rw [streamBits_cons]
      simp [streamBits]
    rw [e1]
    simp

/-! ### The compressor's strings -/

/-- The string of a code, in the compressor's terms: `strs` are those of the entries of ED in the order they were made
(41_compress.md R174). -/
def strOf (m : Nat) (strs : List (List Byte)) (c : Nat) : List Byte :=
  if c < 2 ^ m then [BitVec.ofNat 8 c] else strs.getD (c - firstCode m) []

/-- The code has a string: a literal, or one of an entry. -/
def hasStr (m : Nat) (strs : List (List Byte)) (c : Nat) : Prop :=
  c < 2 ^ m ∨ (firstCode m ≤ c ∧ c < firstCode m + strs.length)

theorem strOf_ne_nil {m : Nat} {strs : List (List Byte)} {c : Nat} (h : hasStr m strs c) (hs : ∀ s ∈ strs, s ≠ []) :
    strOf m strs c ≠ [] := by
  unfold strOf
  split
  · simp
  · next hc =>
    have hlt : c - firstCode m < strs.length := by rcases h with h | h <;> omega
    rw [List.getD_eq_getElem _ _ hlt]
    exact hs _ (List.getElem_mem hlt)

theorem strOf_snoc {m : Nat} {strs : List (List Byte)} {c : Nat} (h : hasStr m strs c) (x : List Byte) :
    strOf m (strs ++ [x]) c = strOf m strs c := by
  unfold strOf
  split
  · rfl
  · next hc =>
    have hlt : c - firstCode m < strs.length := by rcases h with h | h <;> omega
    rw [List.getD_append _ _ _ _ hlt]

theorem strOf_new (m : Nat) (strs : List (List Byte)) (x : List Byte) :
    strOf m (strs ++ [x]) (firstCode m + strs.length) = x := by
  unfold strOf
  rw [if_neg (by simp only [firstCode]; omega), Nat.add_sub_cancel_left, List.getD_append_right _ _ _ _ (Nat.le_refl _)]
  simp

theorem hasStr_snoc {m : Nat} {strs : List (List Byte)} {c : Nat} (h : hasStr m strs c) (x : List Byte) :
    hasStr m (strs ++ [x]) c := by
  rcases h with h | h
  · exact .inl h
  · exact .inr ⟨h.1, by simp only [List.length_append, List.length_singleton]; omega⟩

/-- The codec's strings are those of its entries. -/
theorem Codec.str_eq (k : Codec) {c : Nat} (h : hasStr k.m k.dict c) : k.str c = strOf k.m k.dict c := by
  unfold Codec.str Codec.str? strOf
  split
  · rfl
  · next hc =>
    rw [if_neg (by rcases h with h | h <;> omega), List.getD_eq_getElem?_getD]

/-! ### The mirror -/

/-- The width leaves room for the next code (30_encoding.md R99). -/
def Codec.Room (k : Codec) : Prop := k.nxt < 2 ^ k.width ∨ (k.width = 12 ∧ k.nxt = 4096)

theorem Codec.addEntry_room (x : List Byte) {k : Codec} (h : k.Room) (hw : k.width ≤ 12) : (k.addEntry x).Room := by
  unfold Codec.Room at h ⊢
  rw [Codec.addEntry_nxt, Codec.addEntry_width]
  by_cases hn : k.nxt < 4096
  · rw [if_pos hn, if_pos hn]
    have hlt : k.nxt < 2 ^ k.width := by rcases h with h | h <;> omega
    by_cases hg : k.nxt = 2 ^ k.width - 1
    · by_cases h12 : k.width < 12
      · rw [if_pos ⟨hg, h12⟩, Nat.pow_succ]; exact .inl (by omega)
      · have h12 : k.width = 12 := by omega
        rw [if_neg (by omega)]
        rw [h12] at hg hlt ⊢
        exact .inr ⟨rfl, by omega⟩
    · rw [if_neg (fun x => hg x.1)]; exact .inl (by omega)
  · rw [if_neg hn, if_neg hn]; exact h

theorem Codec.start_room {m : Nat} (h : 2 ≤ m) : (Codec.start m).Room := by
  have : 2 ^ 2 ≤ 2 ^ m := Nat.pow_le_pow_right (by decide) h
  refine .inl ?_
  simp only [Codec.start, Codec.nxt, List.length_nil, firstCode, initWidth, Nat.pow_succ]
  omega

/-- The mirror holds what the codec holds (41_compress.md R177). -/
structure Mirrors (e : Encoder) (k : Codec) : Prop where
  m : k.m = e.m
  width : k.width = e.dw
  nxt : k.nxt = e.dnext
  first : e.dfirst = k.prev.isNone

/-- A data code moves mirror and codec alike. -/
theorem mirrors_emit {e : Encoder} {k : Codec} (h : Mirrors e k) {c : Nat} (h1 : c ≠ clearCode e.m)
    (h2 : c ≠ eoiCode e.m) {k' : Codec}
    (hk : (k.prev = none ∧ k' = { k with prev := some c }) ∨
      (k.prev ≠ none ∧ ∃ x, k' = { k.addEntry x with prev := some c })) : Mirrors (e.emitCode c) k' := by
  unfold Encoder.emitCode Encoder.mirror
  simp only
  rw [if_neg h1, if_neg h2]
  rcases hk with ⟨hp, rfl⟩ | ⟨hp, x, rfl⟩
  · have : e.dfirst = true := by rw [h.first, hp]; rfl
    rw [if_pos this]
    exact ⟨h.m, h.width, h.nxt, rfl⟩
  · have : e.dfirst = false := by
      rw [h.first]; cases hq : k.prev with
      | none => exact absurd hq hp
      | some q => rfl
    rw [if_neg (by simp [this])]
    have hn : ({ k.addEntry x with prev := some c } : Codec).nxt = (k.addEntry x).nxt := rfl
    have hw : ({ k.addEntry x with prev := some c } : Codec).width = (k.addEntry x).width := rfl
    have hdn : e.dnext = k.nxt := h.nxt.symm
    have hdw : e.dw = k.width := h.width.symm
    by_cases hlt : e.dnext < Config.dictSize
    · rw [if_pos hlt]
      have hlt' : k.nxt < 4096 := by rw [← hdn]; exact hlt
      refine ⟨by rw [← h.m]; simp, ?_, ?_, this⟩
      · rw [hw, Codec.addEntry_width, if_pos hlt']
        simp only [hdn, hdw, Config.maxCodeWidth]
      · rw [hn, Codec.addEntry_nxt, if_pos hlt', ← hdn]
    · rw [if_neg hlt]
      have hlt' : ¬k.nxt < 4096 := by rw [← hdn]; exact hlt
      refine ⟨by rw [← h.m]; simp, ?_, ?_, this⟩
      · rw [hw, Codec.addEntry_width, if_neg hlt', ← hdw]
      · rw [hn, Codec.addEntry_nxt, if_neg hlt', ← hdn]

@[simp] theorem Encoder.emitCode_m (c : Nat) (e : Encoder) : (e.emitCode c).m = e.m := by
  unfold Encoder.emitCode Encoder.mirror; simp only; split_ifs <;> rfl
@[simp] theorem Encoder.emitCode_rest (c : Nat) (e : Encoder) : (e.emitCode c).rest = e.rest := by
  unfold Encoder.emitCode Encoder.mirror; simp only; split_ifs <;> rfl
@[simp] theorem Encoder.emitCode_ed (c : Nat) (e : Encoder) : (e.emitCode c).ed = e.ed := by
  unfold Encoder.emitCode Encoder.mirror; simp only; split_ifs <;> rfl
@[simp] theorem Encoder.emitCode_cur (c : Nat) (e : Encoder) : (e.emitCode c).cur = e.cur := by
  unfold Encoder.emitCode Encoder.mirror; simp only; split_ifs <;> rfl
@[simp] theorem Encoder.emitCode_finished (c : Nat) (e : Encoder) : (e.emitCode c).finished = e.finished := by
  unfold Encoder.emitCode Encoder.mirror; simp only; split_ifs <;> rfl
@[simp] theorem Encoder.emitCode_codes (c : Nat) (e : Encoder) : (e.emitCode c).codes = e.codes ++ [(c, e.dw)] := by
  unfold Encoder.emitCode Encoder.mirror; simp only; split_ifs <;> rfl

theorem Encoder.emitCode_eoi (e : Encoder) :
    (e.emitCode (eoiCode e.m)).dw = e.dw ∧ (e.emitCode (eoiCode e.m)).dnext = e.dnext := by
  simp [Encoder.emitCode, Encoder.mirror, eoiCode, clearCode]

theorem mirrors_clear (e : Encoder) : Mirrors (e.emitCode (clearCode e.m)) (Codec.start e.m) := by
  have h : e.emitCode (clearCode e.m) =
      { e with codes := e.codes ++ [(clearCode e.m, e.dw)], dw := initWidth e.m, dnext := firstCode e.m,
               dfirst := true } := by simp [Encoder.emitCode, Encoder.mirror]
  rw [h]
  exact ⟨rfl, rfl, rfl, rfl⟩

/-! ### The simulation -/

/-- The compressor with a match under way, and the decoder that has read all its codes. -/
structure Follows (m n : Nat) (p : List Byte) (e : Encoder) (k : Codec) (out : List Byte) (strs : List (List Byte))
    (c : Nat) : Prop where
  size : 2 ≤ m ∧ m ≤ 8
  em : e.m = m
  small : ∀ b ∈ p, b.toNat < 2 ^ m
  count : p.length = n
  mirrors : Mirrors e k
  ok : k.ok
  room : k.Room
  len : strs.length = e.ed.length
  cap : firstCode m + strs.length ≤ 4096
  nonempty : ∀ s ∈ strs, s ≠ []
  entries : ∀ x ∈ e.ed, hasStr m strs x.code ∧ hasStr m strs x.value ∧
    strOf m strs x.value = strOf m strs x.code ++ [x.index]
  cur : e.cur = some c
  valid : hasStr m strs c
  input : out ++ strOf m strs c ++ e.rest = p
  link : (k.prev = none ∧ k.dict = [] ∧ strs = []) ∨
    ∃ q, k.prev = some q ∧ strs = k.dict ++ [k.str q ++ (strOf m strs c).take 1] ∧ k.str q ≠ []
  reads : Reads n (Codec.start m, []) e.codes (k, out)
  starts : ∃ l, e.codes = (clearCode m, initWidth m) :: l
  open_ : e.finished = false

theorem codec_dict_prev (k : Codec) (p : Option Nat) (c : Nat) : Codec.str { k with prev := p } c = k.str c := rfl

theorem Codec.addEntry_dict {k : Codec} (x : List Byte) (h : k.nxt < 4096) : (k.addEntry x).dict = k.dict ++ [x] := by
  unfold Codec.addEntry Config.dictSize
  rw [if_pos h]

/-- Writing the match's code: the decoder reads its string, and then holds all the compressor's strings. -/
theorem Follows.emit {m n : Nat} {p : List Byte} {e : Encoder} {k : Codec} {out : List Byte} {strs : List (List Byte)}
    {c : Nat} (h : Follows m n p e k out strs c) :
    (k.read c).2 = strOf m strs c ∧ (k.read c).1.m = m ∧ (k.read c).1.prev = some c ∧ (k.read c).1.dict = strs ∧
      k.Readable c ∧ c < 2 ^ k.width ∧ (k.read c).1.ok ∧ (k.read c).1.Room ∧
      Mirrors (e.emitCode c) (k.read c).1 := by
  have hkm : m = k.m := (h.mirrors.m.trans h.em).symm
  subst hkm
  have hf : firstCode k.m = 2 ^ k.m + 2 := rfl
  have hw : 2 ^ (k.m + 1) ≤ 2 ^ k.width := Nat.pow_le_pow_right (by decide) (by have := h.ok.2.2.1; omega)
  have h4 : 2 ^ 2 ≤ 2 ^ k.m := Nat.pow_le_pow_right (by decide) h.size.1
  rw [Nat.pow_succ] at hw
  have hne1 : c ≠ clearCode k.m := by unfold clearCode; rcases h.valid with hv | hv <;> omega
  have hne2 : c ≠ eoiCode k.m := by unfold eoiCode; rcases h.valid with hv | hv <;> omega
  have hem1 : c ≠ clearCode e.m := by rw [h.em]; exact hne1
  have hem2 : c ≠ eoiCode e.m := by rw [h.em]; exact hne2
  unfold Codec.read Codec.Readable
  rw [if_neg hne1]
  rcases h.link with ⟨hp, hd, hs⟩ | ⟨q, hp, hs, hq⟩
  · have hc : c < 2 ^ k.m := by
      rcases h.valid with hv | hv
      · exact hv
      · rw [hs, List.length_nil] at hv; omega
    rw [if_pos hc, if_pos hp]
    refine ⟨by simp [strOf, hc], rfl, rfl, by rw [hs]; exact hd, .inr (.inl hc), by omega, h.ok, h.room, ?_⟩
    exact mirrors_emit h.mirrors hem1 hem2 (.inl ⟨hp, rfl⟩)
  · have hpn : k.prev ≠ none := by rw [hp]; simp
    have hps : k.prevStr = k.str q := by simp [Codec.prevStr, hp]
    have hlen : strs.length = k.dict.length + 1 := by rw [hs]; simp
    have hnxt : k.nxt = firstCode k.m + k.dict.length := rfl
    have hfull : k.nxt < 4096 := by have := h.cap; omega
    have hfull' : k.nxt < Config.dictSize := hfull
    have hlt : k.nxt < 2 ^ k.width := by
      rcases h.room with hr | hr
      · exact hr
      · omega
    have hin : c < 2 ^ k.width := by rcases h.valid with hv | hv <;> omega
    have fin : ∀ x : List Byte, x = k.str q ++ (strOf k.m strs c).take 1 →
        ({ k.addEntry x with prev := some c } : Codec).m = k.m ∧
        ({ k.addEntry x with prev := some c } : Codec).dict = strs ∧
        ({ k.addEntry x with prev := some c } : Codec).ok ∧ ({ k.addEntry x with prev := some c } : Codec).Room ∧
        Mirrors (e.emitCode c) { k.addEntry x with prev := some c } := by
      intro x hx
      refine ⟨by simp, ?_, Codec.addEntry_ok x h.ok, Codec.addEntry_room x h.room h.ok.2.2.2.1,
        mirrors_emit h.mirrors hem1 hem2 (.inr ⟨hpn, x, rfl⟩)⟩
      change (k.addEntry x).dict = strs
      rw [Codec.addEntry_dict x hfull, hx, ← hs]
    by_cases hc : c < 2 ^ k.m
    · rw [if_pos hc, if_neg hpn]
      have hstr : strOf k.m strs c = [BitVec.ofNat 8 c] := by simp [strOf, hc]
      obtain ⟨f1, f2, f3, f4, f5⟩ := fin (k.prevStr ++ [BitVec.ofNat 8 c]) (by rw [hps, hstr]; rfl)
      exact ⟨hstr.symm, f1, rfl, f2, .inr (.inl hc), hin, f3, f4, f5⟩
    · rw [if_neg hc]
      obtain ⟨hv1, hv2⟩ : firstCode k.m ≤ c ∧ c < firstCode k.m + strs.length := by
        rcases h.valid with hv | hv
        · exact absurd hv hc
        · exact hv
      by_cases hd : c < k.nxt
      · rw [if_pos hd]
        have hhas : hasStr k.m k.dict c := .inr ⟨hv1, by omega⟩
        have hstr : k.str c = strOf k.m strs c := by
          rw [Codec.str_eq k hhas]
          conv_rhs => rw [hs]
          exact (strOf_snoc hhas _).symm
        obtain ⟨f1, f2, f3, f4, f5⟩ := fin (k.prevStr ++ (k.str c).take 1) (by rw [hps, hstr])
        exact ⟨hstr, f1, rfl, f2, .inr (.inr ⟨hv1, hpn, .inl hd⟩), hin, f3, f4, f5⟩
      · rw [if_neg hd]
        have hcn : c = k.nxt := by omega
        have hlast : strOf k.m strs c = k.str q ++ (strOf k.m strs c).take 1 := by
          have hnew := strOf_new k.m k.dict (k.str q ++ (strOf k.m strs c).take 1)
          rw [← hs, ← hnxt, ← hcn] at hnew
          exact hnew
        have htake : (strOf k.m strs c).take 1 = (k.str q).take 1 := by
          rw [hlast]
          cases hqs : k.str q with
          | nil => exact absurd hqs hq
          | cons a r => rfl
        obtain ⟨f1, f2, f3, f4, f5⟩ := fin (k.prevStr ++ k.prevStr.take 1) (by rw [hps, htake])
        refine ⟨?_, f1, rfl, f2, .inr (.inr ⟨hv1, hpn, .inr ⟨hcn, hfull'⟩⟩), hin, f3, f4, f5⟩
        rw [hps, ← htake]; exact hlast.symm

theorem ofNat_toNat_byte (b : Byte) : BitVec.ofNat 8 b.toNat = b := by simp

theorem strOf_literal {m : Nat} (strs : List (List Byte)) {b : Byte} (h : b.toNat < 2 ^ m) :
    strOf m strs b.toNat = [b] := by simp [strOf, h]

theorem Encoder.lookup_some {e : Encoder} {c c' : Nat} {b : Byte} (h : e.lookup c b = some c') :
    ∃ x ∈ e.ed, x.code = c ∧ x.index = b ∧ x.value = c' := by
  unfold Encoder.lookup at h
  cases hf : e.ed.find? (fun x => x.code == c && x.index == b) with
  | none => rw [hf] at h; simp at h
  | some x =>
    rw [hf] at h
    have h1 := List.find?_some hf
    simp only [Bool.and_eq_true, beq_iff_eq] at h1
    exact ⟨x, List.mem_of_find?_eq_some hf, h1.1, h1.2, by simpa using h⟩

/-- The codes so far and the one written next, read by the decoder. -/
theorem Follows.reads_emit {m n : Nat} {p : List Byte} {e : Encoder} {k : Codec} {out : List Byte}
    {strs : List (List Byte)} {c : Nat} (h : Follows m n p e k out strs c) :
    Reads n (Codec.start m, []) (e.emitCode c).codes ((k.read c).1, out ++ strOf m strs c) := by
  obtain ⟨h1, -, -, -, h2, h3, -⟩ := h.emit
  have hne := strOf_ne_nil h.valid h.nonempty
  have hlen : (out ++ strOf m strs c).length ≤ n := by
    rw [← h.count, ← h.input, List.length_append (bs := e.rest)]; omega
  have hlt : out.length < n := by
    rw [List.length_append] at hlen
    have := List.length_pos_iff.2 hne
    omega
  have := Reads.snoc h.reads h3 h2 hlt (by rw [h1]; exact hlen)
  rw [h1] at this
  rw [Encoder.emitCode_codes, ← h.mirrors.width]
  exact this

/-- One turn of Encode's loop that takes an index keeps the simulation. -/
theorem Follows.step {m n : Nat} {p : List Byte} {e : Encoder} {k : Codec} {out : List Byte} {strs : List (List Byte)}
    {c : Nat} (h : Follows m n p e k out strs c) {b : Byte} {r : List Byte} (hr : e.rest = b :: r) :
    ∃ k' out' strs' c', Follows m n p e.step k' out' strs' c' ∧ e.step.rest = r := by
  have hb : b.toNat < 2 ^ m := by
    refine h.small b ?_
    rw [← h.input, hr]
    simp
  have hstep : e.step = match e.lookup c b with
      | some c' => { e with rest := r, cur := some c' }
      | none =>
        let e1 := { e with rest := r }.emitCode c
        let e2 := if e1.enext < Config.dictSize then
            { e1 with ed := { code := c, index := b, value := e1.enext } :: e1.ed }
          else e1.emitClear
        { e2 with cur := some b.toNat } := by
    unfold Encoder.step
    rw [hr]
    simp only [h.cur] <;> cases e.lookup c b <;> rfl
  cases hl : e.lookup c b with
  | some c' =>
    rw [hl] at hstep
    obtain ⟨x, hx, rfl, rfl, rfl⟩ := Encoder.lookup_some hl
    obtain ⟨he1, he2, he3⟩ := h.entries x hx
    have htake : (strOf m strs x.value).take 1 = (strOf m strs x.code).take 1 := by
      rw [he3]
      cases hq : strOf m strs x.code with
      | nil => exact absurd hq (strOf_ne_nil he1 h.nonempty)
      | cons a s => rfl
    refine ⟨k, out, strs, x.value, ?_, by rw [hstep]⟩
    have hstep : e.step = { e with rest := r, cur := some x.value } := hstep
    rw [hstep]
    refine { h with cur := rfl, valid := he2, input := ?_, link := ?_, mirrors := ?_ }
    · exact ⟨h.mirrors.m, h.mirrors.width, h.mirrors.nxt, h.mirrors.first⟩
    · rw [he3, ← h.input, hr]; simp
    · rcases h.link with hl | ⟨q, h1, h2, h3⟩
      · exact .inl hl
      · exact .inr ⟨q, h1, by rw [htake]; exact h2, h3⟩
  | none =>
    rw [hl] at hstep
    simp only at hstep
    have hbase : Follows m n p { e with rest := b :: r } k out strs c := by rw [← hr]; exact h
    have hreads := h.reads_emit
    obtain ⟨g1, g2, g3, g4, g5, g6, g7, g8, g9⟩ := h.emit
    have hem : ({ e with rest := r }.emitCode c) = { e.emitCode c with rest := r } := by
      unfold Encoder.emitCode Encoder.mirror
      simp only
      split_ifs <;> rfl
    have hinp : out ++ strOf m strs c ++ [b] ++ r = p := by rw [← h.input, hr]; simp
    have henext : ({ e.emitCode c with rest := r } : Encoder).enext = firstCode m + strs.length := by
      simp only [Encoder.enext, Encoder.emitCode_m, Encoder.emitCode_ed, h.em, h.len]
    rw [hem, henext] at hstep
    obtain ⟨l, hl0⟩ := h.starts
    by_cases hcap : firstCode m + strs.length < Config.dictSize
    · rw [if_pos hcap] at hstep
      have hcap' : firstCode m + strs.length < 4096 := hcap
      refine ⟨(k.read c).1, out ++ strOf m strs c, strs ++ [strOf m strs c ++ [b]], b.toNat, ?_, by rw [hstep]⟩
      rw [hstep]
      refine { size := h.size, em := by simpa using h.em, small := h.small, count := h.count,
               mirrors := ⟨g9.m, g9.width, g9.nxt, g9.first⟩, ok := g7, room := g8, len := ?_, cap := ?_,
               nonempty := ?_, entries := ?_, cur := rfl, valid := .inl hb, input := ?_, link := ?_, reads := hreads,
               starts := ?_, open_ := by simpa using h.open_ }
      · simp [h.len]
      · simp only [List.length_append, List.length_singleton]; omega
      · intro s hs
        rcases List.mem_append.1 hs with hs | hs
        · exact h.nonempty s hs
        · rw [List.mem_singleton.1 hs]; simp
      · intro x hx
        simp only [Encoder.emitCode_ed, List.mem_cons] at hx
        rcases hx with rfl | hx
        · refine ⟨hasStr_snoc h.valid _, .inr ⟨Nat.le_add_right .., by simp⟩, ?_⟩
          simp only
          rw [strOf_new, strOf_snoc h.valid]
        · obtain ⟨x1, x2, x3⟩ := h.entries x hx
          exact ⟨hasStr_snoc x1 _, hasStr_snoc x2 _, by rw [strOf_snoc x2, strOf_snoc x1]; exact x3⟩
      · rw [strOf_literal _ hb]; exact hinp
      · have hks : (k.read c).1.str c = strOf m strs c := by
          rw [Codec.str_eq _ (by rw [g2, g4]; exact h.valid), g2, g4]
        refine .inr ⟨c, g3, ?_, ?_⟩
        · rw [g4, hks, strOf_literal _ hb]; rfl
        · rw [hks]; exact strOf_ne_nil h.valid h.nonempty
      · exact ⟨l ++ [(c, e.dw)], by simp [hl0]⟩
    · rw [if_neg hcap] at hstep
      refine ⟨Codec.start m, out ++ strOf m strs c, [], b.toNat, ?_, by rw [hstep]; simp [Encoder.emitClear]⟩
      rw [hstep]
      have hmir := mirrors_clear { e.emitCode c with rest := r }
      have hme2 : (e.emitCode c).m = m := by simpa using h.em
      have hme : ({ e.emitCode c with rest := r } : Encoder).m = m := by simpa using h.em
      rw [hme] at hmir
      have hclear : Reads n (Codec.start m, []) ((e.emitCode c).codes ++ [(clearCode m, (k.read c).1.width)])
          (Codec.start m, out ++ strOf m strs c) := by
        have hw : 2 ^ (m + 1) ≤ 2 ^ (k.read c).1.width :=
          Nat.pow_le_pow_right (by decide) (by have := g7.2.2.1; rw [g2] at this; exact this)
        have hpos : 0 < 2 ^ m := Nat.pow_pos (by decide)
        have hrd : ((k.read c).1).read (clearCode m) = (Codec.start m, []) := by
          rw [← g2]; exact Codec.read_clear _
        have hlen : (out ++ strOf m strs c).length < n := by
          rw [← h.count, ← hinp]; simp only [List.length_append, List.length_singleton]; omega
        have := Reads.snoc (c := clearCode m) hreads (by rw [Nat.pow_succ] at hw; unfold clearCode; omega)
          (.inl (by rw [g2])) hlen (by rw [hrd]; simpa using Nat.le_of_lt hlen)
        rw [hrd, List.append_nil] at this
        exact this
      refine { size := h.size, em := ?_, small := h.small, count := h.count,
               mirrors := ⟨?_, ?_, ?_, ?_⟩, ok := Codec.start_ok h.size, room := Codec.start_room h.size.1, len := ?_,
               cap := ?_, nonempty := by simp, entries := ?_, cur := rfl, valid := .inl hb, input := ?_,
               link := .inl ⟨rfl, rfl, rfl⟩, reads := ?_, starts := ?_, open_ := ?_ }
      · simp [Encoder.emitClear, h.em]
      · simp [Encoder.emitClear, h.em, Codec.start]
      · simp only [Encoder.emitClear]; rw [hme2.symm] at hmir ⊢; exact hmir.width
      · simp only [Encoder.emitClear]; rw [hme2.symm] at hmir ⊢; exact hmir.nxt
      · simp only [Encoder.emitClear]; rw [hme2.symm] at hmir ⊢; exact hmir.first
      · simp [Encoder.emitClear]
      · have := firstCode_le h.size.2
        simp only [List.length_nil]; omega
      · simp [Encoder.emitClear]
      · rw [strOf_literal _ hb]; simpa [Encoder.emitClear] using hinp
      · simp only [Encoder.emitClear, Encoder.emitCode_codes, hme2]
        rw [Encoder.emitCode_codes, g9.width] at hclear
        exact hclear
      · exact ⟨l ++ [(c, e.dw), (clearCode m, (e.emitCode c).dw)], by simp [Encoder.emitClear, hl0, h.em]⟩
      · simp [Encoder.emitClear, h.open_]

/-- The whole of Encode from a match under way: it ends with the codes `mid` and EOI, and the decoder that reads `mid`
holds all of the input, and the mirror's width and next code. -/
theorem Follows.run {m n : Nat} {p : List Byte} {e : Encoder} {k : Codec} {out : List Byte} {strs : List (List Byte)}
    {c : Nat} (h : Follows m n p e k out strs c) (fuel : Nat) (hfuel : e.rest.length + 1 ≤ fuel) :
    ∃ mid k', (Encoder.run fuel e).codes = mid ++ [(eoiCode m, (Encoder.run fuel e).dw)] ∧
      Reads n (Codec.start m, []) mid (k', p) ∧ k'.m = m ∧ k'.ok ∧ k'.width = (Encoder.run fuel e).dw ∧
      k'.nxt = (Encoder.run fuel e).dnext ∧ (Encoder.run fuel e).finished = true ∧ (Encoder.run fuel e).m = m ∧
      ∃ l, mid = (clearCode m, initWidth m) :: l := by
  induction fuel generalizing e k out strs c with
  | zero => omega
  | succ f ih =>
    have hrun : Encoder.run (f + 1) e = Encoder.run f e.step := by rw [Encoder.run, if_neg (by simp [h.open_])]
    rw [hrun]
    cases hr : e.rest with
    | cons b r =>
      obtain ⟨k', out', strs', c', h', hrest⟩ := h.step hr
      exact ih h' (by rw [hrest]; rw [hr, List.length_cons] at hfuel; omega)
    | nil =>
      obtain ⟨g1, g2, g3, g4, g5, g6, g7, g8, g9⟩ := h.emit
      have hstep : e.step = { (e.emitCode c).emitCode (eoiCode m) with finished := true } := by
        unfold Encoder.step
        rw [hr]
        simp only [h.cur, h.em]
      have hfin : Encoder.run f e.step = e.step := by
        cases f with
        | zero => rfl
        | succ f => rw [Encoder.run, if_pos (by rw [hstep])]
      rw [hfin]
      have heoi := Encoder.emitCode_eoi (e.emitCode c)
      rw [Encoder.emitCode_m, h.em] at heoi
      have hout : out ++ strOf m strs c = p := by rw [← h.input, hr, List.append_nil]
      obtain ⟨l, hl⟩ := h.starts
      refine ⟨(e.emitCode c).codes, (k.read c).1, ?_, ?_, g2, g7, ?_, ?_, ?_, ?_, ?_⟩
      · rw [hstep]; simp only [Encoder.emitCode_codes, heoi.1]
      · rw [← hout]; exact h.reads_emit
      · rw [hstep]; simp only [heoi.1]; exact g9.width
      · rw [hstep]; simp only [heoi.2]; exact g9.nxt
      · rw [hstep]
      · rw [hstep]; simp [h.em]
      · exact ⟨l ++ [(c, e.dw)], by simp [hl]⟩

theorem Encoder.start_facts (m : Nat) (p : List Byte) :
    (Encoder.start m p).m = m ∧ (Encoder.start m p).rest = p ∧ (Encoder.start m p).ed = [] ∧
    (Encoder.start m p).cur = none ∧ (Encoder.start m p).codes = [(clearCode m, initWidth m)] ∧
    (Encoder.start m p).finished = false ∧ Mirrors (Encoder.start m p) (Codec.start m) := by
  unfold Encoder.start Encoder.emitClear
  refine ⟨by simp, by simp, rfl, by simp, by simp, by simp, ?_⟩
  have := mirrors_clear (Encoder.mk m p [] none [] (initWidth m) (firstCode m) true false)
  exact ⟨this.m, this.width, this.nxt, this.first⟩

/-- The encoding of the empty buffer (41_compress.md R182). -/
theorem encodeIndices_nil (m : Nat) :
    (encodeIndices m []).codes = [(clearCode m, initWidth m), (eoiCode m, initWidth m)] ∧
    (encodeIndices m []).dw = initWidth m ∧ (encodeIndices m []).dnext = firstCode m ∧
    (encodeIndices m []).finished = true ∧ (encodeIndices m []).m = m := by
  obtain ⟨h1, h2, h3, h4, h5, h6, h7⟩ := Encoder.start_facts m []
  have hstep : encodeIndices m [] = { (Encoder.start m []).emitCode (eoiCode m) with finished := true } := by
    unfold encodeIndices
    rw [List.length_nil, Encoder.run, if_neg (by simp [h6]), Encoder.run]
    unfold Encoder.step
    rw [h2]
    simp only [h4, h1]
  have heoi := Encoder.emitCode_eoi (Encoder.start m [])
  rw [h1] at heoi
  rw [hstep]
  have hw : (Encoder.start m []).dw = initWidth m := h7.width.symm
  refine ⟨by simp [h5, hw], heoi.1.trans hw, heoi.2.trans h7.nxt.symm, rfl, by simp [h1]⟩

/-- The encoding of a buffer that is not empty, and the decoder that has read all of it but EOI. -/
theorem encodeIndices_reads {m : Nat} (hm : 2 ≤ m ∧ m ≤ 8) {p : List Byte} (hp : p ≠ [])
    (hs : ∀ b ∈ p, b.toNat < 2 ^ m) :
    ∃ mid k, (encodeIndices m p).codes = mid ++ [(eoiCode m, (encodeIndices m p).dw)] ∧
      Reads p.length (Codec.start m, []) mid (k, p) ∧ k.m = m ∧ k.ok ∧ k.width = (encodeIndices m p).dw ∧
      k.nxt = (encodeIndices m p).dnext ∧ (encodeIndices m p).finished = true ∧ (encodeIndices m p).m = m ∧
      ∃ l, mid = (clearCode m, initWidth m) :: l := by
  cases p with
  | nil => exact absurd rfl hp
  | cons b r =>
    obtain ⟨h1, h2, h3, h4, h5, h6, h7⟩ := Encoder.start_facts m (b :: r)
    have hb : b.toNat < 2 ^ m := hs b (List.mem_cons_self ..)
    have hrun : encodeIndices m (b :: r) =
        Encoder.run (r.length + 1) { Encoder.start m (b :: r) with rest := r, cur := some b.toNat } := by
      unfold encodeIndices
      rw [List.length_cons, Encoder.run, if_neg (by simp [h6])]
      congr 1
      unfold Encoder.step
      rw [h2]
      simp only [h4]
    have hpos : 0 < 2 ^ m := Nat.pow_pos (by decide)
    have hread : Reads (b :: r).length (Codec.start m, []) [(clearCode m, initWidth m)] (Codec.start m, []) := by
      have hrd : (Codec.start m).read (clearCode m) = (Codec.start m, []) := Codec.read_clear (Codec.start m)
      have := Reads.snoc (n := (b :: r).length) (s0 := (Codec.start m, [])) (c := clearCode m) .nil
        (by simp only [Codec.start, initWidth, clearCode, Nat.pow_succ]; omega) (.inl rfl) (by simp) (by rw [hrd]; simp)
      rw [hrd] at this
      exact this
    have hfol : Follows m (b :: r).length (b :: r) { Encoder.start m (b :: r) with rest := r, cur := some b.toNat }
        (Codec.start m) [] [] b.toNat := by
      refine { size := hm, em := h1, small := hs, count := rfl, mirrors := ⟨h7.m, h7.width, h7.nxt, h7.first⟩,
               ok := Codec.start_ok hm, room := Codec.start_room hm.1, len := by simp [h3], cap := ?_,
               nonempty := by simp, entries := by simp [h3], cur := rfl, valid := .inl hb, input := ?_,
               link := .inl ⟨rfl, rfl, rfl⟩, reads := by rw [show
                ({ Encoder.start m (b :: r) with rest := r, cur := some b.toNat } : Encoder).codes =
                  [(clearCode m, initWidth m)] from h5]; exact hread, starts := ⟨[], h5⟩, open_ := h6 }
      · have := firstCode_le hm.2
        simp only [List.length_nil]; omega
      · rw [strOf_literal _ hb]; rfl
    obtain ⟨mid, k, g⟩ := hfol.run (r.length + 1) (Nat.le_refl _)
    rw [← hrun] at g
    exact ⟨mid, k, g⟩

/-! ### The round trip -/

theorem frame_blockBytes (m : Nat) (d : List Byte) : frame m d = BitVec.ofNat 8 m :: (blockBytes (blocksOf d) ++ [0#8]) := rfl

/-- Decoding what Encode made gives the indices back, with no error bit, at the end of the input, with the mirror's state,
and with every code but EOI read (40_decompress.md R153). -/
theorem decode_compress {m : Nat} (hm : 2 ≤ m ∧ m ≤ 8) (p : List Byte) (hs : ∀ b ∈ p, b.toNat < 2 ^ m) :
    let r := decodeStream p.length (compressBytes m p)
    r.1.pixels = p ∧ r.2 = 0#8 ∧ r.1.inPos = (compressBytes m p).length ∧
      r.1.lzwState = { nextCode := BitVec.ofNat 13 (encodeIndices m p).dnext,
                       codeWidth := BitVec.ofNat 4 (encodeIndices m p).dw } ∧
      r.1.codes = (if p = [] then 0 else (encodeIndices m p).codes.length - 1) := by
  have hmb : (BitVec.ofNat 8 m).toNat = m := by rw [BitVec.toNat_ofNat]; omega
  have hacc : acceptsM (BitVec.ofNat 8 m).toNat = true := by rw [hmb]; exact (acceptsM_iff m).2 hm
  set D := pack (encodeIndices m p).codes with hD
  have hE : compressBytes m p = BitVec.ofNat 8 m :: (blockBytes (blocksOf D) ++ 0#8 :: []) := frame_blockBytes m D
  have hlen : (compressBytes m p).length = 2 + (blockBytes (blocksOf D)).length := by
    rw [hE]; simp only [List.length_cons, List.length_append, List.length_nil]; omega
  obtain ⟨fuel, hfuel, hdec⟩ := decodeStream_wellFormed p.length (BitVec.ofNat 8 m) (blocksOf D) [] (blocksOf_size D)
  rw [blocksOf_flatten] at hfuel
  have hfirst : firstByteErr (BitVec.ofNat 8 m) = 0#8 := by simp only [firstByteErr, hacc]; rfl
  set d0 : Decoder := { (Decoder.afterFirst p.length (BitVec.ofNat 8 m) []).afterBlocks (blocksOf D) [] with
    inPos := 2 + (blockBytes (blocksOf D)).length, framed := true } with hd0
  rw [hE, hdec, hfirst, ← hE]
  have hbase : d0.having [] (Codec.start m, []) = d0 := by
    rw [hd0]
    unfold Decoder.afterFirst minCodeSizeEffect
    rw [if_pos hacc]
    simp only [hmb]
    rfl
  have hdata : d0.data = D := by
    rw [hd0]
    unfold Decoder.afterFirst minCodeSizeEffect
    rw [if_pos hacc]
    simp [Decoder.afterBlocks, Decoder.start, blocksOf_flatten]
  have hnp : d0.npix = p.length := by
    rw [hd0]; unfold Decoder.afterFirst minCodeSizeEffect; rw [if_pos hacc]; rfl
  have hst : d0.stopped = false := by
    rw [hd0]; unfold Decoder.afterFirst minCodeSizeEffect; rw [if_pos hacc]; rfl
  have hpos : d0.inPos = 2 + (blockBytes (blocksOf D)).length := rfl
  by_cases hp : p = []
  · subst hp
    have hfin : d0.finished = true := by
      simp only [Decoder.finished, hnp, List.length_nil, Nat.zero_le, decide_true, Bool.or_true, Bool.and_true]
      rfl
    rw [Decoder.run_of_finished hfin]
    obtain ⟨-, e2, e3, -, -⟩ := encodeIndices_nil m
    rw [← hbase]
    refine ⟨?_, by simp, ?_, ?_, by simp [Decoder.having]⟩
    · simp [Decoder.pixels, Decoder.having, hnp]
    · rw [hlen]; rfl
    · rw [e2, e3]; rfl
  · obtain ⟨mid, k, hcodes, hreads, -, -, hw, hn, -, -, -⟩ := encodeIndices_reads hm hp hs
    have hml : mid.length ≤ fuel := by
      have h1 : mid.length ≤ (streamBits mid).length := by
        have : ∀ {l : List (Nat × Nat)} {s : Codec × List Byte}, Reads p.length (Codec.start m, []) l s →
            s.1.ok ∧ l.length ≤ (streamBits l).length := by
          intro l s h
          induction h with
          | nil => exact ⟨Codec.start_ok hm, Nat.zero_le _⟩
          | @snoc l k out c _ hc hr ho hle ih =>
            refine ⟨?_, ?_⟩
            · have hk := ih.1
              simp only at hk ⊢
              unfold Codec.read
              split_ifs
              · exact Codec.start_ok ⟨hk.1, hk.2.1⟩
              · exact hk
              · exact Codec.addEntry_ok _ hk
              · exact Codec.addEntry_ok _ hk
              · exact Codec.addEntry_ok _ hk
            · have hk := ih.1.2.2.1
              have := ih.1.1
              rw [streamBits_append, streamBits_cons]
              simp only [List.length_append, List.length_singleton, codeBits_length]
              simp only at hk this
              omega
        exact (this hreads).2
      have h2 : (streamBits mid).length ≤ 8 * D.length := by
        rw [hD, pack_length, hcodes, streamBits_append, List.length_append]; omega
      omega
    obtain ⟨f, rfl⟩ := Nat.exists_eq_add_of_le hml
    have hrun := Decoder.run_reads hreads d0 rfl hst hnp [(eoiCode m, (encodeIndices m p).dw)]
      (by rw [hdata, hD, hcodes]) f
    rw [hbase] at hrun
    have hfin : (d0.having mid (k, p)).finished = true := by
      simp only [Decoder.finished, Decoder.having, hnp, Nat.le_refl, decide_true, Bool.or_true, Bool.and_true]
      rfl
    rw [hrun, Decoder.run_of_finished hfin]
    refine ⟨?_, by simp, ?_, ?_, ?_⟩
    · simp [Decoder.pixels, Decoder.having, hnp]
    · rw [hlen]; rfl
    · rw [← hw, ← hn]; rfl
    · rw [if_neg hp, hcodes]; simp [Decoder.having]

end Sys2Proof.Machine
end

