-- ==== Sys2Proof/Laws/Encoder.lean ====
section
/-! SUPPORT. The turns of Encode's loop, one lemma per turn (41_compress.md R175, R176), and the codes an encoding is made
of. -/

namespace Sys2Proof.Machine

/-- Writing a code looks at the mirror only. -/
theorem Encoder.emitCode_withRest (c : Nat) (r : List Byte) (e : Encoder) :
    Encoder.emitCode c { e with rest := r } = { e.emitCode c with rest := r } := by
  unfold Encoder.emitCode Encoder.mirror; simp only; split_ifs <;> rfl

theorem Encoder.step_last {e : Encoder} (hr : e.rest = []) {c : Nat} (hc : e.cur = some c) :
    e.step = { (e.emitCode c).emitCode (eoiCode e.m) with finished := true } := by
  unfold Encoder.step; rw [hr]; simp only [hc]

theorem Encoder.step_none {e : Encoder} (hr : e.rest = []) (hc : e.cur = none) :
    e.step = { e.emitCode (eoiCode e.m) with finished := true } := by
  unfold Encoder.step; rw [hr]; simp only [hc]

theorem Encoder.step_first {e : Encoder} {b : Byte} {r : List Byte} (hr : e.rest = b :: r) (hc : e.cur = none) :
    e.step = { e with rest := r, cur := some b.toNat } := by
  unfold Encoder.step; rw [hr]; simp only [hc]

theorem Encoder.step_extend {e : Encoder} {b : Byte} {r : List Byte} (hr : e.rest = b :: r) {c c' : Nat}
    (hc : e.cur = some c) (hl : e.lookup c b = some c') : e.step = { e with rest := r, cur := some c' } := by
  unfold Encoder.step; rw [hr]; simp only [hc, hl]

theorem Encoder.step_entry {e : Encoder} {b : Byte} {r : List Byte} (hr : e.rest = b :: r) {c : Nat}
    (hc : e.cur = some c) (hl : e.lookup c b = none) (hn : e.enext < 4096) :
    e.step = { e.emitCode c with rest := r, ed := { code := c, index := b, value := e.enext } :: e.ed,
                                 cur := some b.toNat } := by
  unfold Encoder.step
  simp only [hr, hc, hl]
  have h := Encoder.emitCode_withRest c r e
  rw [hc] at h
  rw [h]
  simp only [Encoder.enext, Encoder.emitCode_m, Encoder.emitCode_ed] at hn ⊢
  rw [if_pos (show firstCode e.m + e.ed.length < Config.dictSize from hn)]

theorem Encoder.step_full {e : Encoder} {b : Byte} {r : List Byte} (hr : e.rest = b :: r) {c : Nat}
    (hc : e.cur = some c) (hl : e.lookup c b = none) (hn : 4096 ≤ e.enext) :
    e.step = { (e.emitCode c).emitCode (clearCode e.m) with rest := r, ed := [], cur := some b.toNat } := by
  unfold Encoder.step
  simp only [hr, hc, hl]
  have h := Encoder.emitCode_withRest c r e
  rw [hc] at h
  rw [h]
  simp only [Encoder.enext, Encoder.emitCode_m, Encoder.emitCode_ed] at hn ⊢
  rw [if_neg (show ¬firstCode e.m + e.ed.length < Config.dictSize from Nat.not_lt.mpr hn)]
  unfold Encoder.emitClear
  have h2 := Encoder.emitCode_withRest (clearCode e.m) r (e.emitCode c)
  simp only [Encoder.emitCode_m, Encoder.emitCode_ed] at h2 ⊢
  rw [h2]

/-- Every code that is read fits the width it is read at, which is m+1 to 12. -/
theorem reads_codes {n : Nat} {m : Nat} (hm : 2 ≤ m ∧ m ≤ 8) {l : List (Nat × Nat)} {s : Codec × List Byte}
    (h : Reads n (Codec.start m, []) l s) : s.1.ok ∧ s.1.m = m ∧ ∀ x ∈ l, x.1 < 2 ^ x.2 ∧ m + 1 ≤ x.2 ∧ x.2 ≤ 12 := by
  induction h with
  | nil => exact ⟨Codec.start_ok hm, rfl, by simp⟩
  | @snoc l k out c _ hc hr ho hle ih =>
    obtain ⟨hk, hkm, hx⟩ := ih
    simp only at hk hkm ⊢
    refine ⟨?_, ?_, ?_⟩
    · unfold Codec.read
      split_ifs
      · exact Codec.start_ok ⟨hk.1, hk.2.1⟩
      · exact hk
      · exact Codec.addEntry_ok _ hk
      · exact Codec.addEntry_ok _ hk
      · exact Codec.addEntry_ok _ hk
    · unfold Codec.read
      split_ifs <;> simp [hkm, Codec.start]
    · intro x hx'
      rcases List.mem_append.1 hx' with h | h
      · exact hx x h
      · obtain rfl := List.mem_singleton.1 h
        have := hk.2.2.1; have := hk.2.2.2.1
        exact ⟨hc, by omega, by omega⟩

theorem Encoder.emitCode_first {e : Encoder} {c : Nat} (hc : c < 2 ^ e.m) (hf : e.dfirst = true) :
    (e.emitCode c).dw = e.dw := by
  unfold Encoder.emitCode Encoder.mirror
  simp only [hf, clearCode, eoiCode]
  rw [if_neg (by omega), if_neg (by omega)]
  rfl

/-- The encoding of a single index (41_compress.md R183). -/
theorem encodeIndices_one {m : Nat} {b : Byte} (hb : b.toNat < 2 ^ m) :
    (encodeIndices m [b]).codes = [(2 ^ m, m + 1), (b.toNat, m + 1), (2 ^ m + 1, m + 1)] := by
  obtain ⟨g1, g2, -, g4, g5, g6, g7⟩ := Encoder.start_facts m [b]
  obtain ⟨e, he⟩ : ∃ e : Encoder, e = { Encoder.start m [b] with rest := [], cur := some b.toNat } := ⟨_, rfl⟩
  have hem : e.m = m := by rw [he]; exact g1
  have hw : e.dw = m + 1 := by rw [he]; exact g7.width.symm
  have hf : e.dfirst = true := by rw [he]; exact g7.first
  have hcodes : e.codes = [(2 ^ m, m + 1)] := by rw [he]; exact g5
  have hfin : e.finished = false := by rw [he]; exact g6
  have h1 : encodeIndices m [b] = e.step := by
    unfold encodeIndices
    rw [List.length_singleton, Encoder.run, if_neg (by simp [g6]), Encoder.step_first g2 g4, ← he, Encoder.run,
      if_neg (by simp [hfin]), Encoder.run]
  rw [h1, Encoder.step_last (c := b.toNat) (by rw [he]) (by rw [he])]
  simp only [Encoder.emitCode_codes, hcodes, hw, Encoder.emitCode_first (show b.toNat < 2 ^ e.m by rw [hem]; exact hb) hf]
  rw [hem]
  rfl

/-! ### How many codes an encoding has -/

/-- What each turn keeps, `n` being the number of indices: every index matched allows three halves of a code, and every
entry since the last Clear has spared half of one, which the next Clear takes. -/
def Encoder.Sparse (n : Nat) (e : Encoder) : Prop :=
  e.m ≤ 8 ∧ 2 * e.codes.length + e.ed.length + 3 * e.rest.length ≤ 2 + 3 * n

theorem Encoder.sparse_step {n : Nat} {e : Encoder} (h : e.Sparse n) (hr : e.rest ≠ []) : e.step.Sparse n := by
  obtain ⟨b, r, hr⟩ := List.exists_cons_of_ne_nil hr
  obtain ⟨hm, h⟩ := h
  rw [hr, List.length_cons] at h
  cases hc : e.cur with
  | none => rw [Encoder.step_first hr hc]; exact ⟨hm, show 2 * e.codes.length + e.ed.length + 3 * r.length ≤ _ by omega⟩
  | some c =>
    cases hl : e.lookup c b with
    | some c' => rw [Encoder.step_extend hr hc hl]; exact ⟨hm, show 2 * e.codes.length + e.ed.length + 3 * r.length ≤ _ by omega⟩
    | none =>
      by_cases hn : e.enext < 4096
      · rw [Encoder.step_entry hr hc hl hn]
        refine ⟨by simpa using hm, ?_⟩
        simp only [Encoder.emitCode_codes, List.length_append, List.length_cons, List.length_nil]; omega
      · rw [Encoder.step_full hr hc hl (Nat.le_of_not_lt hn)]
        refine ⟨by simpa using hm, ?_⟩
        have := firstCode_le hm
        simp only [Encoder.enext] at hn
        simp only [Encoder.emitCode_codes, List.length_append, List.length_cons, List.length_nil]; omega

theorem Encoder.sparse_run (fuel : Nat) {n : Nat} {e : Encoder} (h : e.Sparse n) (hf : e.finished = false) :
    2 * (Encoder.run fuel e).codes.length ≤ 6 + 3 * n := by
  induction fuel generalizing e with
  | zero => have := h.2; show 2 * e.codes.length ≤ _; omega
  | succ k ih =>
    rw [Encoder.run, if_neg (by simp [hf])]
    by_cases hr : e.rest = []
    · have hl := h.2
      have hdone : ∀ e', e'.finished = true → Encoder.run k e' = e' := by
        intro e' he'; cases k <;> simp [Encoder.run, he']
      cases hc : e.cur with
      | none =>
        rw [Encoder.step_none hr hc, hdone _ rfl]
        simp only [Encoder.emitCode_codes, List.length_append, List.length_cons, List.length_nil]; omega
      | some c =>
        rw [Encoder.step_last hr hc, hdone _ rfl]
        simp only [Encoder.emitCode_codes, List.length_append, List.length_cons, List.length_nil]; omega
    · refine ih (Encoder.sparse_step h hr) ?_
      obtain ⟨b, r, hr⟩ := List.exists_cons_of_ne_nil hr
      cases hc : e.cur with
      | none => rw [Encoder.step_first hr hc]; exact hf
      | some c =>
        cases hl : e.lookup c b with
        | some c' => rw [Encoder.step_extend hr hc hl]; exact hf
        | none =>
          by_cases hn : e.enext < 4096
          · rw [Encoder.step_entry hr hc hl hn]; simpa using hf
          · rw [Encoder.step_full hr hc hl (Nat.le_of_not_lt hn)]; simpa using hf

/-- An encoding has at most three codes for two indices, and three more. -/
theorem encodeIndices_codes_le {m : Nat} (hm : m ≤ 8) (p : List Byte) :
    2 * (encodeIndices m p).codes.length ≤ 6 + 3 * p.length := by
  obtain ⟨g1, g2, g3, -, g5, g6, -⟩ := Encoder.start_facts m p
  exact Encoder.sparse_run _ ⟨by rw [g1]; exact hm, by rw [g2, g3, g5]; simp⟩ g6

/-- The widths of an encoding are m+1 at least, so its codes take three bits each and more. -/
theorem encodeIndices_bits {m : Nat} (hm : 2 ≤ m ∧ m ≤ 8) {p : List Byte} (hs : ∀ b ∈ p, b.toNat < 2 ^ m) :
    3 * (encodeIndices m p).codes.length ≤ 8 * (compressBytes m p).length := by
  have hw : ∀ x ∈ (encodeIndices m p).codes, 3 ≤ x.2 := by
    by_cases hp : p = []
    · subst hp
      rw [(encodeIndices_nil m).1]
      simp only [List.mem_cons, List.not_mem_nil, or_false, initWidth]
      rintro x (rfl | rfl) <;> exact Nat.succ_le_succ hm.1
    · obtain ⟨mid, k, hc, hrd, -, hok, hw, -⟩ := encodeIndices_reads hm hp hs
      have hmid := (reads_codes hm hrd).2.2
      rw [hc]
      intro x hx
      rcases List.mem_append.1 hx with h | h
      · have := (hmid x h).2.1; omega
      · obtain rfl := List.mem_singleton.1 h
        have := hok.1; have := hok.2.2.1
        show 3 ≤ (encodeIndices m p).dw
        omega
  have hlen : ∀ l : List (Nat × Nat), (∀ x ∈ l, 3 ≤ x.2) → 3 * l.length ≤ (streamBits l).length := by
    intro l
    induction l with
    | nil => intro _; exact Nat.le_refl 0
    | cons x l ih =>
      intro h
      have h1 := h x (List.mem_cons_self ..)
      have h2 := ih (fun y hy => h y (List.mem_cons_of_mem _ hy))
      rw [streamBits_cons, List.length_append, codeBits_length, List.length_cons]; omega
  have h1 := hlen _ hw
  have h2 := pack_length (encodeIndices m p).codes
  have h3 := frame_length m (pack (encodeIndices m p).codes)
  have h4 : (compressBytes m p).length = (frame m (pack (encodeIndices m p).codes)).length := rfl
  omega

/-- Where the index buffer and the encoding lie apart in an LMEM of legal size, the number of codes fits in CODE_COUNT
(log 25). -/
theorem compress_codes_lt {m : Nat} (hm : 2 ≤ m ∧ m ≤ 8) {p : List Byte} (hs : ∀ b ∈ p, b.toNat < 2 ^ m)
    (h : p.length + (compressBytes m p).length ≤ 2 ^ 32) : (encodeIndices m p).codes.length < 2 ^ 32 := by
  have h1 := encodeIndices_codes_le hm.2 p
  have h2 := encodeIndices_bits hm hs
  omega

end Sys2Proof.Machine
end

