-- ==== Sys2Proof/Laws/Errors.lean ====
section
/-! SUPPORT. Which error bits the elements of a DECOMPRESS set, and when (40_decompress.md R147, R148). -/

namespace Sys2Proof.Machine

theorem or_mask (a b c : BitVec 8) : (a ||| b) &&& c = (a &&& c) ||| (b &&& c) := by
  ext i; simp [Bool.and_or_distrib_right]

theorem and_mask {x a b : BitVec 8} (h : x &&& a = 0#8) (hb : b &&& a = b) : x &&& b = 0#8 := by
  rw [← hb, BitVec.and_comm b a, ← BitVec.and_assoc, h]; simp

theorem or_mask_of_zero {e r a b : BitVec 8} (h : e &&& a = 0#8) (hb : b &&& a = b) : (e ||| r) &&& b = r &&& b := by
  rw [or_mask, and_mask h hb]; simp

/-- What an element can do to the bits that say whether pixels are missing: nothing; or the command ends with it, pixels
missing or one too many. -/
theorem Decoder.advance_err {d : Decoder} (hu : d.finished = false) (hg : d.Good) :
    d.advance.2 &&& 0x1D#8 = 0#8 ∨
    (d.advance.1.finished = true ∧
      ((d.advance.2 &&& 0x08#8 = 0#8 ∧ d.advance.1.out.length < d.npix) ∨
       (d.advance.2 &&& 0x15#8 = 0#8 ∧ d.advance.1.out.length = d.npix))) := by
  cases hf : d.framed with
  | true =>
    obtain ⟨k, hk, ho, hs, hc⟩ := Decoder.advance_framed hu hf
    rcases hc with ⟨-, e⟩ | ⟨hb, ⟨k', x, e, hm', ho'⟩ | e | ⟨b, e, hb⟩⟩
    · rw [e]; exact .inr ⟨by simp [Decoder.finished, hf], .inl ⟨show errEndOfStream &&& 8#8 = 0#8 by decide, ho⟩⟩
    · rw [e]
      by_cases hr : d.npix - d.out.length < x.length
      · refine .inr ⟨?_, .inr ⟨?_, ?_⟩⟩
        · simp [Decoder.finished, Decoder.emit, Decoder.past, Decoder.withCodec, hf, Decoder.room]; omega
        · simp [Decoder.emit, errIf, Decoder.room, Decoder.past, Decoder.withCodec, hr]; decide
        · simp [Decoder.emit, Decoder.past, Decoder.withCodec, hf, Decoder.room]; omega
      · refine .inl ?_
        simp [Decoder.emit, errIf, Decoder.room, Decoder.past, Decoder.withCodec, hr]
    · rw [e]; exact .inl (by simp)
    · rw [e]; exact .inr ⟨by simp [Decoder.finished, hf, Decoder.past], .inl ⟨show b &&& 8#8 = 0#8 from by rcases hb with rfl | rfl <;> decide, ho⟩⟩
  | false =>
    obtain ⟨e1, e2, e3, e4, e5⟩ := hg.early hf
    cases hr : d.rest with
    | nil =>
      rw [Decoder.advance_empty hf hr]
      by_cases hc : (d.minCode.isNone && decide (0 < d.npix)) = true
      · simp only [Bool.and_eq_true, Option.isNone_iff_eq_none, decide_eq_true_eq] at hc
        have : d.codec = none := by
          cases hk : d.codec with
          | none => rfl
          | some k => rw [(hg.codec k hk).2] at hc; simp at hc
        refine .inr ⟨by simp [Decoder.finished, this], .inl ⟨?_, by rw [e1]; exact hc.2⟩⟩
        simp only [hc.1, Option.isNone_none, hc.2, decide_true, Bool.and_self, errIf, if_true]; decide
      · refine .inl ?_
        simp only [errIf, if_neg hc]; decide
    | cons b r =>
      refine .inl ?_
      cases hm : d.minCode with
      | none => rw [Decoder.advance_first hf hm hr]; unfold minCodeSizeEffect; split; { exact show 0#8 &&& 0x1D#8 = 0#8 by decide }; { exact show errBadMinCodeSize &&& 0x1D#8 = 0#8 by decide }
      | some m =>
        by_cases hb : b = 0#8
        · subst hb; rw [Decoder.advance_terminator hf hm hr]; exact show 0#8 &&& 0x1D#8 = 0#8 by decide
        · rw [Decoder.advance_block hf hm hb hr]; simp only [errIf]; split <;> decide

/-- END_OF_STREAM, TOO_FEW_PIXELS and BAD_CODE come with missing pixels, TOO_MANY_PIXELS with none missing. -/
theorem Decoder.run_err (fuel : Nat) {d : Decoder} (hg : d.Good) :
    ((Decoder.run fuel d).2 &&& 0x15#8 ≠ 0#8 → (Decoder.run fuel d).1.out.length < d.npix) ∧
    ((Decoder.run fuel d).2 &&& 0x08#8 ≠ 0#8 → (Decoder.run fuel d).1.out.length = d.npix) := by
  induction fuel generalizing d with
  | zero => simp [Decoder.run]
  | succ n ih =>
    cases hu : d.finished with
    | true => rw [Decoder.run_of_finished hu]; simp
    | false =>
      rw [Decoder.run_succ hu]
      rcases Decoder.advance_err hu hg with h | ⟨hfin, h⟩
      · have ih := ih (Decoder.good_advance hu hg)
        rw [Decoder.npix_advance hu] at ih
        simp only [or_mask_of_zero h (b := 0x15#8) (by decide), or_mask_of_zero h (b := 0x08#8) (by decide)]
        exact ih
      · rw [Decoder.run_of_finished hfin]
        simp only [BitVec.or_zero]
        rcases h with ⟨h1, h2⟩ | ⟨h1, h2⟩
        · exact ⟨fun _ => h2, fun h => absurd h1 h⟩
        · exact ⟨fun h => absurd h1 h, fun _ => h2⟩

/-- No element sets COMPOSITE's bits, and after the first byte none sets BAD_MIN_CODE_SIZE. -/
theorem Decoder.advance_masks {d : Decoder} (hu : d.finished = false) :
    d.advance.2 &&& 0xC0#8 = 0#8 ∧ (∀ m, d.minCode = some m → d.advance.2 &&& 0x20#8 = 0#8) := by
  cases hf : d.framed with
  | true =>
    obtain h := (Decoder.framing_advance hu hf).2.1
    exact ⟨and_mask h (by decide), fun _ _ => and_mask h (by decide)⟩
  | false =>
    cases hr : d.rest with
    | nil =>
      rw [Decoder.advance_empty hf hr]
      have : ∀ c : Bool, (errInputTruncated ||| errIf c errEndOfStream) &&& 0xC0#8 = 0#8 ∧ (errInputTruncated ||| errIf c errEndOfStream) &&& 0x20#8 = 0#8 := by decide
      exact ⟨(this _).1, fun _ _ => (this _).2⟩
    | cons b r =>
      cases hm : d.minCode with
      | none => rw [Decoder.advance_first hf hm hr]; unfold minCodeSizeEffect; split; { exact ⟨show 0#8 &&& 0xC0#8 = 0#8 by decide, by simp⟩ }; { exact ⟨show errBadMinCodeSize &&& 0xC0#8 = 0#8 by decide, by simp⟩ }
      | some m =>
        by_cases hb : b = 0#8
        · subst hb; rw [Decoder.advance_terminator hf hm hr]; simp
        · rw [Decoder.advance_block hf hm hb hr]
          simp only [errIf]
          split
          · simp; decide
          · simp

/-! ### Why pixels are missing (40_decompress.md R145, R147) -/

/-- After the first byte an element either sets no bit that says why pixels are missing, and then ends the command only
with all of them decoded or no codec running; or it stops decoding with exactly one such bit. -/
theorem Decoder.advance_why {d : Decoder} (hu : d.finished = false) (hg : d.Good) {m : Byte} (hm : d.minCode = some m) :
    (d.advance.2 &&& 0x35#8 = 0#8 ∧
      (d.advance.1.finished = true → d.advance.1.codec = none ∨ d.npix ≤ d.advance.1.out.length)) ∨
    (d.advance.1.finished = true ∧
      (d.advance.2 = errEndOfStream ∨ d.advance.2 = errBadCode ∨ d.advance.2 = errTooFewPixels)) := by
  cases hf : d.framed with
  | true =>
    obtain ⟨k, hk, ho, hs, ⟨-, e⟩ | ⟨-, ⟨k', x, e, -, -⟩ | e | ⟨b, e, hb⟩⟩⟩ := Decoder.advance_framed hu hf
    · rw [e]; exact .inr ⟨by simp [Decoder.finished, hf], .inl rfl⟩
    · rw [e]
      refine .inl ⟨?_, fun h => .inr ?_⟩
      · simp only [Decoder.emit, errIf]; split <;> decide
      · simpa [Decoder.finished, Decoder.emit, Decoder.withCodec, Decoder.past, hf, hs] using h
    · rw [e]
      refine .inl ⟨by simp, fun h => .inr ?_⟩
      simpa [Decoder.finished, Decoder.withCodec, Decoder.past, hf, hs] using h
    · rw [e]; exact .inr ⟨by simp [Decoder.finished, hf, Decoder.past], .inr hb⟩
  | false =>
    have hs := (hg.early hf).2.2.2.1
    cases hr : d.rest with
    | nil =>
      rw [Decoder.advance_empty hf hr, hm]
      exact .inl ⟨show (errInputTruncated ||| errIf false errEndOfStream) &&& 0x35#8 = 0#8 by decide,
        fun h => by simpa [Decoder.finished, hs] using h⟩
    | cons b r =>
      by_cases hb : b = 0#8
      · subst hb
        rw [Decoder.advance_terminator hf hm hr]
        exact .inl ⟨by simp, fun h => by simpa [Decoder.finished, hs] using h⟩
      · rw [Decoder.advance_block hf hm hb hr]
        refine .inl ⟨?_, fun h => ?_⟩
        · simp only [errIf]; split <;> decide
        · simp only [Decoder.finished, hs, Bool.and_eq_true, Bool.or_eq_true, Option.isNone_iff_eq_none,
            decide_eq_true_eq, Bool.false_eq_true, or_false] at h
          exact h.2

/-- With a codec running, a command that ends with pixels missing has set exactly one of END_OF_STREAM, BAD_CODE and
TOO_FEW_PIXELS. -/
theorem Decoder.run_why (fuel : Nat) {d : Decoder} (hu : d.finished = false) (hg : d.Good) {m : Byte}
    (hm : d.minCode = some m) (hk : d.codec.isSome = true) (hfin : (Decoder.run fuel d).1.finished = true)
    (hout : (Decoder.run fuel d).1.out.length < d.npix) :
    (Decoder.run fuel d).2 &&& 0x35#8 = errEndOfStream ∨ (Decoder.run fuel d).2 &&& 0x35#8 = errBadCode ∨
      (Decoder.run fuel d).2 &&& 0x35#8 = errTooFewPixels := by
  induction fuel generalizing d with
  | zero => rw [Decoder.run_zero] at hfin; rw [hu] at hfin; exact absurd hfin (by decide)
  | succ n ih =>
    have hfirst := Decoder.first_advance hu hm
    have hsome : d.advance.1.codec.isSome = true := hfirst.2.1.trans hk
    rw [Decoder.run_succ hu] at hfin hout ⊢
    rcases Decoder.advance_why hu hg hm with ⟨hz, h⟩ | ⟨hfin', h⟩
    · simp only [or_mask_of_zero hz (b := 0x35#8) (by decide)]
      cases hu' : d.advance.1.finished with
      | true =>
        rw [Decoder.run_of_finished hu'] at hout
        rcases h hu' with h | h
        · rw [h] at hsome; exact absurd hsome (by decide)
        · exact absurd hout (Nat.not_lt.2 h)
      | false =>
        exact ih hu' (Decoder.good_advance hu hg) hfirst.1 hsome hfin (by rw [Decoder.npix_advance hu]; exact hout)
    · rw [Decoder.run_of_finished hfin']
      rcases h with h | h | h <;> rw [h]
      · exact .inl (show (errEndOfStream ||| 0#8) &&& 0x35#8 = _ by decide)
      · exact .inr (.inl (show (errBadCode ||| 0#8) &&& 0x35#8 = _ by decide))
      · exact .inr (.inr (show (errTooFewPixels ||| 0#8) &&& 0x35#8 = _ by decide))

/-- Without an accepted codec no element after the first byte sets a bit that says why pixels are missing. -/
theorem Decoder.advance_noCodec {d : Decoder} (hu : d.finished = false) {m : Byte} (hm : d.minCode = some m)
    (hk : d.codec = none) :
    (d.advance.1.minCode = some m ∧ d.advance.1.codec = none) ∧ d.advance.2 &&& 0x35#8 = 0#8 := by
  have hfirst := Decoder.first_advance hu hm
  rw [hk, Option.isSome_none, Option.isSome_eq_false_iff, Option.isNone_iff_eq_none] at hfirst
  refine ⟨⟨hfirst.1, hfirst.2.1⟩, ?_⟩
  cases hf : d.framed with
  | true =>
    obtain ⟨⟨k, hk'⟩, -⟩ := Decoder.unfinished hu hf
    rw [hk] at hk'; exact absurd hk' (by simp)
  | false =>
    cases hr : d.rest with
    | nil => rw [Decoder.advance_empty hf hr, hm]; exact show (errInputTruncated ||| errIf false errEndOfStream) &&& 0x35#8 = 0#8 by decide
    | cons b r =>
      by_cases hb : b = 0#8
      · subst hb; rw [Decoder.advance_terminator hf hm hr]; simp
      · rw [Decoder.advance_block hf hm hb hr]; simp only [errIf]; split <;> decide

/-- A DECOMPRESS that ends with pixels missing has set exactly one of END_OF_STREAM, TOO_FEW_PIXELS, BAD_CODE and
BAD_MIN_CODE_SIZE. -/
theorem decodeStream_why {npix : Nat} {input : List Byte} (hout : (decodeStream npix input).1.out.length < npix) :
    (decodeStream npix input).2 &&& 0x35#8 = errEndOfStream ∨ (decodeStream npix input).2 &&& 0x35#8 = errTooFewPixels ∨
      (decodeStream npix input).2 &&& 0x35#8 = errBadCode ∨
      (decodeStream npix input).2 &&& 0x35#8 = errBadMinCodeSize := by
  cases input with
  | nil =>
    rw [decodeStream_nil] at hout ⊢
    simp only [Decoder.start, List.length_nil] at hout
    simp only [hout, decide_true]
    exact .inl (by decide)
  | cons m rest =>
    obtain ⟨hf, hm, -, -, -, -, hc⟩ := Decoder.afterFirst_fields npix m rest
    have hu := Decoder.finished_framed hf
    have hfin := decodeStream_finished npix (m :: rest)
    have hg : (Decoder.afterFirst npix m rest).Good := by
      have := Decoder.good_advance rfl (Decoder.good_start npix (m :: rest))
      rwa [Decoder.advance_first rfl rfl rfl] at this
    have hn : (Decoder.afterFirst npix m rest).npix = npix := by
      unfold Decoder.afterFirst minCodeSizeEffect; split <;> rfl
    rw [decodeStream_cons] at hout hfin ⊢
    cases ha : acceptsM m.toNat with
    | true =>
      rw [ha, if_pos rfl] at hc
      have := Decoder.run_why (9 * rest.length + 11) hu hg hm (by rw [hc]; rfl) hfin (by rw [hn]; exact hout)
      simp only [firstByteErr, ha, Bool.not_true, errIf, Bool.false_eq_true, if_false, BitVec.zero_or]
      rcases this with h | h | h
      · exact .inl h
      · exact .inr (.inr (.inl h))
      · exact .inr (.inl h)
    | false =>
      rw [ha, if_neg (by decide)] at hc
      have := Decoder.run_bits (fun d => d.minCode = some m ∧ d.codec = none) 0x35#8
        (fun d hu h => Decoder.advance_noCodec hu h.1 h.2) (9 * rest.length + 11) _ ⟨hm, hc⟩
      rw [or_mask, this]
      simp only [firstByteErr, ha, Bool.not_false, errIf, if_true]
      exact .inr (.inr (.inr (by decide)))

end Sys2Proof.Machine
end

