-- ==== Sys2Proof/Laws/Commands.lean ====
section
/-! SUPPORT. What the completion step of each command does: it ends with `complete`, on a state that differs from the one
before in result registers and in bytes of the write regions only. -/

namespace Sys2Proof.Machine

/-! ### Lengths of what the commands write -/

theorem disposedCanvas_length (s : State) : (disposedCanvas s).length = s.regs.screenW * s.regs.screenH := by
  unfold disposedCanvas
  simp only
  split <;> split <;> simp [fillRect, seedCanvas, blankCanvas]

theorem Compositor.place_canvas_length (c : Compositor) : c.place.1.canvas.length = c.canvas.length := by
  unfold Compositor.place
  split_ifs <;> simp [Compositor.put]

theorem Compositor.advance_canvas_length (c : Compositor) : c.advance.1.canvas.length = c.canvas.length := by
  rw [← Compositor.place_canvas_length c]
  unfold Compositor.advance Compositor.next
  simp only
  split <;> rfl

theorem Compositor.run_canvas_length (fuel : Nat) (c : Compositor) :
    (Compositor.run fuel c).1.canvas.length = c.canvas.length := by
  induction fuel generalizing c with
  | zero => rfl
  | succ n ih =>
    unfold Compositor.run
    split
    · rfl
    · exact (ih _).trans (Compositor.advance_canvas_length c)

theorem compositeCanvas_length (s : State) : (compositeCanvas s).1.length = s.regs.screenW * s.regs.screenH := by
  unfold compositeCanvas
  split
  · simp [blankCanvas]
  · exact (Compositor.run_canvas_length ..).trans (disposedCanvas_length s)

theorem canvas_bytes_length (c : List Pixel) : (c.flatMap Pixel.bytes).length = 4 * c.length := by
  induction c with
  | nil => rfl
  | cons p c ih => simp only [List.flatMap_cons, List.length_append, ih, Pixel.bytes, List.length_cons, List.length_nil]; omega

/-! ### The state `complete` starts from -/

/-- `t` is `s` but for result registers and bytes of the write regions of `op`; the error bits `bits` are set. -/
structure Worked (op : Opcode) (bits : ErrBits) (s t : State) : Prop where
  frame : t = { s with regs := t.regs, mem := t.mem }
  status : t.regs.status = s.regs.status
  lastErr : t.regs.lastErr = s.regs.lastErr ||| bits
  errState : t.regs.errState = s.regs.errState ||| bits
  regs : t.regs = { s.regs with errState := t.regs.errState, lastErr := t.regs.lastErr, pixCount := t.regs.pixCount,
                                outLen := t.regs.outLen, lzwInfo := t.regs.lzwInfo, lzwCodes := t.regs.lzwCodes,
                                inPos := t.regs.inPos, blockCount := t.regs.blockCount, codeCount := t.regs.codeCount,
                                lzwState := t.regs.lzwState }
  regions : regionsOf op t.regs = regionsOf op s.regs
  bytes : ∃ a vs, t.mem = s.mem.setBytes a vs ∧
    (vs = [] ∨ ∃ g ∈ regionsOf op s.regs, g.write = true ∧ g.base = a ∧ vs.length ≤ g.len ∧
      g.inBounds s.params.lmemSize = true)

theorem worked_self (op : Opcode) (s : State) : Worked op 0#8 s s :=
  ⟨rfl, rfl, by simp, by simp, rfl, rfl, 0, [], rfl, .inl rfl⟩

theorem finishCompress_full {e : Encoder} {s : State} (h : s.regs.outCap.toNat < (frame e.m (pack e.codes)).length) :
    finishCompress e s =
      complete .compress (some .outputCapacity)
        { s with mem := s.mem.setBytes s.regs.outBase.toNat ((frame e.m (pack e.codes)).take s.regs.outCap.toNat),
                 regs := { s.regs with outLen := s.regs.outCap } } := by
  unfold finishCompress
  exact if_pos h

theorem finishCompress_fits {e : Encoder} {s : State} (h : ¬s.regs.outCap.toNat < (frame e.m (pack e.codes)).length) :
    finishCompress e s =
      complete .compress none
        { s with mem := s.mem.setBytes s.regs.outBase.toNat (frame e.m (pack e.codes)), regs := e.results s.regs } := by
  unfold finishCompress
  exact if_neg h

/-- Everything the completion step of a command can do. -/
theorem exec_command (op : Opcode) (s : State) :
    ∃ c bits t, exec op.instr s = .next (complete op c t) ∧ Worked op bits s t ∧
      (op = .nop ∨ op = .compress ∨ c ≠ none → bits = 0#8) := by
  cases op with
  | nop => exact ⟨none, 0#8, s, rfl, worked_self .nop s, fun _ => rfl⟩
  | decompress =>
    show ∃ c bits t, execDecompress s = _ ∧ _
    unfold execDecompress
    cases hf : regionFault s.params.lmemSize (regionsOf .decompress s.regs) with
    | some c => exact ⟨some c, 0#8, s, rfl, worked_self _ s, fun _ => rfl⟩
    | none =>
      have hb := ((regionFault_none_iff _ _).1 hf).1
      have hg := Decoder.good_run (decodeFuel s.regs.inLen.toNat)
        (Decoder.good_start s.regs.npix (readBytes s s.regs.inBase.toNat s.regs.inLen.toNat))
      change (Decoder.run (decodeFuel s.regs.inLen.toNat) (startDecompress s)).1.Good at hg
      have hn := Decoder.npix_run (decodeFuel s.regs.inLen.toNat) (startDecompress s)
      refine ⟨none, _, _, rfl, ⟨rfl, rfl, rfl, rfl, rfl, rfl, s.regs.pixBase.toNat,
        (Decoder.run (decodeFuel s.regs.inLen.toNat) (startDecompress s)).1.pixels, rfl, .inr ?_⟩, by simp⟩
      refine ⟨{ base := s.regs.pixBase.toNat, len := s.regs.npix, write := true }, by simp [regionsOf], rfl, rfl, ?_, ?_⟩
      · rw [Decoder.pixels_length hg.count]
        exact Nat.le_of_eq hn
      · exact List.all_eq_true.1 hb _ (by simp [regionsOf])
  | compress =>
    show ∃ c bits t, execCompress s = _ ∧ _
    unfold execCompress
    cases hf : compressFault s with
    | some c => exact ⟨some c, 0#8, s, rfl, worked_self _ s, fun _ => rfl⟩
    | none =>
      have hb : Region.inBounds s.params.lmemSize { base := s.regs.outBase.toNat, len := s.regs.outCap.toNat, write := true }
          = true := by
        rw [compressFault_eq] at hf
        split_ifs at hf with _ h2
        rw [Region.inBounds_iff]
        exact h2.2
      simp only
      generalize encodeIndices s.regs.lzwCfg.toNat (compressInput s) = e
      by_cases hc : s.regs.outCap.toNat < (frame e.m (pack e.codes)).length
      · rw [finishCompress_full hc]
        refine ⟨_, 0#8, _, rfl, ⟨rfl, rfl, by simp, by simp, rfl, rfl, s.regs.outBase.toNat, _, rfl, .inr ?_⟩, fun _ => rfl⟩
        exact ⟨{ base := s.regs.outBase.toNat, len := s.regs.outCap.toNat, write := true }, by simp [regionsOf], rfl, rfl,
          by rw [List.length_take]; exact Nat.min_le_left .., hb⟩
      · rw [finishCompress_fits hc]
        generalize hfr : frame e.m (pack e.codes) = out at hc ⊢
        refine ⟨none, 0#8, { s with mem := s.mem.setBytes s.regs.outBase.toNat out, regs := e.results s.regs }, rfl,
          ⟨rfl, rfl, by simp [Encoder.results], by simp [Encoder.results], rfl, rfl, s.regs.outBase.toNat, out, rfl,
            .inr ?_⟩, fun _ => rfl⟩
        exact ⟨{ base := s.regs.outBase.toNat, len := s.regs.outCap.toNat, write := true }, by simp [regionsOf], rfl, rfl,
          Nat.not_lt.1 hc, hb⟩
  | composite =>
    show ∃ c bits t, execComposite s = _ ∧ _
    unfold execComposite
    cases hf : compositeFault s with
    | some c => exact ⟨some c, 0#8, s, rfl, worked_self _ s, fun _ => rfl⟩
    | none =>
      have hb : regionFault s.params.lmemSize (regionsOf .composite s.regs) = none := by
        unfold compositeFault at hf
        split_ifs at hf
        exact hf
      have hb := ((regionFault_none_iff _ _).1 hb).1
      have hl := compositeCanvas_length s
      generalize compositeCanvas s = e at hl ⊢
      refine ⟨none, e.2, { setErr e.2 s with mem := s.mem.setBytes s.regs.canvasBase.toNat (e.1.flatMap Pixel.bytes) }, rfl,
        ⟨rfl, rfl, rfl, rfl, rfl, rfl, s.regs.canvasBase.toNat, e.1.flatMap Pixel.bytes, rfl, .inr ?_⟩, by simp⟩
      refine ⟨{ base := s.regs.canvasBase.toNat, len := s.regs.canvasBytes, write := true }, by simp [regionsOf], rfl, rfl,
        ?_, ?_⟩
      · rw [canvas_bytes_length, hl]; exact Nat.le_refl _
      · exact List.all_eq_true.1 hb _ (by simp [regionsOf])

theorem Worked.outside {op : Opcode} {bits : ErrBits} {s t : State} (h : Worked op bits s t) {a : Nat}
    (ha : (regionsOf op s.regs).any (fun g => g.write && g.has a) = false) : readByte t a = readByte s a := by
  obtain ⟨b, vs, hm, hv⟩ := h.bytes
  have he : t.epoch = s.epoch := by rw [h.frame]
  rw [readByte_setBytes s t b vs a he hm, if_neg]
  rintro ⟨h1, h2⟩
  rcases hv with rfl | ⟨g, hg, hw, rfl, hl, -⟩
  · simp at h2; omega
  · have := List.any_eq_false.1 ha g hg
    rw [hw] at this
    simp only [Region.has, Bool.true_and, decide_eq_true_eq, not_and_or, not_le, not_lt] at this
    omega

theorem Worked.mem {op : Opcode} {bits : ErrBits} {s t : State} (h : Worked op bits s t) (hw : s.mem.wf = true)
    (hb : s.mem.below s.params.lmemSize) : t.mem.wf = true ∧ t.mem.below s.params.lmemSize := by
  obtain ⟨b, vs, hm, hv⟩ := h.bytes
  rw [hm]
  refine ⟨Memory.wf_setBytes _ _ hw, Memory.below_setBytes hb ?_⟩
  rcases hv with rfl | ⟨g, hg, -, rfl, hl, hi⟩
  · exact .inl rfl
  · rcases (Region.inBounds_iff _ _).1 hi with h0 | h0
    · left; exact List.eq_nil_of_length_eq_zero (by omega)
    · right; omega

end Sys2Proof.Machine
end

