-- ==== Sys2Proof/Laws/Compositor.lean ====
section
/-! SUPPORT. The pixel loop of COMPOSITE: the row map is a permutation, each canvas position is drawn at most once, and
what each position holds at the end (42_composite.md R207 to R212). -/

namespace Sys2Proof.Machine

/-! ### The row map (R207) -/

theorem mem_rowMap (il : Bool) (h y : Nat) : y ∈ rowMap il h ↔ y < h := by
  cases il
  · simp [rowMap]
  · simp only [rowMap, if_true, List.mem_append, List.mem_filter, List.mem_range, beq_iff_eq]
    omega

theorem rowMap_nodup (il : Bool) (h : Nat) : (rowMap il h).Nodup := by
  cases il
  · simpa [rowMap] using List.nodup_range
  · simp only [rowMap, if_true]
    have hn : ∀ p : Nat → Bool, ((List.range h).filter p).Nodup := fun p => List.nodup_range.filter p
    refine List.Nodup.append (List.Nodup.append (List.Nodup.append (hn _) (hn _) ?_) (hn _) ?_) (hn _) ?_
    · intro y h1 h2
      simp only [List.mem_filter, beq_iff_eq] at h1 h2
      omega
    · intro y h1 h2
      simp only [List.mem_append, List.mem_filter, beq_iff_eq] at h1 h2
      omega
    · intro y h1 h2
      simp only [List.mem_append, List.mem_filter, beq_iff_eq] at h1 h2
      omega

theorem rowMap_length (il : Bool) (h : Nat) : (rowMap il h).length = h := by
  have : (rowMap il h).Perm (List.range h) :=
    (List.perm_ext_iff_of_nodup (rowMap_nodup il h) List.nodup_range).2 (fun y => by
      rw [mem_rowMap, List.mem_range])
  rw [this.length_eq, List.length_range]

/-! ### The pixel loop (R208) -/

/-- The compositor with its counters at the n-th pixel of the stream, and with canvas C. -/
def Compositor.at (c : Compositor) (n : Nat) (canvas : List Pixel) : Compositor :=
  { c with row := n / c.w, col := n % c.w, canvas := canvas }

/-- Where the n-th pixel lands, its index, and what it draws: none where it is clipped or transparent. -/
def Compositor.xAt (c : Compositor) (n : Nat) : Nat := c.x + n % c.w
def Compositor.yAt (c : Compositor) (n : Nat) : Nat := c.y + c.rows.getD (n / c.w) 0
def Compositor.indexAt (c : Compositor) (n : Nat) : Byte := c.pix.getD n 0#8
def Compositor.shows (c : Compositor) (n : Nat) : Prop := c.xAt n < c.sw ∧ c.yAt n < c.sh
def Compositor.draws (c : Compositor) (n : Nat) : Prop := c.shows n ∧ c.transparent ≠ some (c.indexAt n)
def Compositor.bad (c : Compositor) (n : Nat) : Prop := c.draws n ∧ c.ctLen ≤ (c.indexAt n).toNat
def Compositor.colourAt (c : Compositor) (n : Nat) : Pixel :=
  if c.ctLen ≤ (c.indexAt n).toNat then Pixel.black else tableColour c.table (c.indexAt n).toNat

theorem Compositor.at_index (c : Compositor) (n : Nat) (canvas : List Pixel) : (c.at n canvas).index = c.indexAt n := by
  show c.pix.getD (n / c.w * c.w + n % c.w) 0#8 = c.pix.getD n 0#8
  rw [Nat.div_add_mod']

theorem Compositor.at_next (c : Compositor) (n : Nat) (canvas : List Pixel) (hw : c.w ≠ 0) :
    (c.at n canvas).next = c.at (n + 1) canvas := by
  have hlt := Nat.mod_lt n (Nat.pos_of_ne_zero hw)
  have hdm := Nat.div_add_mod n c.w
  unfold Compositor.next
  show (if n % c.w + 1 < c.w then _ else _) = _
  split
  · next h =>
    have h1 : (n + 1) / c.w = n / c.w ∧ (n + 1) % c.w = n % c.w + 1 := by
      have : n + 1 = n % c.w + 1 + c.w * (n / c.w) := by omega
      rw [this, Nat.add_mul_div_left _ _ (Nat.pos_of_ne_zero hw), Nat.add_mul_mod_self_left,
        Nat.div_eq_of_lt h, Nat.mod_eq_of_lt h, Nat.zero_add]
      exact ⟨rfl, rfl⟩
    simp only [Compositor.at, h1]
  · next h =>
    have h1 : (n + 1) / c.w = n / c.w + 1 ∧ (n + 1) % c.w = 0 := by
      have : n + 1 = c.w * (n / c.w + 1) := by rw [Nat.mul_add]; omega
      rw [this, Nat.mul_div_cancel_left _ (Nat.pos_of_ne_zero hw), Nat.mul_mod_right]
      exact ⟨rfl, rfl⟩
    simp only [Compositor.at, h1]

/-- One turn at the n-th pixel. -/
theorem Compositor.at_advance (c : Compositor) (n : Nat) (canvas : List Pixel) (hw : c.w ≠ 0) :
    (c.draws n ∧ (c.at n canvas).advance.1 = c.at (n + 1) (canvas.set (c.yAt n * c.sw + c.xAt n) (c.colourAt n)) ∧
      (c.at n canvas).advance.2 = errIf (decide (c.ctLen ≤ (c.indexAt n).toNat)) errBadColourIndex) ∨
    (¬c.draws n ∧ (c.at n canvas).advance = (c.at (n + 1) canvas, 0#8)) := by
  have hp : (c.at n canvas).place =
      if c.sw ≤ c.xAt n ∨ c.sh ≤ c.yAt n then (c.at n canvas, 0#8)
      else if c.transparent = some (c.indexAt n) then (c.at n canvas, 0#8)
      else if c.ctLen ≤ (c.indexAt n).toNat then
        (c.at n (canvas.set (c.yAt n * c.sw + c.xAt n) Pixel.black), errBadColourIndex)
      else (c.at n (canvas.set (c.yAt n * c.sw + c.xAt n) (tableColour c.table (c.indexAt n).toNat)), 0#8) := by
    unfold Compositor.place
    rw [c.at_index n canvas]
    rfl
  unfold Compositor.advance
  rw [hp]
  by_cases h1 : c.sw ≤ c.xAt n ∨ c.sh ≤ c.yAt n
  · right
    refine ⟨fun h => ?_, by rw [if_pos h1, c.at_next n canvas hw]⟩
    have := h.1
    unfold Compositor.shows at this
    omega
  · rw [if_neg h1]
    by_cases h2 : c.transparent = some (c.indexAt n)
    · right
      exact ⟨fun h => h.2 h2, by rw [if_pos h2, c.at_next n canvas hw]⟩
    · left
      rw [if_neg h2]
      refine ⟨⟨by unfold Compositor.shows; omega, h2⟩, ?_⟩
      unfold Compositor.colourAt
      by_cases h3 : c.ctLen ≤ (c.indexAt n).toNat
      · rw [if_pos h3, if_pos h3]
        exact ⟨c.at_next n _ hw, by simp [h3, errIf]⟩
      · rw [if_neg h3, if_neg h3]
        exact ⟨c.at_next n _ hw, by simp [h3, errIf]⟩

/-- Two pixels of one image that are shown land on different positions. -/
theorem Compositor.position_inj {c : Compositor} (hl : c.rows.length = c.h) (hn : c.rows.Nodup) {n m : Nat}
    (h1 : n < c.w * c.h) (h2 : m < c.w * c.h) (s1 : c.shows n) (s2 : c.shows m)
    (h : c.yAt n * c.sw + c.xAt n = c.yAt m * c.sw + c.xAt m) : n = m := by
  have hxy : c.yAt n = c.yAt m ∧ c.xAt n = c.xAt m := by
    have d1 : (c.yAt n * c.sw + c.xAt n) / c.sw = c.yAt n := by
      rw [Nat.mul_comm, Nat.mul_add_div (by have := s1.1; omega), Nat.div_eq_of_lt s1.1, Nat.add_zero]
    have d2 : (c.yAt m * c.sw + c.xAt m) / c.sw = c.yAt m := by
      rw [Nat.mul_comm, Nat.mul_add_div (by have := s2.1; omega), Nat.div_eq_of_lt s2.1, Nat.add_zero]
    have hy : c.yAt n = c.yAt m := by rw [← d1, ← d2, h]
    rw [hy] at h
    exact ⟨hy, by omega⟩
  have hr : ∀ k, k < c.w * c.h → k / c.w < c.rows.length := by
    intro k hk
    rw [hl]
    exact Nat.div_lt_of_lt_mul hk
  have hrow : n / c.w = m / c.w := by
    have e : c.rows.getD (n / c.w) 0 = c.rows.getD (m / c.w) 0 := by
      have := hxy.1
      unfold Compositor.yAt at this
      omega
    rw [List.getD_eq_getElem _ _ (hr n h1), List.getD_eq_getElem _ _ (hr m h2)] at e
    exact (List.Nodup.getElem_inj_iff hn).1 e
  have hcol : n % c.w = m % c.w := by
    have := hxy.2
    unfold Compositor.xAt at this
    omega
  rw [← Nat.div_add_mod n c.w, ← Nat.div_add_mod m c.w, hrow, hcol]

/-- From the n-th pixel on: a position no later pixel is drawn at keeps what it holds, one that a later pixel is drawn at
takes that pixel's colour; BAD_COLOUR_INDEX is set where a later drawn index is bad. -/
theorem Compositor.run_at {c : Compositor} (hw : c.w ≠ 0) (hl : c.rows.length = c.h) (hn : c.rows.Nodup)
    (fuel n : Nat) (hf : n + fuel = c.w * c.h) (canvas : List Pixel) (hc : canvas.length = c.sw * c.sh) :
    let r := Compositor.run fuel (c.at n canvas)
    (∀ q, q < canvas.length →
      ((∀ m, n ≤ m → m < c.w * c.h → c.draws m → c.yAt m * c.sw + c.xAt m ≠ q) →
        r.1.canvas.getD q Pixel.blank = canvas.getD q Pixel.blank) ∧
      (∀ m, n ≤ m → m < c.w * c.h → c.draws m → c.yAt m * c.sw + c.xAt m = q →
        r.1.canvas.getD q Pixel.blank = c.colourAt m)) ∧
    ((∃ m, n ≤ m ∧ m < c.w * c.h ∧ c.bad m) → r.2 = errBadColourIndex) ∧
    ((∀ m, n ≤ m → m < c.w * c.h → ¬c.bad m) → r.2 = 0#8) := by
  induction fuel generalizing n canvas with
  | zero =>
    refine ⟨fun q _ => ⟨fun _ => rfl, fun m h1 h2 => ?_⟩, fun ⟨m, h1, h2, _⟩ => ?_, fun _ => rfl⟩ <;> omega
  | succ f ih =>
    have hfin : (c.at n canvas).finished = false := by
      show (c.w == 0 || decide (c.h ≤ n / c.w)) = false
      have : n / c.w < c.h := Nat.div_lt_of_lt_mul (by omega)
      simp [hw]
      exact this
    have hrun : Compositor.run (f + 1) (c.at n canvas) =
        ((Compositor.run f (c.at n canvas).advance.1).1,
          (c.at n canvas).advance.2 ||| (Compositor.run f (c.at n canvas).advance.1).2) := by
      rw [Compositor.run, if_neg (by simp [hfin])]
    rw [hrun]
    rcases c.at_advance n canvas hw with ⟨hd, h1, h2⟩ | ⟨hd, h1⟩
    · obtain ⟨i1, i2, i3⟩ := ih (n + 1) (by omega) (canvas.set (c.yAt n * c.sw + c.xAt n) (c.colourAt n)) (by simpa using hc)
      rw [h1, h2]
      have hpos : c.yAt n * c.sw + c.xAt n < canvas.length := by
        rw [hc]
        have hx := hd.1.1
        have hy := hd.1.2
        calc c.yAt n * c.sw + c.xAt n < c.yAt n * c.sw + c.sw := by omega
          _ = (c.yAt n + 1) * c.sw := by rw [Nat.add_mul, Nat.one_mul]
          _ ≤ c.sh * c.sw := Nat.mul_le_mul_right _ hy
          _ = c.sw * c.sh := Nat.mul_comm ..
      refine ⟨fun q hq => ⟨fun hno => ?_, fun m m1 m2 m3 m4 => ?_⟩, ?_, ?_⟩
      · rw [(i1 q (by simpa using hq)).1 (fun m m1 m2 m3 => hno m (by omega) m2 m3)]
        have : c.yAt n * c.sw + c.xAt n ≠ q := hno n (Nat.le_refl _) (by omega) hd
        rw [List.getD_eq_getElem?_getD, List.getElem?_set_ne this, ← List.getD_eq_getElem?_getD]
      · by_cases hm : m = n
        · subst hm
          rw [(i1 q (by simpa using hq)).1]
          · rw [List.getD_eq_getElem?_getD, ← m4, List.getElem?_set_self hpos, Option.getD_some]
          · intro k k1 k2 k3 k4
            have := Compositor.position_inj hl hn k2 m2 k3.1 m3.1 (k4.trans m4.symm)
            omega
        · exact (i1 q (by simpa using hq)).2 m (by omega) m2 m3 m4
      · rintro ⟨m, m1, m2, m3⟩
        by_cases hb : c.ctLen ≤ (c.indexAt n).toNat
        · have : ∀ x, x = errBadColourIndex ∨ x = 0#8 → errIf true errBadColourIndex ||| x = errBadColourIndex := by
            rintro x (rfl | rfl) <;> decide
          simp only [hb, decide_true]
          apply this
          by_cases hex : ∃ m, n + 1 ≤ m ∧ m < c.w * c.h ∧ c.bad m
          · exact .inl (i2 hex)
          · exact .inr (i3 (fun m a b d => hex ⟨m, a, b, d⟩))
        · have hm : m ≠ n := by rintro rfl; exact hb m3.2
          rw [i2 ⟨m, by omega, m2, m3⟩]
          simp [hb, errIf]
      · intro hno
        have hb : ¬c.ctLen ≤ (c.indexAt n).toNat := fun hb => hno n (Nat.le_refl _) (by omega) ⟨hd, hb⟩
        rw [i3 (fun m a b => hno m (by omega) b)]
        simp [hb, errIf]
    · obtain ⟨i1, i2, i3⟩ := ih (n + 1) (by omega) canvas hc
      rw [h1]
      simp only [BitVec.zero_or]
      refine ⟨fun q hq => ⟨fun hno => ?_, fun m m1 m2 m3 m4 => ?_⟩, ?_, ?_⟩
      · exact (i1 q hq).1 (fun m m1 m2 m3 => hno m (by omega) m2 m3)
      · have hm : m ≠ n := by rintro rfl; exact hd m3
        exact (i1 q hq).2 m (by omega) m2 m3 m4
      · rintro ⟨m, m1, m2, m3⟩
        have hm : m ≠ n := by rintro rfl; exact hd m3.1
        exact i2 ⟨m, by omega, m2, m3⟩
      · intro hno
        exact i3 (fun m a b => hno m (by omega) b)

end Sys2Proof.Machine
end

