-- ==== Sys2Proof/Laws/Elements.lean ====
section
/-! SUPPORT. What the meaning of an element does: the one effect its class has, and nothing else; and how the steps of a
decompressor, a compressor or a compositor follow their runs (log 7). -/

namespace Sys2Proof.Machine

/-! ### Meanings of codes and framing elements -/

theorem codecM_eq {s : State} {d : Decoder} {k : Codec} (hd : s.datapath = .decoder d) (hk : d.codec = some k) :
    codecM s = k.m := by simp [codecM, hd, hk]

theorem runCode_next {s : State} {d : Decoder} {k : Codec} (hd : s.datapath = .decoder d) (hk : d.codec = some k)
    {i : Instr} {c : Nat} (f : Codec → Decoder → Effect) (h : k.classify c = i) :
    runCode i c f s = .next (applyEffect (f k d) s) := by simp [runCode, hd, hk, h]

/-- A code's meaning answers a next state only as an effect on the datapath. -/
theorem runCode_effect {i : Instr} {c : Nat} {f : Codec → Decoder → Effect} {s t : State} (h : runCode i c f s = .next t) :
    ∃ e, t = applyEffect e s := by
  unfold runCode at h
  split at h <;> try contradiction
  split at h <;> try contradiction
  split at h <;> try contradiction
  injection h with h
  exact ⟨_, h.symm⟩

/-- So does a framing element's. -/
theorem runElement_effect {b : Bool} {f : Decoder → Effect} {s t : State} (h : runElement b f s = .next t) :
    ∃ e, t = applyEffect e s := by
  unfold runElement at h
  split at h <;> try contradiction
  split at h <;> try contradiction
  injection h with h
  exact ⟨_, h.symm⟩

theorem runCode_idle {s : State} (hd : s.datapath = .idle) (i : Instr) (c : Nat) (f : Codec → Decoder → Effect) :
    runCode i c f s = .fault .noElementStream := by unfold runCode; rw [hd]

theorem runElement_idle {s : State} (hd : s.datapath = .idle) (b : Bool) (f : Decoder → Effect) :
    runElement b f s = .fault .noElementStream := by unfold runElement; rw [hd]

theorem runElement_next {s : State} {d : Decoder} (hd : s.datapath = .decoder d) (hf : d.framed = false)
    {first : Bool} (hm : d.minCode.isNone = first) (f : Decoder → Effect) :
    runElement first f s = .next (applyEffect (f d) s) := by simp [runElement, hd, hf, hm]

/-- The meaning of the instruction a code is of has the effect the completion step gives it. -/
theorem exec_code {s : State} {d : Decoder} {k : Codec} (hd : s.datapath = .decoder d) (hk : d.codec = some k) (c : Nat) :
    exec (k.classify c) s = .next (applyEffect (elementEffect (k.classify c) d) s) := by
  have hon : ∀ f, onCodec f d = f k d := fun f => by simp [onCodec, hk]
  have key : ∀ i, k.classify c = i → exec i s = .next (applyEffect (elementEffect i d) s) := by
    intro i hi
    unfold Codec.classify classify at hi
    split_ifs at hi with h1 h2 h3 h4 h5 h6 <;> subst hi
    · show execClear s = _
      rw [execClear, codecM_eq hd hk, runCode_next hd hk _ (by rw [← h1]; simp [Codec.classify, classify, h1])]
      simp [elementEffect, hon]
    · show execEoi s = _
      rw [execEoi, codecM_eq hd hk, runCode_next hd hk _ (by rw [← h2]; simp [Codec.classify, classify, h2, eoiCode, clearCode])]
      simp [elementEffect, hon]
    · show execLiteralFirst c s = _
      rw [execLiteralFirst, runCode_next hd hk _ (by simp [Codec.classify, classify, h1, h2, h3, h4])]
      simp [elementEffect, hon]
    · show execLiteral c s = _
      rw [execLiteral, runCode_next hd hk _ (by simp [Codec.classify, classify, h1, h2, h3, h4])]
      simp [elementEffect, hon]
    · show execDict c s = _
      rw [execDict, runCode_next hd hk _ (by rw [Codec.classify, classify, if_neg h1, if_neg h2, if_neg h3, if_pos h5])]
      simp [elementEffect, hon]
    · show execKwkwk c s = _
      rw [execKwkwk, runCode_next hd hk _
        (by rw [Codec.classify, classify, if_neg h1, if_neg h2, if_neg h3, if_neg h5, if_pos h6])]
      simp [elementEffect, hon]
    · show execBadcode c s = _
      rw [execBadcode, runCode_next hd hk _
        (by rw [Codec.classify, classify, if_neg h1, if_neg h2, if_neg h3, if_neg h5, if_neg h6])]
      simp [elementEffect, hon]
  exact key _ rfl

/-! ### A step inside a completion step -/

/-- One step inside a DECOMPRESS that has not ended is one element of its run. -/
theorem step_decoder {s : State} {d : Decoder} (hd : s.datapath = .decoder d) (hu : d.finished = false) :
    step s = .next (applyEffect d.advance s) := by
  unfold step
  rw [hd]
  simp only
  unfold decoderTurn
  rw [if_neg (by simp [hu])]
  unfold Decoder.advance Decoder.fetch
  by_cases hf : d.framed = false
  · rw [if_pos hf]
    unfold Decoder.fetchElement
    cases hr : d.rest with
    | nil => simp [decodeElement]
    | cons b r =>
      cases hm : d.minCode with
      | none =>
        simp only [decodeElement, Option.isNone_none, if_true, elementEffect]
        show execMinCodeSize b _ = _
        rw [execMinCodeSize, runElement_next rfl (by exact hf) (by simp)]
        rfl
      | some m =>
        by_cases hb : b = 0#8
        · simp only [decodeElement, Option.isNone_some, Bool.false_eq_true, if_false, hb, if_true, elementEffect]
          show execTerminator _ = _
          rw [execTerminator, runElement_next rfl (by exact hf) (by simp)]
          rfl
        · simp only [decodeElement, Option.isNone_some, Bool.false_eq_true, if_false, hb, elementEffect]
          show execDataBlock _ _ _ = _
          rw [execDataBlock, runElement_next rfl (by exact hf) (by simp)]
          rfl
  · rw [if_neg hf]
    cases hk : d.codec with
    | none => simp only
    | some k =>
      simp only
      unfold Decoder.fetchCode
      by_cases hb : 8 * d.data.length < d.bitPos + k.width
      · rw [if_pos hb]
      · rw [if_neg hb]
        simp only
        rw [exec_code (d := { d with bitPos := d.bitPos + k.width, codes := d.codes + 1 }) rfl hk]
        rfl

theorem step_decoder_end {s : State} {d : Decoder} (hd : s.datapath = .decoder d) (hu : d.finished = true) :
    step s = .next (finishDecompress d s) := by
  unfold step
  rw [hd]
  simp only
  unfold decoderTurn
  rw [if_pos hu]

theorem step_encoder {s : State} {e : Encoder} (hd : s.datapath = .encoder e) (hu : e.finished = false) :
    step s = .next { s with datapath := .encoder e.step } := by
  unfold step
  rw [hd]
  simp only
  unfold encoderTurn
  rw [if_neg (by simp [hu])]

theorem step_encoder_end {s : State} {e : Encoder} (hd : s.datapath = .encoder e) (hu : e.finished = true) :
    step s = .next (finishCompress e s) := by
  unfold step
  rw [hd]
  simp only
  unfold encoderTurn
  rw [if_pos hu]

theorem step_compositor {s : State} {c : Compositor} (hd : s.datapath = .compositor c) (hu : c.finished = false) :
    step s = .next (setErr c.advance.2 { s with datapath := .compositor c.advance.1 }) := by
  unfold step
  rw [hd]
  simp only
  unfold compositorTurn
  rw [if_neg (by simp [hu])]

theorem step_compositor_end {s : State} {c : Compositor} (hd : s.datapath = .compositor c) (hu : c.finished = true) :
    step s = .next (finishComposite c.canvas s) := by
  unfold step
  rw [hd]
  simp only
  unfold compositorTurn
  rw [if_pos hu]

end Sys2Proof.Machine
end

