-- ==== Sys2Proof/Laws/Canvas.lean ====
section
/-! SUPPORT. Canvases: positions, bytes, what a canvas is computed from; and that the end of a command ignores the datapath. -/

namespace Sys2Proof.Machine

theorem disposed_at (s : State) (x y : Nat) (hx : x < s.regs.screenW) (hy : y < s.regs.screenH) :
  y * s.regs.screenW + x < s.regs.screenW * s.regs.screenH ∧ (y * s.regs.screenW + x) % s.regs.screenW = x ∧ (y * s.regs.screenW + x) / s.regs.screenW = y := by
  refine ⟨?_, ?_, ?_⟩
  · calc y * s.regs.screenW + x < y * s.regs.screenW + s.regs.screenW := by omega
      _ = (y + 1) * s.regs.screenW := by ring
      _ ≤ s.regs.screenH * s.regs.screenW := Nat.mul_le_mul_right _ hy
      _ = _ := Nat.mul_comm ..
  · rw [Nat.mul_comm, Nat.mul_add_mod, Nat.mod_eq_of_lt hx]
  · rw [Nat.mul_comm, Nat.mul_add_div (by omega), Nat.div_eq_of_lt hx, Nat.add_zero]

theorem getD_map_range (n i : Nat) (f : Nat → Pixel) (h : i < n) : ((List.range n).map f).getD i Pixel.blank = f i := by
  rw [List.getD_eq_getElem?_getD, List.getElem?_map, List.getElem?_range h]; rfl

theorem canvas_bytes_get (c : List Pixel) (i j : Nat) (hi : i < c.length) (hj : j < 4) :
   (c.flatMap Pixel.bytes).getD (4 * i + j) 0#8 = (c.getD i Pixel.blank).bytes.getD j 0#8 := by
  induction c generalizing i with
  | nil => simp at hi
  | cons p c ih =>
    have hl : p.bytes.length = 4 := rfl
    rw [List.flatMap_cons]
    cases i with
    | zero => rw [List.getD_append _ _ _ _ (by rw [hl]; omega)]; simp
    | succ i =>
      rw [List.getD_append_right _ _ _ _ (by rw [hl]; omega), hl, show 4 * (i+1) + j - 4 = 4 * i + j by omega, ih i (by simpa using hi)]
      simp

theorem readPixel_congr {s t : State} {a : Nat} (h : ∀ i, i < 4 → readByte s (a + i) = readByte t (a + i)) : readPixel s a = readPixel t a := by
  unfold readPixel
  have h0 := h 0 (by decide)
  rw [Nat.add_zero] at h0
  rw [h0, h 1 (by decide), h 2 (by decide), h 3 (by decide)]

theorem disposedCanvas_congr {s t : State} (hr : t.regs = s.regs)
    (hn : s.regs.seeds = true → ∀ i, i < s.regs.canvasBytes → readByte t (s.regs.n2Base.toNat + i) = readByte s (s.regs.n2Base.toNat + i)) : 
  disposedCanvas t = disposedCanvas s := by
  unfold disposedCanvas
  rw [hr]
  cases hs : s.regs.seeds
  · simp only [hs, Bool.false_eq_true, if_false]
  · have : seedCanvas t (s.regs.screenW * s.regs.screenH) = seedCanvas s (s.regs.screenW * s.regs.screenH) := by
      unfold seedCanvas
      apply List.map_congr_left
      intro i hi
      rw [hr]
      apply readPixel_congr
      intro j hj
      rw [Nat.add_assoc]
      apply hn hs
      have := List.mem_range.1 hi
      unfold Regs.canvasBytes; omega
    simp only [this]

theorem compositeCanvas_congr {s t : State} (hr : t.regs = s.regs)
    (hp : ∀ i, i < s.regs.pixCount.toNat → readByte t (s.regs.pixBase.toNat + i) = readByte s (s.regs.pixBase.toNat + i))
    (hc : ∀ i, i < 3 * s.regs.ctLen.toNat → readByte t (s.regs.ctBase.toNat + i) = readByte s (s.regs.ctBase.toNat + i))
    (hn : s.regs.seeds = true → ∀ i, i < s.regs.canvasBytes → readByte t (s.regs.n2Base.toNat + i) = readByte s (s.regs.n2Base.toNat + i)) : 
  compositeCanvas t = compositeCanvas s := by
  unfold compositeCanvas
  rw [hr, disposedCanvas_congr hr hn]
  have : ∀ c, startComposite t c = startComposite s c := by
    intro c; unfold startComposite; rw [hr, readBytes_congr hp, readBytes_congr hc]
  simp only [this]

theorem Compositor.run_finished_at (c : Compositor) (fuel n : Nat) (hf : n + fuel = c.w * c.h) (canvas) : (Compositor.run fuel (c.at n canvas)).1.finished = true := by
  induction fuel generalizing n canvas with
  | zero =>
    show (c.w == 0 || decide (c.h ≤ n / c.w)) = true
    by_cases hw : c.w = 0
    · simp [hw]
    · rw [show n = c.w * c.h by omega, Nat.mul_div_cancel_left _ (Nat.pos_of_ne_zero hw)]; simp
  | succ f ih =>
    cases hu : (c.at n canvas).finished with
    | true => rw [Compositor.run, if_pos hu]; exact hu
    | false =>
      rw [Compositor.run, if_neg (by simp [hu])]
      have hw : c.w ≠ 0 := by rintro hw; rw [hw] at hf; omega
      show (Compositor.run f (c.at n canvas).advance.1).1.finished = true
      rcases c.at_advance n canvas hw with ⟨-, h, -⟩ | ⟨-, h⟩ <;> rw [h] <;> exact ih (n + 1) (by omega) _

theorem scrambleRegion_dp (g) (s : State) (x) : scrambleRegion g { s with datapath := x } = { scrambleRegion g s with datapath := x } := rfl

theorem scrambleWrites_dp (gs) (s : State) (x) : scrambleWrites gs { s with datapath := x } = { scrambleWrites gs s with datapath := x } := by
  induction gs generalizing s with
  | nil => rfl
  | cons g gs ih =>
    unfold scrambleWrites
    split
    · rw [scrambleRegion_dp, ih]
    · rw [ih]

theorem scrambleResults_dp (op c) (s : State) (x) : scrambleResults op c { s with datapath := x } = { scrambleResults op c s with datapath := x } := by
  unfold scrambleResults; split <;> rfl

theorem complete_dp (op c) (s : State) (x) : complete op c { s with datapath := x } = complete op c s := by
  have h : ∀ b : Bool, (if b then scrambleResults op c (scrambleWrites (regionsOf op s.regs) { s with datapath := x })
      else { s with datapath := x }) =
      { (if b then scrambleResults op c (scrambleWrites (regionsOf op s.regs) s) else s) with datapath := x } := by
    intro b
    cases b
    · rfl
    · simp only [if_true]
      rw [scrambleWrites_dp, scrambleResults_dp]
  unfold complete
  simp only
  rw [h s.disturbed]
  cases c <;> rfl

theorem finishDecompress_dp (d) (s : State) (x) : finishDecompress d { s with datapath := x } = finishDecompress d s := 
  complete_dp .decompress none { s with mem := s.mem.setBytes s.regs.pixBase.toNat d.pixels, regs := d.results s.regs } x

theorem finishCompress_dp (e) (s : State) (x) : finishCompress e { s with datapath := x } = finishCompress e s := by
  by_cases h : s.regs.outCap.toNat < (frame e.m (pack e.codes)).length
  · rw [finishCompress_full h, finishCompress_full (s := { s with datapath := x }) h]
    exact complete_dp _ _ { s with mem := s.mem.setBytes s.regs.outBase.toNat ((frame e.m (pack e.codes)).take s.regs.outCap.toNat), regs := { s.regs with outLen := s.regs.outCap } } x
  · rw [finishCompress_fits h, finishCompress_fits (s := { s with datapath := x }) h]
    exact complete_dp _ _ { s with mem := s.mem.setBytes s.regs.outBase.toNat (frame e.m (pack e.codes)), regs := e.results s.regs } x

theorem finishComposite_dp (c) (s : State) (x) : finishComposite c { s with datapath := x } = finishComposite c s :=
  complete_dp .composite none { s with mem := s.mem.setBytes s.regs.canvasBase.toNat (c.flatMap Pixel.bytes) } x

end Sys2Proof.Machine
end

