-- ==== Sys2Proof/Laws/PerInstr.lean ====
section
/-! SUPPORT. Family Encodable, one lemma per instruction: where an instruction is well formed, decoding what it is
encoded as gives it back. -/

namespace Sys2Proof.Laws.Encodable

open Sys2Proof

/-- Decoding undoes encoding at every place where the instruction is well formed. -/
def Statement (i : Instr) : Prop := ∀ p : Place, i.wfIn p = true → decode p (encode p i) = .ok i

/-! ### Command words -/

theorem nop : Statement .nop := fun _ _ => rfl
theorem decompress : Statement .decompress := fun _ _ => rfl
theorem compress : Statement .compress := fun _ _ => rfl
theorem composite : Statement .composite := fun _ _ => rfl

theorem cmdMbz_toNat (w : Word) : (cmdMbz w).toNat = w.toNat / 16 := by
  have := w.isLt
  simp only [cmdMbz, BitVec.extractLsb'_toNat, Nat.shiftRight_eq_div_pow]
  omega

theorem cmdOpcode_toNat (w : Word) : (cmdOpcode w).toNat = w.toNat % 16 := by
  simp [cmdOpcode, BitVec.extractLsb'_toNat]

/-- A word is illegal exactly where the opcode map gives it no command. -/
theorem decodeOpcode_illegal {w : Word} (h : illegalCmdWord w = true) : decodeOpcode w = none := by
  simp only [illegalCmdWord, Bool.or_eq_true, bne_iff_ne, ne_eq, decide_eq_true_eq] at h
  unfold decodeOpcode
  by_cases hz : cmdMbz w = 0#28
  · have e := cmdMbz_toNat w
    rw [hz] at e
    have hn : w.toNat / 16 = 0 := by simpa using e.symm
    have ho := cmdOpcode_toNat w
    rw [if_pos hz]
    have hne : ∀ x : BitVec 4, x.toNat < 4 → cmdOpcode w ≠ x := by
      intro x hx he
      rw [he] at ho
      omega
    rw [if_neg (hne _ (by decide)), if_neg (hne _ (by decide)), if_neg (hne _ (by decide)), if_neg (hne _ (by decide))]
  · rw [if_neg hz]

theorem illegalCmd (v : Word) : Statement (.illegalCmd v) := by
  intro p h
  simp only [Instr.wfIn, Instr.wf, Bool.and_true] at h
  simp [encode, decode, decodeCmd, decodeOpcode_illegal h]

/-! ### Codes -/

theorem codec_facts {p : Place} (h : p.codecOk = true) :
    2 ≤ p.m ∧ p.m ≤ 8 ∧ p.m + 1 ≤ p.width ∧ p.width ≤ 12 ∧ 2 ^ p.m + 2 ≤ p.nxt ∧ p.nxt ≤ 4096 := by
  simpa [Place.codecOk, Config.maxCodeWidth, Config.dictSize] using h

theorem pow_facts {p : Place} (h : p.codecOk = true) : 4 ≤ 2 ^ p.m ∧ 2 * 2 ^ p.m ≤ 2 ^ p.width := by
  obtain ⟨h2, -, hw, -⟩ := codec_facts h
  constructor
  · exact Nat.pow_le_pow_right (n := 2) (by decide) h2
  · rw [← Nat.pow_succ']; exact Nat.pow_le_pow_right (by decide) hw

theorem decode_code {p : Place} {v : Nat} (hv : v < 2 ^ p.width) :
    decode p (.code v p.width) = .ok (classify p.m p.nxt p.prev v) := by
  simp [decode, hv]

theorem clear : Statement .clear := by
  intro p h
  have hc : p.codecOk = true := by simpa [Instr.wfIn, Instr.wf] using h
  have := pow_facts hc
  rw [encode, decode_code (by simp only [clearCode]; omega)]
  simp [classify]

theorem eoi : Statement .eoi := by
  intro p h
  have hc : p.codecOk = true := by simpa [Instr.wfIn, Instr.wf] using h
  have := pow_facts hc
  rw [encode, decode_code (by simp only [eoiCode]; omega)]
  simp [classify, eoiCode, clearCode]

theorem literalFirst (c : Nat) : Statement (.literalFirst c) := by
  intro p h
  simp only [Instr.wfIn, Bool.and_eq_true, decide_eq_true_eq] at h
  obtain ⟨-, hc, h1, h2⟩ := h
  have := pow_facts hc
  rw [encode, decode_code (by omega), classify, if_neg (by simp only [clearCode]; omega),
    if_neg (by simp only [eoiCode]; omega), if_pos h1, if_pos h2]

theorem literal (c : Nat) : Statement (.literal c) := by
  intro p h
  simp only [Instr.wfIn, Bool.and_eq_true, decide_eq_true_eq] at h
  obtain ⟨-, hc, h1, h2⟩ := h
  have := pow_facts hc
  rw [encode, decode_code (by omega), classify, if_neg (by simp only [clearCode]; omega),
    if_neg (by simp only [eoiCode]; omega), if_pos h1, if_neg h2]

theorem classify_high {m nxt c : Nat} {prev : Option Nat} (h : 2 ^ m + 2 ≤ c) :
    classify m nxt prev c =
      if c < nxt ∧ prev ≠ none then .dict c
      else if c = nxt ∧ prev ≠ none ∧ nxt < Config.dictSize then .kwkwk c else .badcode c := by
  rw [classify, if_neg (by simp only [clearCode]; omega), if_neg (by simp only [eoiCode]; omega), if_neg (by omega)]
  simp [firstCode, h]

theorem dict (c : Nat) : Statement (.dict c) := by
  intro p h
  simp only [Instr.wfIn, Bool.and_eq_true, decide_eq_true_eq] at h
  obtain ⟨-, hc, h1, h2, h3, h4⟩ := h
  rw [encode, decode_code h1, classify_high h2, if_pos ⟨h3, h4⟩]

theorem kwkwk (c : Nat) : Statement (.kwkwk c) := by
  intro p h
  simp only [Instr.wfIn, Bool.and_eq_true, decide_eq_true_eq] at h
  obtain ⟨-, hc, h1, h2, h3, h4⟩ := h
  have := codec_facts hc
  rw [encode, decode_code h1, classify_high (by omega), if_neg (by omega), if_pos ⟨h2, h3, h4⟩]

theorem badcode (c : Nat) : Statement (.badcode c) := by
  intro p h
  simp only [Instr.wfIn, Bool.and_eq_true, decide_eq_true_eq] at h
  obtain ⟨-, hc, h1, h2, h3⟩ := h
  have hn : ¬(c < p.nxt ∧ p.prev ≠ none) := by
    rintro ⟨ha, hb⟩; rcases h3 with h3 | h3
    · exact hb h3
    · omega
  have hk : ¬(c = p.nxt ∧ p.prev ≠ none ∧ p.nxt < Config.dictSize) := by
    rintro ⟨ha, hb, -⟩; rcases h3 with h3 | h3
    · exact hb h3
    · omega
  rw [encode, decode_code h1, classify_high h2, if_neg hn, if_neg hk]

/-! ### Framing elements -/

theorem minCodeSize (m : Byte) : Statement (.minCodeSize m) := by
  intro p h
  have hf : p.first = true := by simpa [Instr.wfIn, Instr.wf] using h
  simp [encode, decode, decodeElement, hf]

theorem dataBlock (n : Byte) (data : List Byte) : Statement (.dataBlock n data) := by
  intro p h
  simp only [Instr.wfIn, Instr.wf, Bool.and_eq_true, bne_iff_ne, beq_iff_eq, Bool.not_eq_true'] at h
  obtain ⟨⟨hn, hl⟩, hf⟩ := h
  simp only [encode, decode, decodeElement, hf, if_neg hn, Bool.false_eq_true, if_false]
  rw [← hl, List.take_length, List.drop_length]

theorem terminator : Statement .terminator := by
  intro p h
  have hf : p.first = false := by simpa [Instr.wfIn, Instr.wf] using h
  simp [encode, decode, decodeElement, hf]

/-! ### Host bus operations -/

theorem decode_register (p : Place) (k : AccessKind) {off : Nat} (v : Word) (h : regOffsetOk off = true) :
    decode p (.line (regAccess p.params k off v)) =
      .ok (match k with | .read => .regRead off | .write => decodeRegWrite off v) := by
  simp only [regOffsetOk, Bool.and_eq_true, beq_iff_eq, decide_eq_true_eq] at h
  have h1 : p.params.regBase ≤ p.params.regBase + off ∧ p.params.regBase + off < p.params.regBase + 256 := by omega
  simp only [decode, regAccess, decodeLine, decodeAccess, if_pos h1, Nat.add_sub_cancel_left, h.1]
  cases k <;> simp

theorem decode_lmem (p : Place) (k : AccessKind) {a n : Nat} (v : Word) (ha : lmemAligned a n = true)
    (hp : p.params.WF) (hb : a + n ≤ p.params.lmemSize) :
    decode p (.line (lmemAccess p.params k a n v)) =
      .ok (match k with | .read => .lmemRead a n | .write => .lmemWrite a n v) := by
  simp only [lmemAligned, Bool.and_eq_true, Bool.or_eq_true, beq_iff_eq] at ha
  obtain ⟨-, -, -, -, hd⟩ := hp
  have hn : n = 1 ∨ n = 2 ∨ n = 4 := by tauto
  have h0 : ¬(p.params.regBase ≤ p.params.lmemHostBase + a ∧ p.params.lmemHostBase + a < p.params.regBase + 256) := by
    omega
  have h1 : p.params.lmemHostBase ≤ p.params.lmemHostBase + a ∧
      p.params.lmemHostBase + a < p.params.lmemHostBase + p.params.lmemSize := by omega
  have h2 : ¬(p.params.lmemSize < a + n) := by omega
  simp only [decode, lmemAccess, decodeLine, decodeAccess, if_neg h0, if_pos h1, Nat.add_sub_cancel_left,
    if_neg (not_not.2 hn), ha.2, ne_eq, not_true_eq_false, if_false, if_neg h2]
  cases k <;> simp

theorem regRead (off : Nat) : Statement (.regRead off) := by
  intro p h
  have ho : regOffsetOk off = true := by simpa [Instr.wfIn, Instr.wf] using h
  rw [encode, decode_register p .read _ ho]

theorem regWrite (off : Nat) (v : Word) : Statement (.regWrite off v) := by
  intro p h
  simp only [Instr.wfIn, Instr.wf, Bool.and_eq_true, bne_iff_ne, ne_eq, Bool.not_eq_true', Bool.and_eq_false_iff,
    beq_eq_false_iff_ne] at h
  obtain ⟨⟨⟨⟨⟨ho, h4⟩, hc⟩, h10⟩, h8⟩, -⟩ := h
  rw [encode, decode_register p .write _ ho]
  simp only [decodeRegWrite]
  rw [if_neg (by rintro ⟨a, b⟩; rcases h4 with h4 | h4 <;> simp_all), if_neg hc, if_neg h10, if_neg]
  rintro ⟨a, b⟩
  rcases h8 with h8 | h8
  · exact h8 a
  · unfold decodeOpcode at b
    simp only [illegalCmdWord, Bool.or_eq_false_iff, bne_eq_false_iff_eq, decide_eq_false_iff_not, not_le] at h8
    have hz : cmdMbz v = 0#28 := by
      apply BitVec.eq_of_toNat_eq; rw [cmdMbz_toNat]; simpa using h8.1
    have ho' := cmdOpcode_toNat v
    rw [if_pos hz] at b
    have hcase : cmdOpcode v = 0#4 ∨ cmdOpcode v = 1#4 ∨ cmdOpcode v = 2#4 ∨ cmdOpcode v = 3#4 := by
      have : (cmdOpcode v).toNat < 4 := by omega
      generalize cmdOpcode v = x at this ⊢
      revert x; decide
    rcases hcase with e | e | e | e <;> simp [e] at b

theorem lmemRead (a n : Nat) : Statement (.lmemRead a n) := by
  intro p h
  simp only [Instr.wfIn, Instr.wf, Bool.and_eq_true, decide_eq_true_eq] at h
  rw [encode, decode_lmem p .read _ h.1 h.2.1 h.2.2]

theorem lmemWrite (a n : Nat) (v : Word) : Statement (.lmemWrite a n v) := by
  intro p h
  simp only [Instr.wfIn, Instr.wf, Bool.and_eq_true, decide_eq_true_eq] at h
  rw [encode, decode_lmem p .write _ h.1.1 h.2.1 h.2.2]

theorem softReset (v : Word) : Statement (.softReset v) := by
  intro p h
  have hv : v.getLsbD 1 = true := by simpa [Instr.wfIn, Instr.wf] using h
  rw [encode, decode_register p .write _ (by decide)]
  simp [decodeRegWrite, hv]

theorem w1cStatus (r : W1cReg) (v : Word) : Statement (.w1cStatus r v) := by
  intro p _
  cases r
  · rw [encode, decode_register p .write _ (by decide)]; simp [decodeRegWrite, W1cReg.offset]
  · rw [encode, decode_register p .write _ (by decide)]; simp [decodeRegWrite, W1cReg.offset]

/-! ### Pseudo-instructions -/

theorem wait : Statement .wait := fun _ _ => rfl
theorem run (op : Opcode) : Statement (.run op) := fun _ _ => rfl
theorem ack : Statement .ack := fun _ _ => rfl
theorem clrerr : Statement .clrerr := fun _ _ => rfl
theorem reset : Statement .reset := fun _ _ => rfl

end Sys2Proof.Laws.Encodable
end

