-- ==== Sys2Proof/Laws/Registers.lean ====
section
/-! SUPPORT. Registers: command words, what a register write and the end of a command leave. -/

namespace Sys2Proof.Machine

/-- A command word decodes to its command (30_encoding.md R91). -/
@[simp] theorem decodeOpcode_word (op : Opcode) : decodeOpcode op.word = some op := by cases op <;> decide

@[simp] theorem decodeCmd_word (op : Opcode) : decodeCmd op.word = op.instr := by cases op <;> rfl

theorem decodeOpcode_some {w : Word} {op : Opcode} (h : decodeOpcode w = some op) : w = op.word := by
  unfold decodeOpcode at h
  have h1 := Laws.Encodable.cmdMbz_toNat w
  have h2 := Laws.Encodable.cmdOpcode_toNat w
  have := w.isLt
  apply BitVec.eq_of_toNat_eq
  split_ifs at h with g a b c d <;> simp only [Option.some.injEq] at h <;> subst h <;> rw [g] at h1 <;> (first | rw [a] at h2 | rw [b] at h2 | rw [c] at h2 | rw [d] at h2) <;> simp [Opcode.word, Opcode.code] at * <;> omega

theorem decodeOpcode_none {w : Word} (h : decodeOpcode w = none) : illegalCmdWord w = true := by
  by_contra hn
  have h1 := Laws.Encodable.cmdMbz_toNat w
  have h2 := Laws.Encodable.cmdOpcode_toNat w
  simp only [illegalCmdWord, Bool.or_eq_true, bne_iff_ne, ne_eq, decide_eq_true_eq, not_or, not_not, not_le] at hn
  have hz : cmdMbz w = 0#28 := by rw [← BitVec.toNat_inj, h1, hn.1]; rfl
  have ho : cmdOpcode w = 0#4 ∨ cmdOpcode w = 1#4 ∨ cmdOpcode w = 2#4 ∨ cmdOpcode w = 3#4 := by
    simp only [← BitVec.toNat_inj, h2, BitVec.toNat_ofNat]; omega
  unfold decodeOpcode at h
  rw [if_pos hz] at h
  rcases ho with ho | ho | ho | ho <;> rw [ho] at h <;> simp at h

theorem decodeOpcode_legal {v : Word} {op : Opcode} (h : decodeOpcode v = some op) : illegalCmdWord v = false := by
  rw [← Bool.not_eq_true]; intro hh; rw [Laws.Encodable.decodeOpcode_illegal hh] at h; cases h

theorem andnot (a b : BitVec 8) : a &&& ~~~(a ||| b) = 0#8 := by
  ext i hi; simp only [BitVec.getElem_and, BitVec.getElem_not, BitVec.getElem_or, BitVec.getElem_zero]
  cases a[i] <;> simp

theorem andnot' (a : BitVec 8) : a &&& ~~~a = 0#8 := by ext i; simp

/-- A result register read while BUSY = 1 has no bit outside its fields. -/
@[simp] theorem busyValue_reserved (off : Nat) (w : Word) : busyValue off w &&& ~~~resultBits off = 0#32 := by
  unfold busyValue; ext i; simp

/-- In its fields it has every bit of the free value. -/
theorem busyValue_getLsbD (off i : Nat) (w : Word) (h : (resultBits off).getLsbD i = true) :
    (busyValue off w).getLsbD i = w.getLsbD i := by simp [busyValue, h]

/-- The register's own value has no other bits either: what a read gives keeps to the same fields, busy or idle. -/
theorem Regs.value_reserved (r : Regs) (off : Nat) (h : isResultReg off = true) :
    r.value off &&& ~~~resultBits off = 0#32 := by
  simp only [isResultReg, Bool.or_eq_true, beq_iff_eq, or_assoc] at h
  rcases h with rfl | rfl | rfl | rfl | rfl | rfl | rfl | rfl | rfl | rfl <;>
    (simp only [Regs.value, resultBits]
     apply BitVec.eq_of_getLsbD_eq; intro i hi
     simp only [BitVec.getLsbD_and, BitVec.getLsbD_not, BitVec.getLsbD_append, BitVec.getLsbD_zero]
     interval_cases i <;> simp)

theorem Regs.value_write_other (off o : Nat) (v : Word) (r : Regs) (h : o ≠ off) : (r.write off v).value o = r.value o := by
  unfold Regs.write
  split <;> first
    | rfl
    | (unfold Regs.value; split <;> first | rfl | exact absurd rfl h)

theorem write_status (off v) (r : Regs) (h : off ≠ 0x0C) : (r.write off v).status = r.status := by
  unfold Regs.write; split <;> first | rfl | exact absurd rfl h

theorem write_lastErr (off v) (r : Regs) : (r.write off v).lastErr = r.lastErr := by
  unfold Regs.write; split <;> rfl

theorem writeRegister_status (v : Word) (s : State) : writeRegister 0x0C v s = { s with regs := { s.regs with status := s.regs.status.w1c v } } := by
  simp [writeRegister, inOverrunRange, Regs.write]

theorem writeRegister_errState (v : Word) (s : State) : writeRegister 0x10 v s = { s with regs := { s.regs with errState := errW1c v s.regs.errState } } := by
  simp [writeRegister, inOverrunRange, Regs.write]

theorem writeRegister_ctrl (v : Word) (s : State) : writeRegister 0x04 v s = writeCtrl v s := by
  simp [writeRegister, inOverrunRange]

theorem writeCmd_facts (v : Word) (s : State) : (writeCmd v s).regs.errState = s.regs.errState ∧ 
  (s.regs.status.busy = true → (writeCmd v s).regs.status.busy = true) ∧
  (s.regs.status.busy = false → (writeCmd v s).regs.status.busy = true → ∃ op, decodeOpcode v = some op) := by
  unfold writeCmd
  cases hb : s.regs.status.busy
  · simp
    cases hv : decodeOpcode v <;> simp [hb]; rfl
  · simp [hb]; rfl

theorem applyEffect_status (e) (s : State) : (applyEffect e s).regs.status = s.regs.status ∧ s.regs.errState &&& ~~~(applyEffect e s).regs.errState = 0#8 := by
  constructor
  · rfl
  · show _ &&& ~~~(_ ||| _) = _; exact andnot _ _

theorem scrambleResults_regs (op : Opcode) (c : Option FaultCause) (s : State) :
    (scrambleResults op c s).regs = { s.regs with
      errState := (scrambleResults op c s).regs.errState, lastErr := (scrambleResults op c s).regs.lastErr
      pixCount := (scrambleResults op c s).regs.pixCount, outLen := (scrambleResults op c s).regs.outLen
      lzwInfo := (scrambleResults op c s).regs.lzwInfo, lzwCodes := (scrambleResults op c s).regs.lzwCodes
      inPos := (scrambleResults op c s).regs.inPos, blockCount := (scrambleResults op c s).regs.blockCount
      codeCount := (scrambleResults op c s).regs.codeCount, lzwState := (scrambleResults op c s).regs.lzwState } := by
  unfold scrambleResults
  split <;> rfl

theorem scrambleWrites_regs (gs) (s : State) : (scrambleWrites gs s).regs = s.regs := by rw [scrambleWrites_frame]

theorem complete_regs (op : Opcode) (c : Option FaultCause) (s : State) :
    (complete op c s).regs = { s.regs with
      status := endStatus c s.regs.status
      errState := (complete op c s).regs.errState, lastErr := (complete op c s).regs.lastErr
      pixCount := (complete op c s).regs.pixCount, outLen := (complete op c s).regs.outLen
      lzwInfo := (complete op c s).regs.lzwInfo, lzwCodes := (complete op c s).regs.lzwCodes
      inPos := (complete op c s).regs.inPos, blockCount := (complete op c s).regs.blockCount
      codeCount := (complete op c s).regs.codeCount, lzwState := (complete op c s).regs.lzwState } := by
  rw [← complete_status op c s]
  have h1 := scrambleResults_regs op c (scrambleWrites (regionsOf op s.regs) s)
  rw [scrambleWrites_regs] at h1
  cases hd : s.disturbed
  · cases c
    · rw [complete_ok _ _ hd]
    · rw [complete_fault _ _ _ hd]
  · cases c
    · unfold complete; simp only [hd, if_true]
      rw [h1]
    · unfold complete; simp only [hd, if_true, raiseFault]
      rw [h1]

end Sys2Proof.Machine
end

