-- ==== Sys2Proof/Laws/Invariant.lean ====
section
/-! SUPPORT. Each shared operation keeps the invariant. -/

namespace Sys2Proof.Machine

theorem inv_complete (op : Opcode) (bits) (c) (s t : State) (h : s.Inv) (hw : Worked op bits s t) : (complete op c t).Inv := by
  have hm := hw.mem h.memWf h.memBelow
  have hp : t.params = s.params := by rw [hw.frame]
  have hcp : (complete op c t).params = s.params := by rw [complete_frame, ← hp]
  have hcm := complete_mem op c t hm.1 (by rw [hp]; exact hm.2)
  have hst := complete_status op c t
  refine ⟨by rw [hcp]; exact h.params, hcm.1, by rw [hcp, ← hp]; exact hcm.2, rfl, ?_, ?_, ?_, ?_, fun _ => rfl⟩
  · show (complete op c t).regs.status.busy = false; rw [hst]; cases c <;> rfl
  · rw [hst]; have := h.lastOp; rw [← hw.status] at this; cases c <;> exact this
  · rw [hst]; have := h.faultCause; rw [← hw.status] at this
    cases c with
    | none => exact this
    | some c => show c.code.toNat ≤ 6; cases c <;> decide
  · rw [hst]; intro hb; cases c <;> cases hb

theorem inv_regs {s t : State} (h : s.Inv) (hp : t.params = s.params) (hm : t.mem = s.mem) (hd : t.datapath = s.datapath) (hq : t.seq = s.seq)
   (hs : t.regs.status.busy = s.regs.status.busy ∧ t.regs.status.lastOp = s.regs.status.lastOp ∧ (t.regs.status.faultCause = s.regs.status.faultCause) ∧
      (s.regs.status.done = false → t.regs.status.done = false) ∧ (s.regs.status.fault = false → t.regs.status.fault = false))
   (he : s.regs.status.busy = true → t.regs.lastErr = s.regs.lastErr) (hdist : s.regs.status.busy = false → t.disturbed = s.disturbed) : t.Inv := by
  obtain ⟨h1, h2, h3, h4, h5⟩ := hs
  refine ⟨by rw [hp]; exact h.params, by rw [hm]; exact h.memWf, by rw [hm, hp]; exact h.memBelow, by rw [hd]; exact h.datapath, ?_, by rw [h2]; exact h.lastOp, by rw [h3]; exact h.faultCause, ?_, ?_⟩
  · have := h.status
    rw [hq]
    cases hseq : s.seq with
    | idle => rw [hseq] at this; show t.regs.status.busy = _; rw [h1]; exact this
    | running op => 
      rw [hseq] at this
      obtain ⟨a, b, c, d, e⟩ := this
      exact ⟨by rw [h1]; exact a, by rw [h2]; exact b, h4 c, h5 d, by rw [h3]; exact e⟩
  · intro hb; rw [h1] at hb; rw [he hb]; exact h.lastErr hb
  · intro hb; rw [h1] at hb; rw [hdist hb]; exact h.disturbed hb

theorem inv_respond {b} {s : State} (h : s.Inv) : (respond b s).Inv := inv_regs h rfl rfl rfl rfl ⟨rfl, rfl, rfl, id, id⟩ (fun _ => rfl) (fun _ => rfl)

theorem inv_overrun {s : State} (h : s.Inv) : (setOverrun s).Inv := inv_regs h rfl rfl rfl rfl ⟨rfl, rfl, rfl, id, id⟩ (fun _ => rfl) (fun _ => rfl)

theorem inv_illegal {s : State} (h : s.Inv) : (setIllegalCmd s).Inv := inv_regs h rfl rfl rfl rfl ⟨rfl, rfl, rfl, id, id⟩ (fun _ => rfl) (fun _ => rfl)

theorem inv_w1c {r v} {s : State} (h : s.Inv) : (clearW1c r v s).Inv := by
  refine inv_regs h (by simp) (by simp) (by simp) (by simp) ?_ (by simp) (by simp)
  cases r
  · refine ⟨rfl, rfl, rfl, ?_, ?_⟩ <;> intro h <;> simp [clearW1c, Status.w1c, h]
  · exact ⟨rfl, rfl, rfl, id, id⟩

theorem inv_softReset {s : State} (h : s.Inv) : (softReset s).Inv := by
  have hm := softReset_mem s h.memWf h.memBelow
  have hp : (softReset s).params = s.params := by rw [softReset_frame]
  refine ⟨by rw [hp]; exact h.params, hm.1, by rw [hp]; exact hm.2, rfl, rfl, by show (0#4).toNat ≤ 3; decide, by show (0#8).toNat ≤ 6; decide, ?_, fun _ => rfl⟩
  intro hb; cases hb

theorem inv_powerOn {s : State} (h : s.Inv) : (powerOn s).Inv := by
  refine ⟨h.params, rfl, ?_, rfl, rfl, by show (0#4).toNat ≤ 3; decide, by show (0#8).toNat ≤ 6; decide, ?_, fun _ => rfl⟩
  · intro c hc; cases hc
  · intro hb; cases hb

theorem inv_accept {op} {s : State} (h : s.Inv) : (accept op s).Inv := by
  refine ⟨h.params, h.memWf, h.memBelow, h.datapath, ⟨rfl, rfl, rfl, rfl, rfl⟩, ?_, by show (0#8).toNat ≤ 6; decide, fun _ => rfl, fun _ => rfl⟩
  show op.code.toNat ≤ 3; cases op <;> decide

theorem inv_writeCmd {v} {s : State} (h : s.Inv) : (writeCmd v s).Inv := by
  unfold writeCmd; split
  · exact inv_overrun h
  · cases decodeOpcode v with
    | none => exact inv_illegal h
    | some op => exact inv_accept h

theorem inv_write {off v} {s : State} (h : s.Inv) : State.Inv { s with regs := s.regs.write off v } := by
  refine inv_regs h rfl rfl rfl rfl ?_ (fun _ => write_lastErr _ _ _) (fun _ => rfl)
  by_cases ho : off = 0x0C
  · subst ho; refine ⟨rfl, rfl, rfl, ?_, ?_⟩ <;> intro h <;> simp [Regs.write, Status.w1c, h]
  · simp only [write_status _ _ _ ho]; exact ⟨trivial, trivial, trivial, id, id⟩

theorem inv_writeCtrl {v} {s : State} (h : s.Inv) : (writeCtrl v s).Inv := by
  unfold writeCtrl; simp only; split
  · exact inv_softReset (inv_write h)
  · exact inv_write h

theorem inv_writeRegister {off v} {s : State} (h : s.Inv) : (writeRegister off v s).Inv := by
  unfold writeRegister; split_ifs
  · exact inv_writeCmd h
  · exact inv_overrun h
  · exact inv_writeCtrl h
  · exact inv_write h

theorem inv_hostWrite {a n v} {s : State} (h : s.Inv) (hok : lmemAccessOk s a n = true) : (hostWrite s a n v).Inv := by
  have hn : a + n ≤ s.params.lmemSize := by simp [lmemAccessOk] at hok; exact hok.2
  have hl : (wordBytes v n).length = n := by simp [wordBytes]
  refine ⟨h.params, Memory.wf_setBytes _ _ h.memWf, Memory.below_setBytes h.memBelow (.inr (by rw [hl]; exact hn)), h.datapath, h.status, h.lastOp, h.faultCause, h.lastErr, ?_⟩
  intro hb
  have hb' : s.regs.status.busy = false := hb
  simp [hostWrite, hb', h.disturbed hb']

theorem inv_busError {s : State} (h : s.Inv) : (busError s).Inv := inv_respond h

theorem inv_sched {s : State} (r) (h : s.Inv) : State.Inv { s with sched := r } := inv_regs h rfl rfl rfl rfl ⟨rfl, rfl, rfl, id, id⟩ (fun _ => rfl) (fun _ => rfl)

theorem inv_host {s : State} (r) (h : s.Inv) : State.Inv { s with host := r } := inv_regs h rfl rfl rfl rfl ⟨rfl, rfl, rfl, id, id⟩ (fun _ => rfl) (fun _ => rfl)

theorem decodeLine_next {p : Params} {l : HostLine} {i : Instr} (h : decodeLine p l = .ok i) (s : State) : ∃ t, exec i s = .next t := by
  have hw : ∀ off v, ∃ t, exec (decodeRegWrite off v) s = .next t := by
    intro off v; unfold decodeRegWrite; split_ifs
    · exact ⟨_, rfl⟩
    · exact ⟨_, rfl⟩
    · exact ⟨_, rfl⟩
    · exact ⟨_, rfl⟩
    · show ∃ t, execRegWrite off v s = _; unfold execRegWrite; split_ifs <;> exact ⟨_, rfl⟩
  cases l with
  | access b =>
    simp only [decodeLine, decodeAccess] at h
    split_ifs at h
    · cases hk : b.kind <;> rw [hk] at h <;> injection h with h <;> subst h
      · show ∃ t, execRegRead _ s = _; unfold execRegRead; split_ifs <;> exact ⟨_, rfl⟩
      · exact hw _ _
    · cases hk : b.kind <;> rw [hk] at h <;> injection h with h <;> subst h
      · show ∃ t, execLmemRead _ _ s = _; unfold execLmemRead; split_ifs <;> exact ⟨_, rfl⟩
      · show ∃ t, execLmemWrite _ _ _ s = _; unfold execLmemWrite; split_ifs <;> exact ⟨_, rfl⟩
  | wait => injection h with h; subst h; exact ⟨_, rfl⟩
  | run op => injection h with h; subst h; exact ⟨_, rfl⟩
  | ack => injection h with h; subst h; exact ⟨_, rfl⟩
  | clrerr => injection h with h; subst h; exact ⟨_, rfl⟩
  | reset => injection h with h; subst h; exact ⟨_, rfl⟩

end Sys2Proof.Machine
end

