-- ==== Sys2Proof/Laws/Values.lean ====
section
/-! SUPPORT. Little-endian values as sums, and as the bytes of a written word. -/

namespace Sys2Proof.Machine

theorem leValue_sum (l : List Byte) : leValue l = ((List.range l.length).map (fun i => (l.getD i 0#8).toNat * 2 ^ (8 * i))).sum := by
  induction l with
  | nil => rfl
  | cons b l ih =>
    rw [leValue, ih, List.length_cons, List.range_succ_eq_map, List.map_cons, List.sum_cons, List.map_map, ← List.sum_map_mul_left]
    simp only [List.getD_cons_zero, Nat.mul_zero, pow_zero, mul_one]
    congr 2
    apply List.map_congr_left
    intro i _
    simp only [Function.comp, Nat.succ_eq_add_one, List.getD_cons_succ]
    rw [Nat.mul_add, pow_add]; ring

theorem leValue_map (n : Nat) (f : Nat → Byte) : leValue ((List.range n).map f) = ((List.range n).map (fun i => (f i).toNat * 2 ^ (8 * i))).sum := by
  rw [leValue_sum]
  simp only [List.length_map, List.length_range]
  congr 1
  apply List.map_congr_left
  intro i hi
  rw [List.getD_eq_getElem?_getD, List.getElem?_map, List.getElem?_range (List.mem_range.1 hi)]; rfl

theorem wordBytes_length (v : Word) (n : Nat) : (wordBytes v n).length = n := by simp [wordBytes]

theorem leValue_div (n x : Nat) : leValue ((List.range n).map (fun i => BitVec.ofNat 8 (x / 2 ^ (8 * i)))) = x % 2 ^ (8 * n) := by
  induction n generalizing x with
  | zero => simp [leValue, Nat.mod_one]
  | succ n ih =>
    rw [List.range_succ_eq_map, List.map_cons, List.map_map, leValue]
    have : (fun i => BitVec.ofNat 8 (x / 2 ^ (8 * i))) ∘ Nat.succ = fun i => BitVec.ofNat 8 (x / 256 / 2 ^ (8 * i)) := by
      funext i
      simp only [Function.comp, Nat.succ_eq_add_one]
      rw [Nat.div_div_eq_div_mul, Nat.mul_add, pow_add, Nat.mul_comm (2 ^ (8 * i))]
      rfl
    rw [this, ih, Nat.mul_add, pow_add, Nat.mul_comm (2 ^ (8 * n)), Nat.mod_mul, BitVec.toNat_ofNat]
    simp

theorem leValue_wordBytes (v : Word) (n : Nat) : leValue (wordBytes v n) = v.toNat % 2 ^ (8 * n) := by
  rw [← leValue_div]
  unfold wordBytes
  congr 2
  funext i
  apply BitVec.eq_of_toNat_eq
  simp [BitVec.extractLsb'_toNat, Nat.shiftRight_eq_div_pow]

theorem lmemAccessOk_of {s : State} {a n : Nat} (h1 : n = 1 ∨ n = 2 ∨ n = 4) (h2 : a % n = 0) (h3 : a + n ≤ s.params.lmemSize) : lmemAccessOk s a n = true := by
  simp [lmemAccessOk, lmemAligned, h2, h3]; omega

end Sys2Proof.Machine
end

