-- ==== Sys2Proof/Tests/Slice0.lean ====
section
/-! SUPPORT. The model's own tests: ill-formed terms refused, words written out from the spec's encodings, one-step tests
with the results of the spec's examples and vectors (95_test_vectors.md), and for each obligation with hypotheses a
concrete case that meets them. -/

namespace Sys2Proof.Tests

open Sys2Proof Sys2Proof.Machine Sys2Proof.Claim

/-! ### Small states -/

/-- Parameters as the spec's bus vectors leave them open: 64 KiB at 0x10000, registers at 0. -/
def par : Params := { lmemSize := 0x10000, regBase := 0, lmemHostBase := 0x10000 }

/-- The reset state with bytes at an address and registers changed. -/
def base (a : Nat) (bs : List Byte) (f : Regs → Regs) : State :=
  let s := State.resetWith par
  { s with mem := s.mem.setBytes a bs, regs := f s.regs }

/-- Something holds of the next state. -/
def nextIs (o : Host.Outcome State Fault Refusal) (p : State → Bool) : Bool :=
  match o with
  | .next t => p t
  | .fault _ => false
  | .refused _ => false

/-- DECOMPRESS of `bs` at 0 into 0x100, of size w x h. -/
def decompressOf (bs : List Byte) (w h : Nat) : State :=
  base 0 bs (fun r => { r with inLen := BitVec.ofNat 32 bs.length, pixBase := 0x100#32,
                               imgSize := BitVec.ofNat 32 (h * 65536 + w) })

/-- COMPRESS of `p` at 0 into 0x100. -/
def compressOf (p : List Byte) (m cap : Nat) : State :=
  base 0 p (fun r => { r with pixCount := BitVec.ofNat 32 p.length, outBase := 0x100#32,
                              outCap := BitVec.ofNat 32 cap, lzwCfg := BitVec.ofNat 4 m })

/-- The registers of a 2 x 1 screen, canvas at 0x100, table of `n` colours at 0x40, frame N-2 at 0x80. -/
def screen (n : Nat) (r : Regs) : Regs :=
  { r with screenSize := 0x00010002#32, imgSize := 0x00010002#32, canvasBase := 0x100#32, ctBase := 0x40#32,
           ctLen := BitVec.ofNat 32 n, n2Base := 0x80#32 }

/-- COMPOSITE of the indices `p` at 0, with the table black, white, red, blue (95_test_vectors.md). -/
def compositeOf (p : List Byte) (n : Nat) (f : Regs → Regs) : State :=
  let s := base 0 p (fun r => f (screen n { r with pixCount := BitVec.ofNat 32 p.length }))
  let table : List Byte := [0#8, 0#8, 0#8, 255#8, 255#8, 255#8, 255#8, 0#8, 0#8, 0#8, 0#8, 255#8]
  let red : List Byte := [255#8, 0#8, 0#8, 255#8]
  { s with mem := (s.mem.setBytes 0x40 table).setBytes 0x80 (red ++ red) }

/-- A codec of m = 2 with entries 6 = [1, 1] and 7 = [1, 2] and previous code 2. -/
def codec : Codec := { m := 2, width := 4, prev := some 2, dict := [ [1#8, 1#8], [1#8, 2#8] ] }

/-- A codec right after a Clear. -/
def fresh : Codec := { m := 2, width := 3, prev := none, dict := [] }

/-- A decompressor in its code loop, with the data `dt`, expecting `n` pixels. -/
def loop (k : Codec) (dt : List Byte) (n : Nat) : Decoder :=
  { Decoder.start n [] with minCode := some 2#8, framed := true, codec := some k, data := dt }

/-- A decompressor in its framing pass with the bytes `bs` left, after the first byte. -/
def framing (bs : List Byte) : Decoder := { Decoder.start 3 bs with minCode := some 2#8, codec := some fresh }

/-- A running DECOMPRESS with its datapath. -/
def running (d : Decoder) : State := insideDecompress d (State.resetWith par)

/-- A place in the code stream: m = 2, nxt = 8, previous code 2. -/
def place : Place := { params := par, m := 2, width := 4, nxt := 8, prev := some 2, first := false }

/-- The same right after a Clear, and before the first input byte. -/
def placeFirst : Place := { params := par, m := 2, width := 3, nxt := 6, prev := none, first := true }

/-- Idle with one host line. -/
def hostLine (l : HostLine) : State := { State.resetWith par with host := [l] }

/-- A running command of `op` from reset. -/
def busy (op : Opcode) : State := accept op (State.resetWith par)

/-! ### WellFormed refuses an ill-formed term for each check -/

theorem test_wf_illegalCmd : (Instr.illegalCmd 0x00000003#32).wf = false := by decide
theorem test_wf_literalFirst : (Instr.literalFirst 256).wf = false := by decide
theorem test_wf_literal : (Instr.literal 256).wf = false := by decide
theorem test_wf_dict_low : (Instr.dict 5).wf = false := by decide
theorem test_wf_dict_high : (Instr.dict 4096).wf = false := by decide
theorem test_wf_kwkwk : (Instr.kwkwk 4096).wf = false ∧ (Instr.kwkwk 5).wf = false := by decide
theorem test_wf_badcode : (Instr.badcode 4096).wf = false ∧ (Instr.badcode 5).wf = false := by decide
theorem test_wf_dataBlock_empty : (Instr.dataBlock 0#8 []).wf = false := by decide
theorem test_wf_dataBlock_size : (Instr.dataBlock 3#8 [1#8, 2#8]).wf = false := by decide
theorem test_wf_regRead : (Instr.regRead 0x0E).wf = false ∧ (Instr.regRead 0x100).wf = false := by decide
theorem test_wf_regWrite_offset : (Instr.regWrite 0x1A 0#32).wf = false := by decide
theorem test_wf_regWrite_reset : (Instr.regWrite 0x04 2#32).wf = false := by decide
theorem test_wf_regWrite_w1c :
    (Instr.regWrite 0x0C 0#32).wf = false ∧ (Instr.regWrite 0x10 0#32).wf = false := by decide
theorem test_wf_regWrite_cmd : (Instr.regWrite 0x08 4#32).wf = false := by decide
theorem test_wf_lmemRead : (Instr.lmemRead 0 3).wf = false ∧ (Instr.lmemRead 2 4).wf = false := by decide
theorem test_wf_lmemWrite :
    (Instr.lmemWrite 1 2 0#32).wf = false ∧ (Instr.lmemWrite 0 1 256#32).wf = false := by decide
theorem test_wf_softReset : (Instr.softReset 1#32).wf = false := by decide

/-- A width below m + 1, a next code below FIRST(m), and a minimum code size of 9 are no decoder's. -/
theorem test_wfIn_codec :
    Instr.clear.wfIn { place with width := 2 } = false ∧ Instr.eoi.wfIn { place with nxt := 5 } = false ∧
    Instr.clear.wfIn { place with m := 9, width := 10, nxt := 600 } = false := by decide

/-- Each class condition of R100, broken. -/
theorem test_wfIn_classes :
    (Instr.literalFirst 1).wfIn place = false ∧ (Instr.literal 1).wfIn placeFirst = false ∧
    (Instr.literal 4).wfIn place = false ∧ (Instr.dict 8).wfIn place = false ∧ (Instr.dict 6).wfIn placeFirst = false ∧
    (Instr.kwkwk 7).wfIn place = false ∧ (Instr.kwkwk 6).wfIn placeFirst = false ∧
    (Instr.badcode 8).wfIn place = false ∧ (Instr.badcode 16).wfIn place = false := by decide

/-- The first byte is the minimum code size and no later one is. -/
theorem test_wfIn_framing :
    (Instr.minCodeSize 2#8).wfIn place = false ∧ (Instr.dataBlock 1#8 [7#8]).wfIn placeFirst = false ∧
    Instr.terminator.wfIn placeFirst = false := by decide

theorem test_wfIn_lmem :
    (Instr.lmemRead 0xFFFE 4).wfIn place = false ∧ (Instr.lmemWrite 0x10000 1 0#32).wfIn place = false := by decide

/-! ### Decoding of words written out from the spec's encodings -/

/-- R91: [3:0] OPCODE, [31:4] zero; R238: 7 and 0x11 are illegal. -/
theorem test_decode_cmd :
    decodeCmd 0b00000000000000000000000000000000#32 = .nop ∧
    decodeCmd 0b00000000000000000000000000000001#32 = .decompress ∧
    decodeCmd 0b00000000000000000000000000000010#32 = .compress ∧
    decodeCmd 0b00000000000000000000000000000011#32 = .composite ∧
    decodeCmd 0b00000000000000000000000000000111#32 = .illegalCmd 7#32 ∧
    decodeCmd 0b00000000000000000000000000010001#32 = .illegalCmd 0x11#32 ∧
    decodeCmd 0b10000000000000000000000000000000#32 = .illegalCmd 0x80000000#32 := by decide

/-- R101: for m = 2 CLEAR is 100b and EOI 101b; the others by R100. -/
theorem test_decode_codes :
    decode placeFirst (.code 0b100 3) = .ok .clear ∧ decode placeFirst (.code 0b101 3) = .ok .eoi ∧
    decode placeFirst (.code 0b011 3) = .ok (.literalFirst 3) ∧ decode place (.code 0b0000 4) = .ok (.literal 0) ∧
    decode place (.code 0b0111 4) = .ok (.dict 7) ∧ decode place (.code 0b1000 4) = .ok (.kwkwk 8) ∧
    decode place (.code 0b1001 4) = .ok (.badcode 9) ∧ decode placeFirst (.code 0b110 3) = .ok (.badcode 6) ∧
    decode place (.code 4 3) = .error .codeWidth := by decide

/-- R93, R94: the minimum code size, a sub-block of two bytes, the terminator; an element more is refused. -/
theorem test_decode_framing :
    decode placeFirst (.bytes [0x08#8]) = .ok (.minCodeSize 8#8) ∧
    decode place (.bytes [0x02#8, 0x8C#8, 0x5F#8]) = .ok (.dataBlock 2#8 [0x8C#8, 0x5F#8]) ∧
    decode place (.bytes [0x00#8]) = .ok .terminator ∧ decode place (.bytes []) = .error .endOfInput ∧
    decode place (.bytes [0x00#8, 0x01#8]) = .error .trailingBytes := by decide

/-- R230, R61: accesses to the two windows, registers at 0 and LMEM at 0x10000. -/
theorem test_decode_bus :
    decodeLine par (.access { kind := .read, addr := 0x0C, width := 4, data := 0#32 }) = .ok (.regRead 0x0C) ∧
    decodeLine par (.access { kind := .write, addr := 0x1C, width := 4, data := 5#32 }) = .ok (.regWrite 0x1C 5#32) ∧
    decodeLine par (.access { kind := .read, addr := 0x1FFFC, width := 4, data := 0#32 }) = .ok (.lmemRead 0xFFFC 4) ∧
    decodeLine par (.access { kind := .write, addr := 0x10001, width := 1, data := 9#32 }) =
      .ok (.lmemWrite 1 1 9#32) ∧
    decodeLine par (.access { kind := .write, addr := 0x04, width := 4, data := 2#32 }) = .ok (.softReset 2#32) ∧
    decodeLine par (.access { kind := .write, addr := 0x0C, width := 4, data := 2#32 }) =
      .ok (.w1cStatus .status 2#32) ∧
    decodeLine par (.access { kind := .write, addr := 0x10, width := 4, data := 1#32 }) =
      .ok (.w1cStatus .errState 1#32) ∧
    decodeLine par (.access { kind := .write, addr := 0x08, width := 4, data := 7#32 }) = .ok (.illegalCmd 7#32) ∧
    decodeLine par (.access { kind := .write, addr := 0x08, width := 4, data := 1#32 }) = .ok (.regWrite 8 1#32) := by
  decide

/-- R63, R64, R61: what is refused, by name. -/
theorem test_decode_bus_rejects :
    decodeLine par (.access { kind := .read, addr := 0x0C, width := 2, data := 0#32 }) = .error .regWidth ∧
    decodeLine par (.access { kind := .read, addr := 0x0E, width := 4, data := 0#32 }) = .error .regAlignment ∧
    decodeLine par (.access { kind := .read, addr := 0x10000, width := 3, data := 0#32 }) = .error .lmemWidth ∧
    decodeLine par (.access { kind := .read, addr := 0x10001, width := 2, data := 0#32 }) = .error .lmemAlignment ∧
    decodeLine { par with lmemSize := 0xFFFF } (.access { kind := .read, addr := 0x1FFFE, width := 2, data := 0#32 }) =
      .error .lmemBounds ∧
    decodeLine par (.access { kind := .read, addr := 0x200, width := 4, data := 0#32 }) = .error .outsideWindows := by
  decide

/-- R121. -/
theorem test_decode_pseudo :
    decodeLine par .wait = .ok .wait ∧ decodeLine par (.run .compress) = .ok (.run .compress) ∧
    decodeLine par .ack = .ok .ack ∧ decodeLine par .clrerr = .ok .clrerr ∧ decodeLine par .reset = .ok .reset := by
  decide

/-- Words numbered as the opcode table numbers them (log 13). -/
theorem test_decodeTableWord :
    decodeTableWord 32 3 = some .composite ∧ decodeTableWord 8 0 = some .terminator ∧
    decodeTableWord 8 8 = some (.minCodeSize 8#8) ∧ decodeTableWord 8 1 = some (.dataBlock 1#8 [0#8]) ∧
    decodeTableWord 12 256 = some .clear ∧
    decodeTableWord 12 257 = some .eoi ∧ decodeTableWord 16 2048 = some (.kwkwk 2048) ∧
    decodeTableWord 24 0xBBAA02 = some (.dataBlock 2#8 [0xAA#8, 0xBB#8]) ∧ decodeTableWord 12 0x1000 = none := by decide

/-- The step runs such a word (log 13). -/
theorem test_withFetchWord :
    nextIs (step (State.reset.withFetchWord 32 0)) (fun t => t.regs.status.done) = true ∧
    nextIs (step (State.reset.withFetchWord 32 7)) (fun t => t.regs.status.illegalCmd) = true ∧
    nextIs (step (State.reset.withFetchWord 12 256)) (fun t => t.regs.lastErr == 0#8) = true ∧
    nextIs (step (State.reset.withFetchWord 8 0)) (fun t => t.regs.lastErr == 0#8) = true := by decide

/-! ### One step of each instruction -/

/-- R234: `run NOP` from reset leaves STATUS = 2. -/
theorem test_nop : nextIs (exec .nop (busy .nop)) (fun t => t.regs.value 0x0C == 2#32) = true := by decide

/-- VD2. -/
theorem test_decompress_kwkwk :
    nextIs (exec .decompress (decompressOf [2#8, 2#8, 0x8C#8, 0x5F#8, 0#8] 6 1)) (fun t =>
      readBytes t 0x100 6 == [1#8, 1#8, 1#8, 1#8, 1#8, 1#8] && t.regs.inPos == 5#32 && t.regs.blockCount == 1#32 &&
      t.regs.codeCount == 4#32 && t.regs.value 0x38 == 0x302#32 && t.regs.value 0x3C == 0x50004#32 &&
      t.regs.value 0x7C == 0x40008#32 && t.regs.lastErr == 0#8) = true := by decide

/-- VD9a. -/
theorem test_decompress_truncated :
    nextIs (exec .decompress (decompressOf [2#8, 2#8, 0x94#8] 6 1)) (fun t =>
      readBytes t 0x100 6 == [2#8, 0#8, 0#8, 0#8, 0#8, 0#8] && t.regs.inPos == 3#32 && t.regs.codeCount == 2#32 &&
      t.regs.value 0x7C == 0x30006#32 && t.regs.lastErr == 3#8 && t.regs.errState == 3#8) = true := by decide

/-- VC3. -/
theorem test_compress :
    nextIs (exec .compress (compressOf [0#8, 1#8, 0#8, 1#8, 0#8, 1#8, 0#8, 1#8] 2 16)) (fun t =>
      readBytes t 0x100 6 == [2#8, 3#8, 0x44#8, 0x8C#8, 0x51#8, 0#8] && t.regs.outLen == 6#32 &&
      t.regs.blockCount == 1#32 && t.regs.codeCount == 7#32 && t.regs.value 0x7C == 0x4000A#32) = true := by decide

/-- R181: `02 02 8C`, OUT_LEN = 3, cause 5. -/
theorem test_compress_full :
    nextIs (exec .compress (compressOf [1#8, 1#8, 1#8, 1#8, 1#8, 1#8] 2 3)) (fun t =>
      readBytes t 0x100 3 == [2#8, 2#8, 0x8C#8] && t.mem.get? 0x103 == none && t.regs.outLen == 3#32 &&
      t.regs.value 0x0C == 0x50006#32) = true := by decide

/-- Indices 1 and 4 with CT_LEN = 4: white, then opaque black with BAD_COLOUR_INDEX (R211). -/
theorem test_composite_bad_index :
    nextIs (exec .composite (compositeOf [1#8, 4#8] 4 id)) (fun t =>
      readBytes t 0x100 8 == [255#8, 255#8, 255#8, 255#8, 0#8, 0#8, 0#8, 255#8] && t.regs.lastErr == 0x40#8) = true := by
  decide

/-- Disposal 3 seeds frame N-2's red, which shows at the transparent index 1; index 3 draws blue (R205, R210). -/
theorem test_composite_seed :
    nextIs (exec .composite (compositeOf [1#8, 3#8] 4 (fun r =>
      { r with prevInfo := { prevDisposal := 3#3, n2Exists := true },
               imgFlags := { interlaced := false, transparent := true, transparentIndex := 1#8 } }))) (fun t =>
      readBytes t 0x100 8 == [255#8, 0#8, 0#8, 255#8, 0#8, 0#8, 255#8, 255#8] && t.regs.lastErr == 0#8) = true := by
  decide

/-- R238: only ILLEGAL_CMD; R239: only OVERRUN while busy. -/
theorem test_illegalCmd :
    nextIs (exec (.illegalCmd 7#32) (State.resetWith par)) (fun t => t.regs.value 0x0C == 8#32) = true ∧
    nextIs (exec (.illegalCmd 7#32) (busy .compress)) (fun t => t.regs.value 0x0C == 0x211#32) = true := by decide

/-- The datapath after an instruction, as a decompressor. -/
def decoderOf (s : State) : Decoder :=
  match s.datapath with
  | .decoder d => d
  | .idle => Decoder.start 0 []
  | .encoder _ => Decoder.start 0 []
  | .compositor _ => Decoder.start 0 []

/-- R136: the width is 3 again and the next code 6. -/
theorem test_clear :
    nextIs (exec .clear (running (loop codec [] 9))) (fun t =>
      (decoderOf t).codec == some fresh && (decoderOf t).out == []) = true := by decide

/-- R137: TOO_FEW_PIXELS, and decoding stops. -/
theorem test_eoi :
    nextIs (exec .eoi (running (loop codec [] 9))) (fun t =>
      (decoderOf t).stopped && t.regs.lastErr == 4#8 && (decoderOf t).codec == some codec) = true := by decide

/-- R138: code 1 after a Clear emits [1] and adds nothing. -/
theorem test_literalFirst :
    nextIs (exec (.literalFirst 1) (running (loop fresh [] 9))) (fun t =>
      (decoderOf t).out == [1#8] && (decoderOf t).codec == some { fresh with prev := some 1 }) = true := by decide

/-- R139: with prev = 2, code 1 emits [1] and adds entry 8 = [2, 1]. -/
theorem test_literal :
    nextIs (exec (.literal 1) (running (loop codec [] 9))) (fun t =>
      (decoderOf t).out == [1#8] && (decoderOf t).codec ==
        some { codec with prev := some 1, dict := [ [1#8, 1#8], [1#8, 2#8], [2#8, 1#8] ] }) = true := by decide

/-- R140: with prev = 2, code 7 = [1, 2] is emitted and entry 8 = [2, 1] added. -/
theorem test_dict :
    nextIs (exec (.dict 7) (running (loop codec [] 9))) (fun t =>
      (decoderOf t).out == [1#8, 2#8] && (decoderOf t).codec ==
        some { codec with prev := some 7, dict := [ [1#8, 1#8], [1#8, 2#8], [2#8, 1#8] ] }) = true := by decide

/-- R141: with prev = 7, code 8 is [1, 2, 1]; R144: two of the three indices fit. -/
theorem test_kwkwk :
    nextIs (exec (.kwkwk 8) (running (loop { codec with prev := some 7 } [] 2))) (fun t =>
      (decoderOf t).out == [1#8, 2#8] && t.regs.lastErr == 8#8 && (decoderOf t).codec ==
        some { codec with prev := some 8, dict := [ [1#8, 1#8], [1#8, 2#8], [1#8, 2#8, 1#8] ] }) = true := by decide

/-- R142: nothing is emitted or added. -/
theorem test_badcode :
    nextIs (exec (.badcode 9) (running (loop codec [] 9))) (fun t =>
      (decoderOf t).out == [] && (decoderOf t).codec == some codec && (decoderOf t).stopped &&
      t.regs.lastErr == 0x10#8) = true := by decide

/-- R102, R133: 8 is accepted, 9 is not. -/
theorem test_minCodeSize :
    nextIs (exec (.minCodeSize 8#8) (running (Decoder.start 3 []))) (fun t =>
      (decoderOf t).codec == some { m := 8, width := 9, prev := none, dict := [] } && t.regs.lastErr == 0#8) = true ∧
    nextIs (exec (.minCodeSize 9#8) (running (Decoder.start 3 []))) (fun t =>
      (decoderOf t).codec == none && t.regs.lastErr == 0x20#8) = true := by decide

/-- R132: a whole sub-block, and a short one. -/
theorem test_dataBlock :
    nextIs (exec (.dataBlock 2#8 [7#8, 9#8]) (running (framing []))) (fun t =>
      (decoderOf t).data == [7#8, 9#8] && (decoderOf t).blocks == 1 && !(decoderOf t).framed) = true ∧
    nextIs (exec (.dataBlock 3#8 [7#8, 9#8]) (running (framing []))) (fun t =>
      (decoderOf t).data == [7#8, 9#8] && (decoderOf t).framed && t.regs.lastErr == 2#8) = true := by decide

theorem test_terminator :
    nextIs (exec .terminator (running (framing []))) (fun t => (decoderOf t).framed && t.regs.lastErr == 0#8) = true := by
  decide

/-- R231: ID, and STATUS while a command runs. -/
theorem test_regRead :
    nextIs (exec (.regRead 0x00) (State.resetWith par)) (fun t => t.resp == some (.data 0x4C5A5701#32)) = true ∧
    nextIs (exec (.regRead 0x0C) (busy .composite)) (fun t => t.resp == some (.data 0x301#32)) = true := by decide

/-- LAST_ERR and LZW_STATE while busy: free in their fields, 0 in their reserved bits (R26, R52, R231). -/
theorem test_regRead_busy :
    exec (.regRead 0x14) (busy .nop) =
      .next { busy .nop with resp := some (.data (Config.freeWord 0 &&& 0x000000FF#32)), fresh := 1 } ∧
    exec (.regRead 0x7C) (busy .nop) =
      .next { busy .nop with resp := some (.data (Config.freeWord 0 &&& 0x000F1FFF#32)), fresh := 1 } := ⟨rfl, rfl⟩

/-- IMG_FLAGS keeps its reserved bits 0 (R41); PREV_INFO too (R44). -/
theorem test_regWrite :
    nextIs (exec (.regWrite 0x50 0xFFFFFFFF#32) (State.resetWith par)) (fun t =>
      t.regs.value 0x50 == 0x0000FF03#32) = true ∧
    nextIs (exec (.regWrite 0x5C 0xFFFFFFFF#32) (State.resetWith par)) (fun t =>
      t.regs.value 0x5C == 0x00000107#32) = true := by decide

/-- R62: after a 4-byte write of 0x11223344 at 0x10, a 2-byte read of 0x12 returns 0x1122. -/
theorem test_lmemRead :
    nextIs (exec (.lmemRead 0x12 2) (base 0x10 [0x44#8, 0x33#8, 0x22#8, 0x11#8] id)) (fun t =>
      t.resp == some (.data 0x1122#32)) = true := by decide

/-- The same write; and one at the last word of LMEM. -/
theorem test_lmemWrite :
    nextIs (exec (.lmemWrite 0x10 4 0x11223344#32) (State.resetWith par)) (fun t =>
      t.mem == [(0x10, 0x44#8), (0x11, 0x33#8), (0x12, 0x22#8), (0x13, 0x11#8)]) = true ∧
    nextIs (exec (.lmemWrite 0xFFFC 4 0#32) (State.resetWith par)) (fun t => t.resp == some .ok) = true := by decide

/-- R241: IRQ_EN of the same write is overridden, and STATUS = 0. -/
theorem test_softReset :
    nextIs (exec (.softReset 3#32) (busy .nop)) (fun t =>
      t.regs.value 0x04 == 0#32 && t.regs.value 0x0C == 0#32 && t.seq == .idle) = true := by decide

/-- R232: `wr STATUS, 2` clears DONE and nothing else. -/
theorem test_w1cStatus :
    nextIs (exec (.w1cStatus .status 2#32) (base 0 [] (fun r => { r with status := { r.status with
      done := true, fault := true, faultCause := 5#8 } }))) (fun t => t.regs.value 0x0C == 0x50004#32) = true ∧
    nextIs (exec (.w1cStatus .errState 1#32) (base 0 [] (fun r => { r with errState := 0x83#8 }))) (fun t =>
      t.regs.errState == 0x82#8) = true := by decide

/-- R121: `wait` reads again while BUSY = 1. -/
theorem test_wait :
    nextIs (exec .wait (busy .nop)) (fun t => t.resp == some (.data 1#32) && t.host == [.wait]) = true ∧
    nextIs (exec .wait (State.resetWith par)) (fun t => t.resp == some (.data 0#32) && t.host == []) = true := by decide

theorem test_run :
    nextIs (exec (.run .composite) (State.resetWith par)) (fun t =>
      t.seq == .running .composite && t.regs.value 0x0C == 0x301#32 && t.host == [.wait]) = true := by decide

theorem test_ack :
    nextIs (exec .ack (base 0 [] (fun r => { r with status := { r.status with
      done := true, fault := true, illegalCmd := true, overrun := true, lastOp := 2#4, faultCause := 5#8 } })))
      (fun t => t.regs.value 0x0C == 0x50200#32) = true := by decide

theorem test_clrerr :
    nextIs (exec .clrerr (base 0 [] (fun r => { r with errState := 0xFF#8, lastErr := 1#8 }))) (fun t =>
      t.regs.errState == 0#8 && t.regs.lastErr == 1#8) = true := by decide

theorem test_reset :
    nextIs (exec .reset (busy .compress)) (fun t => t.regs == Regs.reset && t.seq == .idle) = true := by decide

/-- R207: H = 10. -/
theorem test_rowMap : rowMap true 10 = [0, 8, 4, 2, 6, 1, 3, 5, 7, 9] := by decide

/-! ### Cases that meet the hypotheses of the obligations -/

/-- The boundary operands of every class, framing element and bus operation. -/
theorem witness_DecodeOfEncode :
    (Instr.illegalCmd 4#32).wfIn place = true ∧ Instr.clear.wfIn placeFirst = true ∧ Instr.eoi.wfIn place = true ∧
    (Instr.literalFirst 3).wfIn placeFirst = true ∧ (Instr.literal 0).wfIn place = true ∧
    (Instr.dict 6).wfIn place = true ∧ (Instr.dict 7).wfIn place = true ∧ (Instr.kwkwk 8).wfIn place = true ∧
    (Instr.kwkwk 4095).wfIn { place with width := 12, nxt := 4095 } = true ∧
    (Instr.badcode 9).wfIn place = true ∧ (Instr.badcode 6).wfIn placeFirst = true ∧
    (Instr.minCodeSize 0#8).wfIn placeFirst = true ∧ (Instr.dataBlock 1#8 [7#8]).wfIn place = true ∧
    Instr.terminator.wfIn place = true ∧
    (Instr.regRead 0xFC).wfIn place = true ∧ (Instr.regWrite 0x08 3#32).wfIn place = true ∧
    (Instr.lmemRead 0xFFFC 4).wfIn place = true ∧ (Instr.lmemWrite 0xFFFF 1 255#32).wfIn place = true ∧
    (Instr.softReset 2#32).wfIn place = true ∧ (Instr.w1cStatus .status 0#32).wfIn place = true := by decide

/-- The longest sub-block. -/
theorem witness_DecodeOfEncode_longest : (Instr.dataBlock 255#8 (List.replicate 255 0#8)).wfIn place = true := by
  unfold Instr.wfIn Instr.wf place
  dsimp only [-List.reduceReplicate]
  rw [List.length_replicate]
  decide

theorem witness_EncodeOfDecode :
    decode place (.code 15 4) = .ok (.badcode 15) ∧ (Instr.badcode 15).wfIn place = true ∧
    decode place (.line (.access { kind := .read, addr := 0x14, width := 4, data := 9#32 })) = .ok (.regRead 0x14) ∧
    (Instr.regRead 0x14).wfIn place = true ∧
    decode place (.line (.access { kind := .write, addr := 8, width := 4, data := 16#32 })) = .ok (.illegalCmd 16#32) ∧
    (Instr.illegalCmd 16#32).wfIn place = true := by decide

/-- Right after a Clear, with a full dictionary, and at code 4095. -/
theorem witness_CodeClassConditions :
    (6 : Nat) < 4096 ∧ 2 ^ 2 + 2 ≤ 6 ∧ (4095 : Nat) < 4096 ∧ 2 ^ 8 + 2 ≤ 4096 := by decide

/-- The host's two ways to move, and the block's two. -/
theorem witness_moves :
    HostMoves (hostLine .ack) (hostLine .ack) ∧
    HostMoves { busy .nop with sched := [.host], host := [.wait] } { busy .nop with sched := [], host := [.wait] } ∧
    BlockMoves (busy .nop) (busy .nop) .nop ∧
    BlockMoves { busy .compress with sched := [.block] } { busy .compress with sched := [] } .compress :=
  ⟨⟨rfl, .inr ⟨rfl, rfl, rfl⟩⟩, ⟨rfl, .inl ⟨[], rfl, rfl⟩⟩, ⟨rfl, rfl, .inr ⟨rfl, rfl⟩⟩,
    ⟨rfl, rfl, .inl ⟨[], rfl, rfl⟩⟩⟩

theorem witness_StepRunsDecodedInstruction_line :
    HostMoves (hostLine .ack) (hostLine .ack) ∧ (hostLine .ack).host = [.ack] ∧
    decodeLine (hostLine .ack).params .ack = .ok .ack := ⟨witness_moves.1, rfl, rfl⟩

theorem witness_StepRunsDecodedInstruction_element :
    (running (framing [1#8, 7#8, 0#8])).datapath = .decoder (framing [1#8, 7#8, 0#8]) ∧
    (framing [1#8, 7#8, 0#8]).framed = false ∧
    decodeElement (framing [1#8, 7#8, 0#8]).minCode.isNone (framing [1#8, 7#8, 0#8]).rest =
      .ok (.dataBlock 1#8 [7#8], [0#8]) := ⟨rfl, rfl, by decide⟩

/-- Exactly w bits are left. -/
theorem witness_StepRunsDecodedInstruction_code :
    let d := { loop codec [0x70#8] 9 with bitPos := 4 }
    (running d).datapath = .decoder d ∧ d.framed = true ∧ d.codec = some codec ∧ d.stopped = false ∧
    d.out.length < d.npix ∧ d.bitPos + codec.width = 8 * d.data.length := ⟨rfl, rfl, rfl, rfl, by decide, by decide⟩

/-- w - 1 bits are left. -/
theorem witness_InputRunsOut_code :
    let d := { loop codec [0x70#8] 9 with bitPos := 5 }
    (running d).datapath = .decoder d ∧ d.framed = true ∧ d.codec = some codec ∧ d.stopped = false ∧
    d.out.length < d.npix ∧ 8 * d.data.length + 1 = d.bitPos + codec.width := ⟨rfl, rfl, rfl, rfl, by decide, by decide⟩

theorem witness_InputRunsOut_bytes :
    (running (framing [])).datapath = .decoder (framing []) ∧ (framing []).framed = false ∧ (framing []).rest = [] ∧
    (running (Decoder.start 1 [])).datapath = .decoder (Decoder.start 1 []) ∧ (Decoder.start 1 []).framed = false ∧
    (Decoder.start 1 []).rest = [] := ⟨rfl, rfl, rfl, rfl, rfl, rfl⟩

/-- One access for each way to break R63 and R64, at the edges of the windows. -/
theorem witness_BadAccessIsBusError :
    par.WF ∧
    (∃ off, 0xFE = par.regBase + off ∧ off < 256 ∧ ((4 : Nat) ≠ 4 ∨ off % 4 ≠ 0)) ∧
    (∃ a, 0x1FFFF = par.lmemHostBase + a ∧ a < par.lmemSize ∧
      (¬(2 = 1 ∨ 2 = 2 ∨ 2 = 4) ∨ a % 2 ≠ 0 ∨ par.lmemSize < a + 2)) ∧
    0xFE < 256 ∧ 0xFE % 4 ≠ 0 ∧ (¬((8 : Nat) = 1 ∨ 8 = 2 ∨ 8 = 4) ∨ 0 % 8 ≠ 0 ∨ par.lmemSize < 0 + 8) ∧
    par.lmemSize < 0x10000 + 1 :=
  ⟨by decide, ⟨0xFE, by decide⟩, ⟨0xFFFF, by decide⟩, by decide, by decide, by decide, by decide⟩

/-- A CLEAR at width 4 stands at the bit cursor. -/
theorem witness_ClearRestartsDictionary :
    let d := loop codec [0x04#8] 9
    (running d).datapath = .decoder d ∧ d.codec = some codec ∧ d.framed = true ∧ d.stopped = false ∧
    d.out.length < d.npix ∧ d.bitPos + codec.width ≤ 8 * d.data.length ∧
    codeAt d.data d.bitPos codec.width = 2 ^ codec.m := ⟨rfl, rfl, rfl, rfl, by decide, by decide, by decide⟩

/-- Both ways to be a bad code, and a stopped decoder. -/
theorem witness_EoiAndBadCodeStopDecoding :
    let d := loop codec [0x09#8] 9
    (running d).datapath = .decoder d ∧ d.codec = some codec ∧ 2 ^ codec.m + 2 ≤ 9 ∧ codec.nxt < 9 ∧
    fresh.prev = none ∧ 2 ^ fresh.m + 2 ≤ 6 ∧ d.framed = true ∧ d.stopped = false ∧ d.out.length < d.npix ∧
    d.bitPos + codec.width ≤ 8 * d.data.length ∧ codeAt d.data d.bitPos codec.width = 9 ∧
    ({ d with stopped := true } : Decoder).stopped = true :=
  ⟨rfl, rfl, by decide, by decide, rfl, by decide, rfl, rfl, by decide, by decide, by decide, rfl⟩

theorem witness_LiteralCodes :
    (running (loop fresh [] 9)).datapath = .decoder (loop fresh [] 9) ∧ (loop fresh [] 9).codec = some fresh ∧
    (3 : Nat) < 2 ^ fresh.m ∧ fresh.prev = none ∧
    (running (loop codec [] 9)).datapath = .decoder (loop codec [] 9) ∧ (loop codec [] 9).codec = some codec ∧
    (0 : Nat) < 2 ^ codec.m ∧ codec.prev = some 2 := ⟨rfl, rfl, by decide, rfl, rfl, rfl, by decide, rfl⟩

/-- The first and the last assigned code. -/
theorem witness_DictCodeEmitsItsString :
    (running (loop codec [] 9)).datapath = .decoder (loop codec [] 9) ∧ (loop codec [] 9).codec = some codec ∧
    2 ^ codec.m + 2 ≤ 6 ∧ 6 < codec.nxt ∧ 7 < codec.nxt ∧ codec.prev = some 2 :=
  ⟨rfl, rfl, by decide, by decide, by decide, rfl⟩

theorem witness_KwkwkNamesTheEntryItMakes :
    (running (loop codec [] 9)).datapath = .decoder (loop codec [] 9) ∧ (loop codec [] 9).codec = some codec ∧
    codec.prev = some 2 ∧ codec.nxt < 4096 := ⟨rfl, rfl, rfl, by decide⟩

/-- A full dictionary. -/
def full : Codec := { m := 2, width := 12, prev := some 0, dict := List.replicate 4090 [0#8] }

/-- Below the cap, the entry that grows the width, and a full dictionary; each kind of code. -/
theorem witness_DictionaryGrowth :
    codec.nxt < 4096 ∧ ({ codec with width := 3, dict := [ [1#8, 1#8] ] } : Codec).nxt = 2 ^ 3 - 1 ∧
    4096 ≤ full.nxt ∧ 3 < 2 ^ codec.m ∧ 4 = 2 ^ codec.m ∧ 5 = 2 ^ codec.m + 1 ∧ 6 < codec.nxt ∧ codec.nxt ≤ 8 := by
  refine ⟨by decide, by decide, ?_, by decide, by decide, by decide, by decide, by decide⟩
  unfold Codec.nxt full
  dsimp only [-List.reduceReplicate]
  rw [List.length_replicate]
  decide

/-- Idle, a decoder without a codec, a code outside its class, and both wrong positions of a framing element. -/
theorem witness_ElementsStopOutsideDecoder :
    (∀ d, (State.resetWith par).datapath = .decoder d → d.codec = none) ∧
    (∀ d, (running (Decoder.start 1 [])).datapath = .decoder d → d.codec = none) ∧
    classify codec.m codec.nxt codec.prev 1 ≠ .literalFirst 1 ∧ classify codec.m codec.nxt codec.prev 6 ≠ .literal 6 ∧
    classify codec.m codec.nxt codec.prev 8 ≠ .dict 8 ∧ classify codec.m codec.nxt codec.prev 7 ≠ .kwkwk 7 ∧
    classify codec.m codec.nxt codec.prev 8 ≠ .badcode 8 ∧
    (∀ d, (running (framing [])).datapath = .decoder d → d.framed = true ∨ d.minCode ≠ none) ∧
    (∀ d, (running (Decoder.start 1 [])).datapath = .decoder d → d.framed = true ∨ d.minCode = none) := by
  refine ⟨(fun d h => nomatch h), ?_, by decide, by decide, by decide, by decide, by decide, ?_, ?_⟩
  · intro d h; injection h with h; subst h; rfl
  · intro d h; injection h with h; subst h; exact .inr (by decide)
  · intro d h; injection h with h; subst h; exact .inr rfl

theorem witness_MinCodeSizeStartsCodec :
    (running (Decoder.start 3 [])).datapath = .decoder (Decoder.start 3 []) ∧ (Decoder.start 3 []).framed = false ∧
    (Decoder.start 3 []).minCode = none ∧ (2 ≤ (2#8).toNat ∧ (2#8).toNat ≤ 8) ∧ (2 ≤ (8#8).toNat ∧ (8#8).toNat ≤ 8) ∧
    ¬(2 ≤ (1#8).toNat ∧ (1#8).toNat ≤ 8) ∧ ¬(2 ≤ (9#8).toNat ∧ (9#8).toNat ≤ 8) :=
  ⟨rfl, rfl, rfl, by decide, by decide, by decide, by decide⟩

theorem witness_SubBlocksJoinData :
    (running (framing [])).datapath = .decoder (framing []) ∧ (framing []).framed = false ∧
    (framing []).minCode = some 2#8 ∧ [7#8, 9#8].length = (2#8).toNat ∧ [7#8].length < (2#8).toNat :=
  ⟨rfl, rfl, rfl, by decide, by decide⟩

/-- Sub-blocks of 1 and of 255 bytes, and a last one that lacks a byte. -/
theorem witness_FramingOfSubBlocks :
    (∀ b ∈ [ [7#8], List.replicate 255 0#8 ], IsBlock b) ∧ ([] : List Byte).length < (1#8).toNat := by
  refine ⟨?_, by decide⟩
  intro b hb
  rcases List.mem_cons.1 hb with rfl | hb
  · exact ⟨by decide, by decide⟩
  · rw [List.mem_singleton.1 hb]
    unfold IsBlock
    rw [List.length_replicate]
    decide

/-- VD2; and a pixel region that ends with LMEM, with an empty input. -/
theorem witness_DecompressWritesPixels :
    let s := decompressOf [2#8, 2#8, 0x8C#8, 0x5F#8, 0#8] 6 1
    let e := { decompressOf [] 2 1 with regs := { (decompressOf [] 2 1).regs with pixBase := 0xFFFE#32 } }
    s.disturbed = false ∧ DecompressFits s ∧ DecompressApart s ∧
    e.disturbed = false ∧ DecompressFits e ∧ DecompressApart e := by
  unfold DecompressFits DecompressApart Fits Apart; decide

theorem witness_DecompressIsItsElements :
    DecompressFits (decompressOf [2#8, 2#8, 0x8C#8, 0x5F#8, 0#8] 6 1) ∧
    DecompressApart (decompressOf [2#8, 2#8, 0x8C#8, 0x5F#8, 0#8] 6 1) := by
  unfold DecompressFits DecompressApart Fits Apart; decide

theorem witness_ResultRegistersByFirstByte :
    ([1#8, 0#8] : List Byte) = 1#8 :: [0#8] ∧ ¬(2 ≤ (1#8).toNat ∧ (1#8).toNat ≤ 8) ∧
    2 ≤ (2#8).toNat ∧ (8#8).toNat ≤ 8 := by decide

/-- VD9a has pixels missing after the first. -/
theorem witness_DecodingEndsWithinCount :
    (decodeStream 6 [2#8, 2#8, 0x94#8]).1.out.length ≤ 1 ∧ 1 < 6 ∧
    (decodeStream 0 [2#8, 2#8, 0x4C#8, 1#8, 0#8]).1.codec = some fresh := by decide

/-- VD9a, which also has pixels missing, and VD10. -/
theorem witness_DecompressErrorBits :
    (decodeStream 6 [2#8, 2#8, 0x94#8]).1.out.length < 6 ∧
    (decodeStream 6 [2#8, 2#8, 0x94#8]).2 &&& 0x15#8 ≠ 0#8 ∧
    (decodeStream 3 [2#8, 2#8, 0x4C#8, 0x5C#8, 0#8]).2 &&& 0x08#8 ≠ 0#8 := by decide

/-- VC4, the empty buffer at m = 8, and the capacity of VC4 exactly. -/
theorem witness_CompressWritesImageData :
    let s := compressOf [1#8, 1#8, 1#8, 1#8, 1#8, 1#8] 2 5
    let e := compressOf [] 8 6
    (s.disturbed = false ∧ CompressSizeOk s ∧ CompressFits s ∧ CompressApart s ∧ CompressIndicesOk s ∧
      (compressBytes s.regs.lzwCfg.toNat (readBytes s s.regs.pixBase.toNat s.regs.pixCount.toNat)).length
        ≤ s.regs.outCap.toNat) ∧
    (e.disturbed = false ∧ CompressSizeOk e ∧ CompressFits e ∧ CompressApart e ∧ CompressIndicesOk e ∧
      (compressBytes e.regs.lzwCfg.toNat (readBytes e e.regs.pixBase.toNat e.regs.pixCount.toNat)).length
        ≤ e.regs.outCap.toNat) := by
  unfold CompressSizeOk CompressFits CompressApart CompressIndicesOk Fits Apart; decide

/-- One byte too little, and no byte at all. -/
theorem witness_CompressOutputCapacity :
    let s := compressOf [1#8, 1#8, 1#8, 1#8, 1#8, 1#8] 2 4
    let e := compressOf [] 2 0
    (s.disturbed = false ∧ CompressSizeOk s ∧ CompressFits s ∧ CompressApart s ∧ CompressIndicesOk s ∧
      s.regs.outCap.toNat <
        (compressBytes s.regs.lzwCfg.toNat (readBytes s s.regs.pixBase.toNat s.regs.pixCount.toNat)).length) ∧
    (e.disturbed = false ∧ CompressSizeOk e ∧ CompressFits e ∧ CompressApart e ∧ CompressIndicesOk e ∧
      e.regs.outCap.toNat <
        (compressBytes e.regs.lzwCfg.toNat (readBytes e e.regs.pixBase.toNat e.regs.pixCount.toNat)).length) := by
  unfold CompressSizeOk CompressFits CompressApart CompressIndicesOk Fits Apart; decide

/-- A compressor at m = 2 with ED = {(1, 1) -> 6}. -/
def encoder (rest : List Byte) (cur : Option Nat) : Encoder :=
  { Encoder.start 2 rest with cur := cur, ed := [{ code := 1, index := 1#8, value := 6 }] }

/-- A compressor whose codes up to 4095 are all assigned. -/
def encoderFull : Encoder :=
  { encoder [2#8] (some 3) with ed := List.replicate 4090 { code := 1, index := 1#8, value := 6 } }

/-- A state inside a COMPRESS. -/
def encoding (e : Encoder) : State := inEncoder e (busy .compress)

theorem witness_EncoderTurnIsGreedy :
    (encoding (encoder [] none)).datapath = .encoder (encoder [] none) ∧ (encoder [] none).finished = false ∧
    (encoder [] none).rest = [] ∧ (encoder [] none).cur = none ∧ (encoder [] (some 6)).cur = some 6 ∧
    (encoder [1#8] none).rest = 1#8 :: [] ∧ (encoder [1#8] (some 1)).lookup 1 1#8 = some 6 ∧
    (encoder [2#8] (some 1)).lookup 1 2#8 = none ∧ (encoder [2#8] (some 1)).enext < 4096 :=
  ⟨rfl, rfl, rfl, rfl, rfl, rfl, by decide, by decide, by decide⟩

theorem witness_EncoderTurnIsGreedy_full :
    (encoding encoderFull).datapath = .encoder encoderFull ∧ encoderFull.finished = false ∧
    encoderFull.rest = 2#8 :: [] ∧ encoderFull.cur = some 3 ∧ encoderFull.lookup 3 2#8 = none ∧
    4096 ≤ encoderFull.enext := by
  refine ⟨rfl, rfl, rfl, rfl, ?_, ?_⟩
  · show Encoder.lookup 3 2#8 { encoder [2#8] (some 3) with ed := List.replicate 4090 _ } = none
    unfold Encoder.lookup
    rw [List.find?_replicate]
    decide
  · unfold Encoder.enext encoderFull
    dsimp only [-List.reduceReplicate]
    rw [List.length_replicate]
    decide

/-- One code for each clause; the entry that grows the width, and the full dictionary. -/
theorem witness_MirrorTracksDecoderWidth :
    let e := { encoder [] none with dfirst := false }
    4 = 2 ^ e.m ∧ 5 = 2 ^ e.m + 1 ∧ (encoder [] none).dfirst = true ∧ e.dfirst = false ∧ e.dnext < 4096 ∧
    4096 ≤ ({ e with dnext := 4096, dw := 12 } : Encoder).dnext ∧
    ({ e with dnext := 7 } : Encoder).dnext = 2 ^ ({ e with dnext := 7 } : Encoder).dw - 1 := by decide

theorem witness_EncodingStartsClearEndsEoi : ∀ b ∈ ([3#8, 0#8] : List Byte), b.toNat < 2 ^ 2 := by decide

/-- The codes of VC3. -/
theorem witness_PackIsTheAccumulator :
    ∀ x ∈ [(4, 3), (0, 3), (1, 3), (6, 3), (8, 4), (1, 4), (5, 4)], x.1 < 2 ^ x.2 ∧ 3 ≤ x.2 := by decide

/-- The same, packed to `44 8C 51`. -/
theorem witness_PackedCodesReadBack :
    (6 : Nat) < 2 ^ 3 ∧
    [0x44#8, 0x8C#8, 0x51#8] = pack ([(4, 3), (0, 3), (1, 3)] ++ (6, 3) :: [(8, 4), (1, 4), (5, 4)]) ∧
    9 = ([(4, 3), (0, 3), (1, 3)].map Prod.snd).sum ∧ 24 = 9 + 3 + ([(8, 4), (1, 4), (5, 4)].map Prod.snd).sum := by
  decide

theorem witness_FrameLayout : ([0x2C#8] : List Byte) ≠ [] := by decide

/-- VC4 and the decoding of its bytes. -/
theorem witness_RoundTrip :
    let s := compressOf [1#8, 1#8, 1#8, 1#8, 1#8, 1#8] 2 16
    let u := decompressOf [2#8, 2#8, 0x8C#8, 0x5F#8, 0#8] 3 2
    s.disturbed = false ∧ CompressSizeOk s ∧ CompressFits s ∧ CompressApart s ∧ CompressIndicesOk s ∧
    s.regs.status.fault = false ∧ s.params.WF ∧ s.regs.pixCount ≠ 0#32 ∧ u.disturbed = false ∧ DecompressFits u ∧ DecompressApart u ∧
    u.regs.npix = s.regs.pixCount.toNat ∧
    nextIs (exec .compress s) (fun t => t.regs.status.fault == false && u.regs.inLen == t.regs.outLen &&
      (List.range t.regs.outLen.toNat).all (fun i =>
        readByte u (u.regs.inBase.toNat + i) == readByte t (s.regs.outBase.toNat + i))) = true := by
  unfold CompressSizeOk CompressFits CompressApart CompressIndicesOk DecompressFits DecompressApart Fits Apart; decide

/-- With and without frame N-2. -/
theorem witness_CompositeWritesCanvas :
    let s := compositeOf [1#8, 4#8] 4 id
    let u := compositeOf [1#8, 3#8] 4 (fun r => { r with prevInfo := { prevDisposal := 3#3, n2Exists := true } })
    (s.disturbed = false ∧ s.regs.ctLen.toNat ≤ 256 ∧ CompositeFits s ∧ CompositeApart s) ∧
    (u.disturbed = false ∧ u.regs.ctLen.toNat ≤ 256 ∧ CompositeFits u ∧ CompositeApart u) ∧ u.regs.seeds = true ∧
    (1 < s.regs.screenW ∧ 0 < s.regs.screenH) := by
  unfold CompositeFits CompositeApart Fits Apart; decide

/-- A pixel of the filled rectangle and one outside it. -/
theorem witness_DisposalOfPreviousFrame :
    let s := compositeOf [1#8, 3#8] 4 (fun r =>
      { r with prevInfo := { prevDisposal := 2#3, n2Exists := true }, prevPos := 1#32, prevSize := 0x00010001#32 })
    1 < s.regs.screenW ∧ 0 < s.regs.screenH ∧ s.regs.prevInfo.prevDisposal.toNat = 2 ∧
    inPrevRect s.regs 1 0 = true ∧ inPrevRect s.regs 0 0 = false := by decide

/-- A drawn, a transparent and a bad index; a position without a stream pixel; an empty buffer. -/
theorem witness_DrawnPixels :
    let s := compositeOf [1#8, 4#8] 4 (fun r =>
      { r with imgFlags := { interlaced := false, transparent := true, transparentIndex := 1#8 } })
    s.regs.pixCount ≠ 0#32 ∧ DrawnAt s 0 0 0 0 ∧ Transparent s (streamIndex s 0 0) ∧ DrawnAt s 0 1 1 0 ∧
    BadIndex s (streamIndex s 0 1) ∧ (compositeOf [] 4 id).regs.pixCount = 0#32 ∧
    DrawnAt (compositeOf [1#8, 4#8] 4 id) 0 0 0 0 ∧
    ¬Transparent (compositeOf [1#8, 4#8] 4 id) (streamIndex (compositeOf [1#8, 4#8] 4 id) 0 0) ∧
    (streamIndex (compositeOf [1#8, 4#8] 4 id) 0 0).toNat < (compositeOf [1#8, 4#8] 4 id).regs.ctLen.toNat := by
  unfold DrawnAt BadIndex Transparent; decide

/-- An image of one pixel leaves position (1, 0) of the screen without a stream pixel. -/
theorem witness_DrawnPixels_outside :
    let s := compositeOf [1#8] 4 (fun r => { r with imgSize := 0x00010001#32 })
    s.regs.pixCount ≠ 0#32 ∧ 1 < s.regs.screenW ∧ 0 < s.regs.screenH ∧ ∀ k j, ¬DrawnAt s k j 1 0 := by
  refine ⟨by decide, by decide, by decide, ?_⟩
  rintro k j ⟨-, hj, hx, -⟩
  have h1 : j < 1 := hj
  have h2 : 1 = 0 + j := hx
  omega

theorem witness_CompressAndCompositeAreTheirTurns :
    let s := compressOf [1#8, 1#8] 2 16
    let u := compositeOf [1#8, 4#8] 4 id
    CompressSizeOk s ∧ CompressFits s ∧ CompressApart s ∧ CompressIndicesOk s ∧
    u.regs.pixCount ≠ 0#32 ∧ u.regs.ctLen.toNat ≤ 256 ∧ CompositeFits u ∧ CompositeApart u := by
  unfold CompressSizeOk CompressFits CompressApart CompressIndicesOk CompositeFits CompositeApart Fits Apart; decide

/-- A state with changed registers. -/
def withRegs (s : State) (f : Regs → Regs) : State := { s with regs := f s.regs }

/-- DECOMPRESS whose pixels pass the end of LMEM, and one whose pixels lie on its input. -/
theorem witness_FaultsInCheckOrder_decompress :
    let s := decompressOf [2#8, 0#8] 2 1
    ¬DecompressFits (withRegs s (fun r => { r with pixBase := 0xFFFF#32 })) ∧
    DecompressFits (withRegs s (fun r => { r with pixBase := 1#32 })) ∧
    ¬DecompressApart (withRegs s (fun r => { r with pixBase := 1#32 })) := by
  unfold DecompressFits DecompressApart Fits Apart; decide

/-- COMPRESS with m = 1 and m = 9, beyond LMEM, on its input, and with the index 4 at m = 2. -/
theorem witness_FaultsInCheckOrder_compress :
    let s := compressOf [0#8, 4#8] 2 16
    ¬CompressSizeOk (compressOf [0#8] 1 16) ∧ ¬CompressSizeOk (compressOf [0#8] 9 16) ∧ CompressSizeOk s ∧
    ¬CompressFits (withRegs s (fun r => { r with outBase := 0xFFF1#32 })) ∧
    CompressFits (withRegs s (fun r => { r with outBase := 1#32 })) ∧
    ¬CompressApart (withRegs s (fun r => { r with outBase := 1#32 })) ∧
    CompressFits s ∧ CompressApart s ∧ ¬CompressIndicesOk s := by
  unfold CompressSizeOk CompressFits CompressApart CompressIndicesOk Fits Apart; decide

/-- COMPOSITE with 257 colours, beyond LMEM, and with N2_BASE = CANVAS_BASE. -/
theorem witness_FaultsInCheckOrder_composite :
    let s := compositeOf [1#8, 4#8] 4 (fun r =>
      { r with prevInfo := { prevDisposal := 3#3, n2Exists := true }, n2Base := 0x100#32 })
    256 < (compositeOf [1#8] 257 id).regs.ctLen.toNat ∧ s.regs.ctLen.toNat ≤ 256 ∧
    ¬CompositeFits (withRegs s (fun r => { r with canvasBase := 0xFFF9#32 })) ∧ CompositeFits s ∧ ¬CompositeApart s := by
  unfold CompositeFits CompositeApart Fits Apart; decide

/-- VD9a adds bits; VC4 at 3 bytes faults. -/
theorem witness_ErrorBitsAccumulate :
    let s := decompressOf [2#8, 2#8, 0x94#8] 6 1
    let u := compressOf [1#8, 1#8, 1#8, 1#8, 1#8, 1#8] 2 3
    s.disturbed = false ∧ s.regs.status.fault = false ∧ s.regs.lastErr = 0#8 ∧
    nextIs (exec Opcode.decompress.instr s) (fun _ => true) = true ∧ u.disturbed = false ∧
    u.regs.status.fault = false ∧ nextIs (exec Opcode.compress.instr u) (fun t => t.regs.status.fault) = true := by
  decide

/-- A command that ends BUSY, a CMD write that starts it, and `clrerr`. -/
theorem witness_OnlyTheseInstructionsChangeStatus :
    nextIs (exec .nop (busy .nop)) (fun t => (busy .nop).regs.status.busy && !t.regs.status.busy) = true ∧
    nextIs (exec (.regWrite 8 0#32) (State.resetWith par)) (fun t => t.regs.status.busy) = true ∧
    (State.resetWith par).disturbed = false ∧ clearsErrState .ack = false ∧ clearsErrState .clrerr = true := by decide

/-- Two states that differ outside the read region only. -/
theorem witness_CommandReadsOnlyItsRegions :
    let s := compressOf [1#8, 1#8] 2 16
    let s' := { s with mem := s.mem.setBytes 0x40 [9#8], host := [.ack] }
    s.disturbed = false ∧ s'.disturbed = false ∧ s'.regs = s.regs ∧ s'.params = s.params ∧
    (∀ g ∈ regionsOf .compress s.regs, g.write = false → ∀ a, g.has a = true → readByte s' a = readByte s a) ∧
    s' ≠ s := by
  refine ⟨rfl, rfl, rfl, rfl, ?_, by decide⟩
  intro g hg hw a ha
  have hg : g = { base := 0, len := 2, write := false } ∨ g = { base := 0x100, len := 16, write := true } := by
    simpa [regionsOf, compressOf, base, State.resetWith, Regs.reset] using hg
  rcases hg with rfl | rfl
  · have ha : 0 ≤ a ∧ a < 0 + 2 := by simpa [Region.has] using ha
    obtain rfl | rfl : a = 0 ∨ a = 1 := by omega
    · decide
    · decide
  · cases hw

/-- While busy, illegal while idle, and each command while idle. -/
theorem witness_CmdWriteProtocol :
    (busy .nop).regs.status.busy = true ∧ (State.resetWith par).regs.status.busy = false ∧
    illegalCmdWord 4#32 = true ∧ illegalCmdWord 0xFFFFFFFF#32 = true ∧ (3#32 : Word) = Opcode.composite.word := by decide

theorem witness_RegReadGivesValue :
    (0xFC : Nat) % 4 = 0 ∧ 0xFC < 256 ∧ (State.resetWith par).regs.status.busy = false ∧
    (busy .nop).regs.status.busy = true ∧ 0x18 ∉ resultOffsets ∧ 0x10 ∈ resultOffsets ∧ 0x7C ∈ resultOffsets := by decide

/-- Two neighbouring base registers that hold different values, and the first and last reserved offset. -/
theorem witness_RegReadGivesValue_map :
    ({ Regs.reset with inBase := 1#32, pixBase := 2#32 } : Regs).value 0x18 = 1#32 ∧
    ({ Regs.reset with inBase := 1#32, pixBase := 2#32 } : Regs).value 0x20 = 2#32 ∧
    0x80 ≤ 0x80 ∧ 0x80 ≤ 0xFC := by decide

theorem witness_RegWriteByFieldKind :
    (0x10 : Nat) % 4 = 0 ∧ 0x10 < 256 ∧ (State.resetWith par).regs.status.busy = false ∧ 0x10 ≠ 0x08 ∧
    ¬(0x04 = 0x04 ∧ (1#32 : Word).getLsbD 1 = true) := by decide

theorem witness_RegWriteWhileBusy :
    (busy .nop).regs.status.busy = true ∧ (0x14 : Nat) % 4 = 0 ∧ 0x14 ≤ 0x14 ∧ 0x7C ≤ 0x7C ∧ 0x80 ≤ 0x80 ∧ 0xFC < 256 ∧
    (1#32 : Word).getLsbD 1 = false := by decide

/-- Idle, and busy with a write region. -/
theorem witness_SoftResetAborts :
    (2#32 : Word).getLsbD 1 = true ∧ (State.resetWith par).seq = .idle ∧
    inRunningWriteRegion (accept .compress (compressOf [1#8] 2 16)) 0x0FF = false ∧
    inRunningWriteRegion (accept .compress (compressOf [1#8] 2 16)) 0x100 = true := by decide

/-- The last word of LMEM, idle; and a read just below the running command's write region. -/
theorem witness_LmemReadLittleEndian :
    (0xFFFC : Nat) % 4 = 0 ∧ 0xFFFC + 4 ≤ (State.resetWith par).params.lmemSize ∧
    (State.resetWith par).regs.status.busy = false ∧
    ∀ i, i < 4 → inRunningWriteRegion (accept .compress (compressOf [1#8] 2 16)) (0xFC + i) = false := by decide

/-- The same; and a byte of the running command's read region. -/
theorem witness_LmemWriteThenRead :
    (0xFFFC : Nat) % 4 = 0 ∧ 0xFFFC + 4 ≤ (State.resetWith par).params.lmemSize ∧
    (State.resetWith par).regs.status.busy = false ∧
    inRunningRegion (accept .compress (compressOf [1#8] 2 16)) 0 = true := by decide

theorem witness_PseudoInstructions :
    (State.resetWith par).regs.status.busy = false ∧ (busy .compress).regs.status.busy = true := by decide

theorem witness_InterruptFollowsStatus :
    nextIs (exec Opcode.nop.instr (busy .nop)) (fun _ => true) = true ∧
    nextIs (exec .ack (State.resetWith par)) (fun _ => true) = true ∧
    (State.resetWith par).regs.status.busy = false ∧
    nextIs (exec (.illegalCmd 7#32) (State.resetWith par)) (fun _ => true) = true := by decide

/-- A power-on reset while a command runs. -/
theorem witness_ResetValues :
    ({ busy .compress with sched := [.powerOn] } : State).datapath = .idle ∧
    ({ busy .compress with sched := [.powerOn] } : State).sched = .powerOn :: [] := ⟨rfl, rfl⟩

/-- The least and the largest LMEM. -/
theorem witness_ResetMeetsInvariant :
    par.WF ∧ ({ lmemSize := 1, regBase := 0x100, lmemHostBase := 0 } : Params).WF ∧
    ({ lmemSize := 2 ^ 32, regBase := 0, lmemHostBase := 0x100 } : Params).WF := by decide

/-- A state with the invariant and a command running, whose step answers a next state. -/
theorem witness_StepKeepsInvariant :
    (busy .nop).Inv ∧ nextIs (step (busy .nop)) (fun t => t.regs.status.done) = true := by
  refine ⟨⟨by decide, rfl, (fun c hc => nomatch hc), rfl, ⟨rfl, rfl, rfl, rfl, rfl⟩, by decide, by decide, fun _ => rfl,
    fun _ => rfl⟩, by decide⟩

theorem witness_StepNeverStops : (busy .nop).Inv ∧ BlockMoves (busy .nop) (busy .nop) .nop :=
  ⟨witness_StepKeepsInvariant.1, witness_moves.2.2.1⟩

/-- The addresses just outside both windows of `par`, and the first offset beyond the register window. -/
theorem witness_NoResponseOutsideWindows :
    let b : BusAccess := { kind := .read, addr := 0x100, width := 4, data := 0#32 }
    HostMoves (hostLine (.access b)) (hostLine (.access b)) ∧ (hostLine (.access b)).host = .access b :: [] ∧
    ¬(par.regBase ≤ 0x100 ∧ 0x100 < par.regBase + 256) ∧
    ¬(par.lmemHostBase ≤ 0x100 ∧ 0x100 < par.lmemHostBase + par.lmemSize) ∧
    ¬(par.lmemHostBase ≤ 0x20000 ∧ 0x20000 < par.lmemHostBase + par.lmemSize) ∧ 256 ≤ 0x100 :=
  ⟨⟨rfl, .inr ⟨rfl, rfl, rfl⟩⟩, rfl, by decide, by decide, by decide, by decide⟩

end Sys2Proof.Tests
end

/-! Proofs of the statements about the state (10_state.md): first what one instruction can do, said once and used for the
invariant and for the rules about STATUS; then the dictionary, the places of the elements, the interrupt and reset. -/

namespace Sys2Proof.Machine

/-! ### What one instruction can do -/

/-- `t` is `u` but for the host's lines, its last result and the count of free values: the block itself is the same. -/
abbrev SameBlock (t u : State) : Prop := t = { u with host := t.host, resp := t.resp, fresh := t.fresh }

theorem inv_sameBlock {t u : State} (h : SameBlock t u) (hu : u.Inv) : t.Inv := by
  have hregs : t.regs = u.regs := by rw [h]
  refine inv_regs hu (by rw [h]) (by rw [h]) (by rw [h]) (by rw [h]) ?_ (fun _ => by rw [hregs]) (fun _ => by rw [h])
  rw [hregs]; exact ⟨rfl, rfl, rfl, id, id⟩

/-- The instruction is a register write at `off` of `v` (43_control.md R232, R240, R241; 30_encoding.md R121). -/
inductive RegisterWrite : Instr → Nat → Word → Prop
  | regWrite (off : Nat) (v : Word) : RegisterWrite (.regWrite off v) off v
  | softReset (v : Word) : RegisterWrite (.softReset v) 0x04 v
  | w1cStatus (r : W1cReg) (v : Word) : RegisterWrite (.w1cStatus r v) r.offset v
  | run (op : Opcode) : RegisterWrite (.run op) 0x08 op.word
  | ack : RegisterWrite .ack 0x0C 0x0000001E#32
  | clrerr : RegisterWrite .clrerr 0x10 0x000000FF#32
  | reset : RegisterWrite .reset 0x04 0x00000002#32

theorem clearW1c_eq_writeRegister (r : W1cReg) (v : Word) (s : State) : clearW1c r v s = writeRegister r.offset v s := by
  cases r with
  | status => exact (writeRegister_status v s).symm
  | errState => exact (writeRegister_errState v s).symm

/-- What an instruction of the host does to the block in state `s`. -/
inductive HostAct (i : Instr) (s : State) : State → Prop
  /-- A read, or an access the block rejects. -/
  | none : HostAct i s s
  | write {off : Nat} {v : Word} (h : RegisterWrite i off v) : HostAct i s (writeRegister off v s)
  | ignoreCmd {v : Word} (hi : i = .illegalCmd v) (hb : s.regs.status.busy = true) : HostAct i s (setOverrun s)
  | refuseCmd {v : Word} (hi : i = .illegalCmd v) (hb : ¬s.regs.status.busy = true) : HostAct i s (setIllegalCmd s)
  | store {a n : Nat} {v : Word} (hi : i = .lmemWrite a n v) (hok : lmemAccessOk s a n = true) :
    HostAct i s (hostWrite s a n v)

theorem exec_command_next {op : Opcode} {i : Instr} {s t : State} (hi : i = op.instr) (h : exec i s = .next t) :
    ∃ op c bits u, i = op.instr ∧ t = complete op c u ∧ Worked op bits s u := by
  subst hi
  obtain ⟨c, bits, u, hu, hw, -⟩ := exec_command op s
  exact ⟨op, c, bits, u, rfl, Host.Outcome.next.inj (h.symm.trans hu), hw⟩

/-- A code or a framing element answers a next state only inside a completion step, and then as an effect. -/
theorem runCode_next_cases {i : Instr} {c : Nat} {f : Codec → Decoder → Effect} {s t : State}
    (h : runCode i c f s = .next t) : s.datapath ≠ .idle ∧ ∃ e, t = applyEffect e s := by
  refine ⟨fun hd => ?_, runCode_effect h⟩
  rw [runCode_idle hd] at h
  cases h

theorem runElement_next_cases {b : Bool} {f : Decoder → Effect} {s t : State}
    (h : runElement b f s = .next t) : s.datapath ≠ .idle ∧ ∃ e, t = applyEffect e s := by
  refine ⟨fun hd => ?_, runElement_effect h⟩
  rw [runElement_idle hd] at h
  cases h

theorem sameBlock_rejectRegister (off : Nat) (s : State) : SameBlock (rejectRegister off s) s := by
  unfold rejectRegister
  split <;> rfl

theorem execRegRead_acts {off : Nat} {s t : State} (h : execRegRead off s = .next t) : SameBlock t s := by
  unfold execRegRead at h
  split_ifs at h <;> cases h
  · rfl
  · rfl
  · exact sameBlock_rejectRegister off s

theorem execRegWrite_acts {off : Nat} {v : Word} {s t : State} (h : execRegWrite off v s = .next t) :
    SameBlock t (writeRegister off v s) ∨ SameBlock t s := by
  unfold execRegWrite at h
  split_ifs at h <;> cases h
  · exact .inl rfl
  · exact .inr (sameBlock_rejectRegister off s)

theorem execLmemRead_acts {a n : Nat} {s t : State} (h : execLmemRead a n s = .next t) : SameBlock t s := by
  unfold execLmemRead at h
  split_ifs at h <;> cases h <;> rfl

theorem execLmemWrite_acts {a n : Nat} {v : Word} {s t : State} (h : execLmemWrite a n v s = .next t) :
    (lmemAccessOk s a n = true ∧ SameBlock t (hostWrite s a n v)) ∨ SameBlock t s := by
  unfold execLmemWrite at h
  split_ifs at h with hok <;> cases h
  · exact .inl ⟨hok, rfl⟩
  · exact .inr rfl

/-- Everything an instruction can do: a command completes; an element has its effect, inside a completion step only; any
other instruction acts on the block as the host does. -/
theorem exec_cases {i : Instr} {s t : State} (h : exec i s = .next t) :
    (∃ op c bits u, i = op.instr ∧ t = complete op c u ∧ Worked op bits s u) ∨
    (s.datapath ≠ .idle ∧ ∃ e, t = applyEffect e s) ∨
    (∃ u, SameBlock t u ∧ HostAct i s u) := by
  cases i with
  | nop => exact .inl (exec_command_next (op := .nop) rfl h)
  | decompress => exact .inl (exec_command_next (op := .decompress) rfl h)
  | compress => exact .inl (exec_command_next (op := .compress) rfl h)
  | composite => exact .inl (exec_command_next (op := .composite) rfl h)
  | clear | eoi | literalFirst | literal | dict | kwkwk | badcode => exact .inr (.inl (runCode_next_cases h))
  | minCodeSize | dataBlock | terminator => exact .inr (.inl (runElement_next_cases h))
  | regRead off => exact .inr (.inr ⟨s, execRegRead_acts h, .none⟩)
  | lmemRead a n => exact .inr (.inr ⟨s, execLmemRead_acts h, .none⟩)
  | regWrite off v =>
    obtain hw | hn := execRegWrite_acts h
    · exact .inr (.inr ⟨_, hw, .write (.regWrite off v)⟩)
    · exact .inr (.inr ⟨s, hn, .none⟩)
  | lmemWrite a n v =>
    obtain ⟨hok, hw⟩ | hn := execLmemWrite_acts h
    · exact .inr (.inr ⟨_, hw, .store rfl hok⟩)
    · exact .inr (.inr ⟨s, hn, .none⟩)
  | illegalCmd v =>
    cases h
    split
    · next hb => exact .inr (.inr ⟨_, rfl, .ignoreCmd rfl hb⟩)
    · next hb => exact .inr (.inr ⟨_, rfl, .refuseCmd rfl hb⟩)
  | softReset v =>
    cases h
    rw [← writeRegister_ctrl]
    exact .inr (.inr ⟨_, rfl, .write (.softReset v)⟩)
  | w1cStatus r v =>
    cases h
    rw [clearW1c_eq_writeRegister]
    exact .inr (.inr ⟨_, rfl, .write (.w1cStatus r v)⟩)
  | wait => cases h; exact .inr (.inr ⟨s, rfl, .none⟩)
  | run op => cases h; exact .inr (.inr ⟨writeRegister 0x08 op.word s, rfl, .write (.run op)⟩)
  | ack => cases h; exact .inr (.inr ⟨_, rfl, .write .ack⟩)
  | clrerr => cases h; exact .inr (.inr ⟨_, rfl, .write .clrerr⟩)
  | reset => cases h; exact .inr (.inr ⟨_, rfl, .write .reset⟩)

/-! ### The invariant -/

theorem inv_hostAct {i : Instr} {s u : State} (h : s.Inv) (ha : HostAct i s u) : u.Inv := by
  cases ha with
  | none => exact h
  | write => exact inv_writeRegister h
  | ignoreCmd => exact inv_overrun h
  | refuseCmd => exact inv_illegal h
  | store _ hok => exact inv_hostWrite h hok

theorem inv_exec {i : Instr} {s t : State} (h : s.Inv) (he : exec i s = .next t) : t.Inv := by
  obtain ⟨op, c, bits, u, -, rfl, hw⟩ | ⟨hd, -⟩ | ⟨u, hu, ha⟩ := exec_cases he
  · exact inv_complete op bits c s u h hw
  · exact absurd h.datapath hd
  · exact inv_sameBlock hu (inv_hostAct h ha)

theorem inv_rejectAccess {s : State} (r : Reject) (h : s.Inv) : (rejectAccess r s).Inv := by
  cases r <;> exact inv_respond h

theorem inv_hostTurn {s t : State} (h : s.Inv) (ht : hostTurn s = .next t) : t.Inv := by
  unfold hostTurn at ht
  split at ht
  · cases ht; exact h
  · next rest _ =>
    split at ht
    · exact inv_exec (inv_host rest h) ht
    · cases ht; exact inv_rejectAccess _ (inv_host rest h)

theorem inv_blockTurn {s t : State} (h : s.Inv) (ht : blockTurn s = .next t) : t.Inv := by
  unfold blockTurn at ht
  split at ht
  · cases ht; exact h
  · exact inv_exec h ht

theorem inv_nextTurn {s t : State} (h : s.Inv) (ht : nextTurn s = .next t) : t.Inv := by
  unfold nextTurn at ht
  split at ht
  · exact inv_hostTurn (inv_sched _ h) ht
  · exact inv_blockTurn (inv_sched _ h) ht
  · cases ht; exact inv_powerOn (inv_sched _ h)
  · split at ht
    · exact inv_hostTurn h ht
    · exact inv_blockTurn h ht

theorem step_idle {s : State} (hd : s.datapath = .idle) : step s = nextTurn s := by
  unfold step; rw [hd]

/-! ### ERRSTATE and BUSY -/

theorem errState_write {off : Nat} {v : Word} {r : Regs} (h : off ≠ 0x10) : (r.write off v).errState = r.errState := by
  unfold Regs.write
  split
  case h_3 => exact absurd rfl h
  all_goals rfl

theorem busy_write (off : Nat) (v : Word) (r : Regs) : (r.write off v).status.busy = r.status.busy := by
  by_cases h : off = 0x0C
  · subst h; rfl
  · rw [write_status off v r h]

theorem writeCtrl_of_bit_clear {v : Word} {s : State} (h : v.getLsbD 1 = false) :
    writeCtrl v s = { s with regs := s.regs.write 0x04 v } := by
  rw [writeCtrl, h]; rfl

/-- What a register write does to ERRSTATE and BUSY: it is a soft reset, a CMD write, an ignored write, or takes a field. -/
theorem writeRegister_cases (off : Nat) (v : Word) (s : State) :
    (off = 0x04 ∧ v.getLsbD 1 = true) ∨ (off = 0x08 ∧ writeRegister off v s = writeCmd v s) ∨
    writeRegister off v s = setOverrun s ∨ writeRegister off v s = { s with regs := s.regs.write off v } := by
  unfold writeRegister
  split_ifs with hcmd hbusy hctrl
  · exact .inr (.inl ⟨hcmd, rfl⟩)
  · exact .inr (.inr (.inl rfl))
  · subst hctrl
    cases hv : v.getLsbD 1 with
    | true => exact .inl ⟨rfl, rfl⟩
    | false => exact .inr (.inr (.inr (writeCtrl_of_bit_clear hv)))
  · exact .inr (.inr (.inr rfl))

theorem writeRegister_errState_eq {off : Nat} {v : Word} {s : State} (herr : off ≠ 0x10)
    (hreset : ¬(off = 0x04 ∧ v.getLsbD 1 = true)) : (writeRegister off v s).regs.errState = s.regs.errState := by
  obtain h | ⟨-, h⟩ | h | h := writeRegister_cases off v s
  · exact absurd h hreset
  · rw [h]; exact (writeCmd_facts v s).1
  · rw [h]; rfl
  · rw [h]; exact errState_write herr

theorem writeRegister_ends_busy {off : Nat} {v : Word} {s : State} (hb : s.regs.status.busy = true)
    (ht : (writeRegister off v s).regs.status.busy = false) : off = 0x04 ∧ v.getLsbD 1 = true := by
  obtain h | ⟨-, h⟩ | h | h := writeRegister_cases off v s
  · exact h
  · rw [h, (writeCmd_facts v s).2.1 hb] at ht; cases ht
  · rw [h, setOverrun_status, hb] at ht; cases ht
  · rw [h, busy_write, hb] at ht; cases ht

theorem writeRegister_starts_busy {off : Nat} {v : Word} {s : State} (hb : s.regs.status.busy = false)
    (ht : (writeRegister off v s).regs.status.busy = true) : off = 0x08 ∧ illegalCmdWord v = false := by
  obtain ⟨rfl, hv⟩ | ⟨hcmd, h⟩ | h | h := writeRegister_cases off v s
  · rw [writeRegister_ctrl, writeCtrl, if_pos hv] at ht; cases ht
  · rw [h] at ht
    obtain ⟨op, hop⟩ := (writeCmd_facts v s).2.2 hb ht
    exact ⟨hcmd, decodeOpcode_legal hop⟩
  · rw [h, setOverrun_status, hb] at ht; cases ht
  · rw [h, busy_write, hb] at ht; cases ht

/-- Of the register writes only one to ERRSTATE and a reset may clear error bits. -/
theorem RegisterWrite.off_of_keeps_errState {i : Instr} {off : Nat} {v : Word} (hi : RegisterWrite i off v)
    (hc : Claim.clearsErrState i = false) : off ≠ 0x10 ∧ ¬(off = 0x04 ∧ v.getLsbD 1 = true) := by
  cases hi with
  | regWrite => simpa [Claim.clearsErrState, imp_iff_not_or] using hc
  | w1cStatus r => cases r with
    | status => simp [W1cReg.offset]
    | errState => cases hc
  | run | ack => simp
  | softReset | clrerr | reset => cases hc

theorem RegisterWrite.mayEndBusy {i : Instr} {v : Word} (hi : RegisterWrite i 0x04 v) (hv : v.getLsbD 1 = true) :
    Claim.mayEndBusy i = true := by
  generalize hoff : 0x04 = off at hi
  cases hi with
  | regWrite => subst hoff; simpa [Claim.mayEndBusy] using hv
  | softReset | reset => rfl
  | w1cStatus r => cases r <;> cases hoff
  | run | ack | clrerr => cases hoff

theorem RegisterWrite.mayStartBusy {i : Instr} {v : Word} (hi : RegisterWrite i 0x08 v)
    (hv : illegalCmdWord v = false) : Claim.mayStartBusy i = true := by
  generalize hoff : 0x08 = off at hi
  cases hi with
  | regWrite => subst hoff; simpa [Claim.mayStartBusy] using hv
  | run => rfl
  | w1cStatus r => cases r <;> cases hoff
  | softReset | ack | clrerr | reset => cases hoff

/-- What an instruction run on `s` may do to ERRSTATE and BUSY on the way to `t` (10_state.md R24, R25). -/
structure StatusRules (i : Instr) (s t : State) : Prop where
  errState : s.disturbed = false → Claim.clearsErrState i = false → s.regs.errState &&& ~~~t.regs.errState = 0#8
  ends : s.regs.status.busy = true → t.regs.status.busy = false → Claim.mayEndBusy i = true
  starts : s.regs.status.busy = false → t.regs.status.busy = true → Claim.mayStartBusy i = true

/-- An instruction that clears no error bit and leaves BUSY alone keeps the rules. -/
theorem StatusRules.of_kept {i : Instr} {s t : State} (he : s.regs.errState &&& ~~~t.regs.errState = 0#8)
    (hb : t.regs.status.busy = s.regs.status.busy) : StatusRules i s t where
  errState _ _ := he
  ends h1 h2 := by rw [hb, h1] at h2; cases h2
  starts h1 h2 := by rw [hb, h1] at h2; cases h2

theorem complete_errState {op : Opcode} {c : Option FaultCause} {s : State} (h : s.disturbed = false) :
    (complete op c s).regs.errState = s.regs.errState := by
  cases c with
  | none => rw [complete_ok op s h]
  | some c => rw [complete_fault op c s h]

theorem endStatus_busy (c : Option FaultCause) (st : Status) : (endStatus c st).busy = false := by cases c <;> rfl

theorem endStatus_done (c : Option FaultCause) (st : Status) : (endStatus c st).done = true := by cases c <;> rfl

theorem statusRules_complete {op : Opcode} {c : Option FaultCause} {bits : ErrBits} {s u : State}
    (hw : Worked op bits s u) : StatusRules op.instr s (complete op c u) where
  errState hd _ := by
    have hu : u.disturbed = false := by rw [hw.frame]; exact hd
    rw [complete_errState hu, hw.errState]
    exact andnot _ _
  ends _ _ := by cases op <;> rfl
  starts _ h := by rw [complete_status, endStatus_busy] at h; cases h

theorem statusRules_write {i : Instr} {off : Nat} {v : Word} {s : State} (hi : RegisterWrite i off v) :
    StatusRules i s (writeRegister off v s) where
  errState _ hc := by
    obtain ⟨herr, hreset⟩ := hi.off_of_keeps_errState hc
    rw [writeRegister_errState_eq herr hreset]
    exact andnot' _
  ends h1 h2 := by
    obtain ⟨rfl, hv⟩ := writeRegister_ends_busy h1 h2
    exact hi.mayEndBusy hv
  starts h1 h2 := by
    obtain ⟨rfl, hv⟩ := writeRegister_starts_busy h1 h2
    exact hi.mayStartBusy hv

theorem statusRules_hostAct {i : Instr} {s u : State} (ha : HostAct i s u) : StatusRules i s u := by
  cases ha with
  | write hi => exact statusRules_write hi
  | none | ignoreCmd | refuseCmd | store => exact .of_kept (andnot' _) rfl

theorem statusRules_exec {i : Instr} {s t : State} (h : exec i s = .next t) : StatusRules i s t := by
  obtain ⟨op, c, bits, u, rfl, rfl, hw⟩ | ⟨-, e, rfl⟩ | ⟨u, hu, ha⟩ := exec_cases h
  · exact statusRules_complete hw
  · obtain ⟨hst, herr⟩ := applyEffect_status e s
    exact .of_kept herr (congrArg Status.busy hst)
  · have hregs : t.regs = u.regs := by rw [hu]
    obtain ⟨herr, hends, hstarts⟩ := statusRules_hostAct ha
    rw [← hregs] at herr hends hstarts
    exact ⟨herr, hends, hstarts⟩

/-! ### The dictionary (10_state.md R56) -/

theorem Codec.str?_literal {k : Codec} {c : Nat} (h : c < 2 ^ k.m) : k.str? c = some [BitVec.ofNat 8 c] := if_pos h

theorem Codec.str?_control {k : Codec} {c : Nat} (h : c = 2 ^ k.m ∨ c = 2 ^ k.m + 1) : k.str? c = none := by
  rw [Codec.str?, if_neg (by omega), if_pos (by unfold firstCode; omega)]

theorem Codec.str?_assigned {k : Codec} {c : Nat} (h : 2 ^ k.m + 2 ≤ c) : k.str? c = k.dict[c - (2 ^ k.m + 2)]? := by
  rw [Codec.str?, if_neg (by omega), if_neg (by unfold firstCode; omega)]
  rfl

theorem Codec.nxt_eq (k : Codec) : k.nxt = 2 ^ k.m + 2 + k.dict.length := rfl

theorem Codec.str?_isSome {k : Codec} {c : Nat} (h : 2 ^ k.m + 2 ≤ c) (hc : c < k.nxt) : (k.str? c).isSome = true := by
  rw [Codec.nxt_eq] at hc
  rw [Codec.str?_assigned h, List.getElem?_eq_getElem (by omega)]
  rfl

theorem Codec.str?_unassigned {k : Codec} {c : Nat} (h : k.nxt ≤ c) : k.str? c = none := by
  rw [Codec.nxt_eq] at h
  rw [Codec.str?_assigned (by omega), List.getElem?_eq_none (by omega)]

theorem Codec.addEntry_of_full (x : List Byte) {k : Codec} (h : 4096 ≤ k.nxt) : k.addEntry x = k :=
  if_neg (Nat.not_lt.2 h)

theorem Codec.str?_addEntry_nxt (x : List Byte) {k : Codec} (h : k.nxt < 4096) :
    (k.addEntry x).str? k.nxt = some x := by
  have hn := k.nxt_eq
  rw [Codec.str?_assigned (by rw [Codec.addEntry_m]; omega), Codec.addEntry_m, Codec.addEntry_dict x h, hn,
    Nat.add_sub_cancel_left, List.getElem?_concat_length]

theorem Codec.str?_addEntry_of_ne (x : List Byte) {k : Codec} {c : Nat} (h : k.nxt < 4096) (hc : c ≠ k.nxt) :
    (k.addEntry x).str? c = k.str? c := by
  have hn := k.nxt_eq
  by_cases hfirst : 2 ^ k.m + 2 ≤ c
  · rw [Codec.str?_assigned hfirst, Codec.str?_assigned (by rwa [Codec.addEntry_m]), Codec.addEntry_m,
      Codec.addEntry_dict x h]
    by_cases hlt : c < k.nxt
    · rw [List.getElem?_append_left (by omega)]
    · rw [List.getElem?_eq_none (by simp; omega), List.getElem?_eq_none (by omega)]
  · by_cases hlit : c < 2 ^ k.m
    · rw [Codec.str?_literal hlit, Codec.str?_literal (by rwa [Codec.addEntry_m])]
    · have hctl : c = 2 ^ k.m ∨ c = 2 ^ k.m + 1 := by omega
      rw [Codec.str?_control hctl, Codec.str?_control (by rwa [Codec.addEntry_m])]

/-! ### Elements outside their place (log 8) -/

theorem runCode_noCodec {s : State} (h : ∀ d, s.datapath = .decoder d → d.codec = none) (i : Instr) (c : Nat)
    (f : Codec → Decoder → Effect) : runCode i c f s = .fault .noElementStream := by
  unfold runCode
  split
  · next d hd => rw [h d hd]
  all_goals rfl

theorem runCode_otherClass {s : State} {d : Decoder} {k : Codec} (hd : s.datapath = .decoder d) (hk : d.codec = some k)
    {i : Instr} {c : Nat} (f : Codec → Decoder → Effect) (h : k.classify c ≠ i) :
    runCode i c f s = .fault .notOfThisClass := by
  simp [runCode, hd, hk, h]

theorem runElement_elsewhere {s : State} {first : Bool}
    (h : ∀ d, s.datapath = .decoder d → d.framed = true ∨ d.minCode.isNone ≠ first) (f : Decoder → Effect) :
    runElement first f s = .fault .noElementStream := by
  unfold runElement
  split
  · next d hd =>
    refine if_neg ?_
    rintro ⟨hf, hm⟩
    obtain hf' | hm' := h d hd
    · rw [hf] at hf'; cases hf'
    · exact hm' hm
  all_goals rfl

/-! ### The interrupt and reset -/

theorem irq_iff (s : State) :
    irq s = true ↔ s.regs.irqEn = true ∧ (s.regs.status.done = true ∨ s.regs.status.illegalCmd = true) := by
  simp [irq]

theorem irq_of_raised {s : State} (h : s.regs.status.done = true ∨ s.regs.status.illegalCmd = true) :
    irq s = s.regs.irqEn := by
  rw [Bool.eq_iff_iff, irq_iff, and_iff_left h]

theorem irq_complete {op : Opcode} {c : Option FaultCause} {bits : ErrBits} {s u : State} (hw : Worked op bits s u) :
    irq (complete op c u) = s.regs.irqEn := by
  have hdone : (complete op c u).regs.status.done = true := by rw [complete_status, endStatus_done]
  rw [irq_of_raised (.inl hdone), complete_regs, hw.regs]

theorem irq_ack (s : State) : irq (writeRegister 0x0C 0x0000001E#32 s) = false := by
  rw [writeRegister_status]
  simp [irq, Status.w1c]

theorem Regs.reset_value (off : Nat) : Regs.reset.value off = if off = 0x00 then 0x4C5A5701#32 else 0x00000000#32 := by
  by_cases h : off = 0x00
  · subst h; rfl
  · rw [if_neg h]
    unfold Regs.value
    split
    case h_1 => exact absurd rfl h
    all_goals rfl

theorem nextTurn_powerOn {s : State} {r : List Turn} (h : s.sched = .powerOn :: r) :
    nextTurn s = .next (powerOn { s with sched := r }) := by
  unfold nextTurn; rw [h]

end Sys2Proof.Machine

namespace Sys2Proof.Claim

open Sys2Proof.Machine

/-- Settles O58: each turn runs one instruction, resets or rejects, and every one of these keeps the invariant. -/
theorem stepKeepsInvariant : Obligations.StepKeepsInvariant := by
  intro s t h ht
  rw [step_idle h.datapath] at ht
  exact inv_nextTurn h ht

/-- Settles O43, by what one instruction can do (`exec_cases`). -/
theorem onlyTheseInstructionsChangeStatus : Obligations.OnlyTheseInstructionsChangeStatus := by
  intro i s t h
  obtain ⟨herr, hends, hstarts⟩ := statusRules_exec h
  exact ⟨herr, hends, hstarts⟩

/-- Settles O15: strings by where the code lies, growth by AddEntry's own equations. -/
theorem dictionaryGrowth : Obligations.DictionaryGrowth := by
  refine ⟨fun k c => ⟨Codec.str?_literal, Codec.str?_control, Codec.str?_isSome, Codec.str?_unassigned⟩,
    fun k x => ⟨fun h => ⟨?_, Codec.str?_addEntry_nxt x h, fun c => Codec.str?_addEntry_of_ne x h, ?_⟩,
      Codec.addEntry_of_full x, Codec.addEntry_m x k, Codec.addEntry_prev x k⟩⟩
  · rw [Codec.addEntry_nxt, if_pos h]
  · rw [Codec.addEntry_width, if_pos h]

/-- Settles O16: a code needs a running codec that classes it so, a framing element its position in the framing pass. -/
theorem elementsStopOutsideDecoder : Obligations.ElementsStopOutsideDecoder := by
  refine ⟨fun s h => ?codes, fun s d k c hd hk => ?classes, fun s h m => ?first, fun s h => ?later⟩
  case codes =>
    have stop := runCode_noCodec h
    exact ⟨stop .., stop .., fun c => ⟨stop .., stop .., stop .., stop .., stop ..⟩⟩
  case classes =>
    have stop := fun i f => runCode_otherClass (i := i) (c := c) hd hk f
    exact ⟨stop _ _, stop _ _, stop _ _, stop _ _, stop _ _⟩
  case first =>
    refine runElement_elsewhere (fun d hd => (h d hd).imp_right fun hm => ?_) _
    simpa using hm
  case later =>
    have stop := runElement_elsewhere (s := s) (first := false) fun d hd => (h d hd).imp_right fun hm => by simp [hm]
    exact ⟨stop _, fun n data => stop _⟩

/-- Settles O54: a completion step always leaves DONE = 1 and IRQ_EN as it was. -/
theorem interruptFollowsStatus : Obligations.InterruptFollowsStatus := by
  refine ⟨irq_iff, fun p => rfl, fun op s t h => ?command, fun s t h => ?ack, fun s t v hb h => ?refused⟩
  case command =>
    obtain ⟨c, bits, u, hu, hw, -⟩ := exec_command op s
    cases h.symm.trans hu
    exact irq_complete hw
  case ack =>
    cases h
    exact irq_ack s
  case refused =>
    cases h
    rw [if_neg (by simp [hb])]
    exact irq_of_raised (.inr rfl)

/-- Settles O55, offset by offset; the power-on turn is one step to `powerOn`. -/
theorem resetValues : Obligations.ResetValues := by
  refine ⟨fun p => Regs.reset_value, fun p => ⟨rfl, rfl, rfl, fun a => rfl⟩, rfl, fun s r hd hs => ?_⟩
  refine ⟨powerOn { s with sched := r }, ?_, rfl, rfl, rfl, rfl, fun a => rfl, rfl, rfl, rfl⟩
  rw [step_idle hd, nextTurn_powerOn hs]

end Sys2Proof.Claim

/-! Proofs of the statements about memory (20_memory.md): what the bytes of LMEM read as and become under a host access,
and the accesses the block does not answer. -/

namespace Sys2Proof.Machine

/-! ### Host accesses to LMEM (R62, R76) -/

theorem exec_lmemRead {s : State} {a n : Nat} (h : lmemAccessOk s a n = true) :
    exec (.lmemRead a n) s = .next (respond (.data (hostRead s a n))
      { s with fresh := if s.regs.status.busy then s.fresh + n else s.fresh }) := if_pos h

theorem exec_lmemWrite {s : State} {a n : Nat} (h : lmemAccessOk s a n = true) (v : Word) :
    exec (.lmemWrite a n v) s = .next (respond .ok (hostWrite s a n v)) := if_pos h

/-- An idle block consumes no free value for a read. -/
theorem exec_lmemRead_idle {s : State} {a n : Nat} (h : lmemAccessOk s a n = true)
    (hb : s.regs.status.busy = false) :
    exec (.lmemRead a n) s = .next { s with resp := some (.data (hostRead s a n)) } := by
  rw [exec_lmemRead h, hb]; rfl

theorem hostReadByte_idle {s : State} (hb : s.regs.status.busy = false) (a i : Nat) :
    hostReadByte s a i = readByte s (a + i) := by
  simp [hostReadByte, hb]

theorem hostReadByte_outside {s : State} {a i : Nat} (h : inRunningWriteRegion s (a + i) = false) :
    hostReadByte s a i = readByte s (a + i) := by
  simp [hostReadByte, h]

theorem hostRead_congr {s : State} {a n : Nat} {f : Nat → Byte} (h : ∀ i, i < n → hostReadByte s a i = f i) :
    hostRead s a n = BitVec.ofNat 32 (leValue ((List.range n).map f)) := by
  unfold hostRead
  rw [List.map_congr_left fun i hi => h i (List.mem_range.1 hi)]

/-- A host read that no write region touches gives the sum of its bytes. -/
theorem hostRead_eq_sum {s : State} {a n : Nat} (h : ∀ i, i < n → hostReadByte s a i = readByte s (a + i)) :
    hostRead s a n = BitVec.ofNat 32 ((List.range n).map (fun i => (readByte s (a + i)).toNat * 2 ^ (8 * i))).sum := by
  rw [hostRead_congr h, leValue_map]

theorem readByte_hostWrite (s : State) (a n : Nat) (v : Word) (b : Nat) :
    readByte (hostWrite s a n v) b =
      if a ≤ b ∧ b < a + n then v.extractLsb' (8 * (b - a)) 8 else readByte s b := by
  rw [readByte_setBytes s (hostWrite s a n v) a (wordBytes v n) b rfl rfl, wordBytes_length]
  by_cases h : a ≤ b ∧ b < a + n
  · have hlt : b - a < n := by omega
    rw [if_pos h, if_pos h]
    simp [wordBytes, hlt]
  · rw [if_neg h, if_neg h]

theorem hostWrite_disturbed_iff (s : State) (a n : Nat) (v : Word) :
    (hostWrite s a n v).disturbed = true ↔ s.disturbed = true ∨
      (s.regs.status.busy = true ∧ ∃ i, i < n ∧ inRunningRegion s (a + i) = true) := by
  simp [hostWrite]

@[simp] theorem hostRead_respond (r : BusResult) (s : State) (a n : Nat) :
    hostRead (respond r s) a n = hostRead s a n := rfl

/-- The bytes just written are those of `wordBytes`, so an idle read of that width gives the low bits of the word. -/
theorem hostRead_hostWrite {s : State} (hb : s.regs.status.busy = false) (a n : Nat) (v : Word) :
    hostRead (hostWrite s a n v) a n = BitVec.ofNat 32 (v.toNat % 2 ^ (8 * n)) := by
  have hbyte : ∀ i, i < n → hostReadByte (hostWrite s a n v) a i = v.extractLsb' (8 * i) 8 := fun i hi => by
    rw [hostReadByte_idle (s := hostWrite s a n v) hb, readByte_hostWrite, if_pos (by omega), Nat.add_sub_cancel_left]
  rw [hostRead_congr hbyte, ← leValue_wordBytes]
  rfl

/-! ### Accesses outside the windows (R61) -/

/-- The host's turn starts from the state with its own entry of the schedule used up. -/
theorem step_hostMoves {s s0 : State} (h : Claim.HostMoves s s0) : step s = hostTurn s0 := by
  obtain ⟨hd, ⟨r, hs, rfl⟩ | ⟨hs, hq, rfl⟩⟩ := h
  · rw [step_idle hd, nextTurn, hs]
  · rw [step_idle hd, nextTurn, hs, hq]

theorem params_hostMoves {s s0 : State} (h : Claim.HostMoves s s0) : s0.params = s.params := by
  obtain ⟨-, ⟨r, -, rfl⟩ | ⟨-, -, rfl⟩⟩ := h <;> rfl

theorem host_hostMoves {s s0 : State} (h : Claim.HostMoves s s0) : s0.host = s.host := by
  obtain ⟨-, ⟨r, -, rfl⟩ | ⟨-, -, rfl⟩⟩ := h <;> rfl

theorem hostTurn_rejected {s : State} {l : HostLine} {rest : List HostLine} {r : Reject} (hl : s.host = l :: rest)
    (hr : decodeLine s.params l = .error r) : hostTurn s = .next (rejectAccess r { s with host := rest }) := by
  rw [hostTurn, hl]
  simp only [hr]

theorem decodeAccess_outside {p : Params} {b : BusAccess} (hreg : ¬(p.regBase ≤ b.addr ∧ b.addr < p.regBase + 256))
    (hmem : ¬(p.lmemHostBase ≤ b.addr ∧ b.addr < p.lmemHostBase + p.lmemSize)) :
    decodeAccess p b = .error .outsideWindows := by
  rw [decodeAccess, if_neg hreg, if_neg hmem]

theorem regOffsetOk_beyond {off : Nat} (h : 256 ≤ off) : regOffsetOk off = false := by
  simp [regOffsetOk, h]

theorem rejectRegister_beyond {off : Nat} (h : 256 ≤ off) (s : State) :
    rejectRegister off s = respond .noResponse s := if_neg (Nat.not_lt.2 h)

theorem exec_regRead_beyond {off : Nat} (h : 256 ≤ off) (s : State) :
    exec (.regRead off) s = .next (respond .noResponse s) := by
  show execRegRead off s = _
  rw [execRegRead, regOffsetOk_beyond h, rejectRegister_beyond h]; rfl

theorem exec_regWrite_beyond {off : Nat} (h : 256 ≤ off) (v : Word) (s : State) :
    exec (.regWrite off v) s = .next (respond .noResponse s) := by
  show execRegWrite off v s = _
  rw [execRegWrite, regOffsetOk_beyond h, rejectRegister_beyond h]; rfl

end Sys2Proof.Machine

namespace Sys2Proof.Claim

open Sys2Proof.Machine

/-- Settles O51: a byte reads as itself while idle, and while busy outside the running command's write regions. -/
theorem lmemReadLittleEndian : Obligations.LmemReadLittleEndian := by
  intro s a n hn ha hsize
  have hok := lmemAccessOk_of hn ha hsize
  refine ⟨fun hb => ?idle, fun hout => ?outside, hostRead s a n, _, exec_lmemRead hok⟩
  case idle => rw [exec_lmemRead_idle hok hb, hostRead_eq_sum fun i _ => hostReadByte_idle hb a i]
  case outside =>
    rw [exec_lmemRead hok, hostRead_eq_sum fun i hi => hostReadByte_outside (hout i hi)]
    exact ⟨_, rfl⟩

/-- Settles O52, by what a host write makes of each byte (`readByte_hostWrite`) and of a read (`hostRead_hostWrite`). -/
theorem lmemWriteThenRead : Obligations.LmemWriteThenRead := by
  intro s a n v hn ha hsize
  have hok := lmemAccessOk_of hn ha hsize
  refine ⟨respond .ok (hostWrite s a n v), exec_lmemWrite hok v, readByte_hostWrite s a n v, rfl,
    hostWrite_disturbed_iff s a n v, fun hb => ?readBack⟩
  rw [exec_lmemRead_idle (s := respond .ok (hostWrite s a n v)) hok hb, hostRead_respond, hostRead_hostWrite hb]

/-- Settles O60: the decoder rejects the access as outside both windows, REG_READ and REG_WRITE an offset of 256 up. -/
theorem noResponseOutsideWindows : Obligations.NoResponseOutsideWindows := by
  refine ⟨fun s s0 b rest hm hl hreg hmem => ?access, fun s off h => ?register⟩
  case access =>
    have hrej : decodeLine s0.params (.access b) = .error .outsideWindows := by
      rw [params_hostMoves hm]
      exact decodeAccess_outside hreg hmem
    rw [step_hostMoves hm, hostTurn_rejected ((host_hostMoves hm).trans hl) hrej]
    rfl
  case register => exact ⟨exec_regRead_beyond h s, fun v => exec_regWrite_beyond h v s⟩

end Sys2Proof.Claim

/-! Proofs of the statements about the encodings (30_encoding.md): decode and encode undo each other, form by form; then
the class of a code, the bits of a packed code, and the pseudo-instructions. -/

namespace Sys2Proof

/-! ### Command words (R90 to R92) -/

theorem decodeOpcode_eq_none_iff (w : Word) : decodeOpcode w = none ↔ ∀ op : Opcode, w ≠ op.word := by
  constructor
  · rintro h op rfl
    rw [Machine.decodeOpcode_word] at h
    cases h
  · intro h
    cases hw : decodeOpcode w with
    | none => rfl
    | some op => exact absurd (Machine.decodeOpcode_some hw) (h op)

theorem illegalCmdWord_iff_decodeOpcode (w : Word) : illegalCmdWord w = true ↔ decodeOpcode w = none :=
  ⟨Laws.Encodable.decodeOpcode_illegal, Machine.decodeOpcode_none⟩

theorem decodeCmd_of_none {w : Word} (h : decodeOpcode w = none) : decodeCmd w = .illegalCmd w := by
  rw [decodeCmd, h]

theorem Opcode.forall_iff {P : Opcode → Prop} :
    (∀ op, P op) ↔ P .nop ∧ P .decompress ∧ P .compress ∧ P .composite := by
  constructor
  · exact fun h => ⟨h _, h _, h _, h _⟩
  · rintro ⟨hnop, hdecompress, hcompress, hcomposite⟩ op
    cases op <;> assumption

/-- A word is illegal exactly where it is none of the four of the opcode map. -/
theorem decodeOpcode_eq_none_iff_ne (w : Word) :
    decodeOpcode w = none ↔
      w ≠ 0x00000000#32 ∧ w ≠ 0x00000001#32 ∧ w ≠ 0x00000002#32 ∧ w ≠ 0x00000003#32 :=
  (decodeOpcode_eq_none_iff w).trans Opcode.forall_iff

/-! ### Decoding undoes encoding -/

/-- The family of `Laws.Encodable`, instruction by instruction. -/
theorem decode_encode (i : Instr) : Laws.Encodable.Statement i :=
  match i with
  | .nop => Laws.Encodable.nop
  | .decompress => Laws.Encodable.decompress
  | .compress => Laws.Encodable.compress
  | .composite => Laws.Encodable.composite
  | .illegalCmd v => Laws.Encodable.illegalCmd v
  | .clear => Laws.Encodable.clear
  | .eoi => Laws.Encodable.eoi
  | .literalFirst c => Laws.Encodable.literalFirst c
  | .literal c => Laws.Encodable.literal c
  | .dict c => Laws.Encodable.dict c
  | .kwkwk c => Laws.Encodable.kwkwk c
  | .badcode c => Laws.Encodable.badcode c
  | .minCodeSize m => Laws.Encodable.minCodeSize m
  | .dataBlock n data => Laws.Encodable.dataBlock n data
  | .terminator => Laws.Encodable.terminator
  | .regRead off => Laws.Encodable.regRead off
  | .regWrite off v => Laws.Encodable.regWrite off v
  | .lmemRead a n => Laws.Encodable.lmemRead a n
  | .lmemWrite a n v => Laws.Encodable.lmemWrite a n v
  | .softReset v => Laws.Encodable.softReset v
  | .w1cStatus r v => Laws.Encodable.w1cStatus r v
  | .wait => Laws.Encodable.wait
  | .run op => Laws.Encodable.run op
  | .ack => Laws.Encodable.ack
  | .clrerr => Laws.Encodable.clrerr
  | .reset => Laws.Encodable.reset

/-! ### Encoding undoes decoding, form by form -/

theorem encode_decodeCmd (p : Place) (w : Word) : encode p (decodeCmd w) = .cmd w := by
  cases hw : decodeOpcode w with
  | none => rw [decodeCmd_of_none hw]; rfl
  | some op =>
    rw [Machine.decodeOpcode_some hw, Machine.decodeCmd_word]
    cases op <;> rfl

/-- Whatever its class, a code is encoded as its own value at the place's width. -/
theorem encode_classify (p : Place) (c : Nat) : encode p (classify p.m p.nxt p.prev c) = .code c p.width := by
  unfold classify
  split_ifs with hclear heoi
  · rw [hclear]; rfl
  · rw [heoi]; rfl
  all_goals rfl

/-- An element that leaves no byte over is encoded as all the bytes it was read from. -/
theorem encode_decodeElement {p : Place} {first : Bool} {bs : List Byte} {i : Instr}
    (h : decodeElement first bs = .ok (i, [])) : encode p i = .bytes bs := by
  cases bs with
  | nil => cases h
  | cons b r =>
    rw [decodeElement] at h
    split_ifs at h with hfirst hzero
    · cases h; rfl
    · cases h; rw [hzero]; rfl
    · obtain ⟨rfl, hdrop⟩ := Prod.mk.inj (Except.ok.inj h)
      rw [List.take_of_length_le (List.drop_eq_nil_iff.1 hdrop)]
      rfl

/-- A register write is encoded as itself, but for the CMD write of an illegal word. -/
theorem encode_decodeRegWrite (p : Place) (off : Nat) (v : Word) :
    encode p (decodeRegWrite off v) = .line (regAccess p.params .write off v) ∨
      (off = 0x08 ∧ decodeRegWrite off v = .illegalCmd v) := by
  unfold decodeRegWrite
  split_ifs with hctrl hstatus herr hcmd
  · rw [hctrl.1]; exact .inl rfl
  · rw [hstatus]; exact .inl rfl
  · rw [herr]; exact .inl rfl
  · exact .inr ⟨hcmd.1, rfl⟩
  · exact .inl rfl

/-- What an accepted bus access decodes to, by the window it reaches and its kind. -/
theorem decodeAccess_ok {p : Params} {b : BusAccess} {i : Instr} (h : decodeAccess p b = .ok i) :
    (∃ off v, (b = ⟨.read, p.regBase + off, 4, v⟩ ∧ i = .regRead off) ∨
      (b = ⟨.write, p.regBase + off, 4, v⟩ ∧ i = decodeRegWrite off v)) ∨
    (∃ a n v, (b = ⟨.read, p.lmemHostBase + a, n, v⟩ ∧ i = .lmemRead a n) ∨
      (b = ⟨.write, p.lmemHostBase + a, n, v⟩ ∧ i = .lmemWrite a n v)) := by
  obtain ⟨kind, addr, width, data⟩ := b
  simp only [decodeAccess] at h
  split_ifs at h with hreg hwidth halign hlmem
  · obtain ⟨off, rfl⟩ := Nat.exists_eq_add_of_le hreg.1
    obtain rfl : width = 4 := not_not.1 hwidth
    rw [Nat.add_sub_cancel_left] at h
    refine .inl ⟨off, data, ?_⟩
    cases kind <;> cases h
    · exact .inl ⟨rfl, rfl⟩
    · exact .inr ⟨rfl, rfl⟩
  · obtain ⟨a, rfl⟩ := Nat.exists_eq_add_of_le hlmem.1
    rw [Nat.add_sub_cancel_left] at h
    refine .inr ⟨a, width, data, ?_⟩
    cases kind <;> cases h
    · exact .inl ⟨rfl, rfl⟩
    · exact .inr ⟨rfl, rfl⟩

theorem encode_decodeAccess {p : Place} {b : BusAccess} {i : Instr} (h : decodeAccess p.params b = .ok i) :
    encode p i = Claim.dropReadData (.line (.access b)) ∨
      ∃ v, i = .illegalCmd v ∧ .access b = regAccess p.params .write 0x08 v := by
  obtain ⟨off, v, ⟨rfl, rfl⟩ | ⟨rfl, rfl⟩⟩ | ⟨a, n, v, ⟨rfl, rfl⟩ | ⟨rfl, rfl⟩⟩ := decodeAccess_ok h
  · exact .inl rfl
  · obtain he | ⟨rfl, he⟩ := encode_decodeRegWrite p off v
    · exact .inl he
    · exact .inr ⟨v, he, rfl⟩
  · exact .inl rfl
  · exact .inl rfl

theorem encode_decodeLine {p : Place} {l : HostLine} {i : Instr} (h : decodeLine p.params l = .ok i) :
    encode p i = Claim.dropReadData (.line l) ∨ ∃ v, i = .illegalCmd v ∧ l = regAccess p.params .write 0x08 v := by
  cases l with
  | access b => exact encode_decodeAccess h
  | wait | run | ack | clrerr | reset => cases h; exact .inl rfl

/-! ### The class of a code (R100) -/

theorem classify_clear (m nxt : Nat) (prev : Option Nat) : classify m nxt prev (2 ^ m) = .clear := if_pos rfl

theorem classify_eoi (m nxt : Nat) (prev : Option Nat) : classify m nxt prev (2 ^ m + 1) = .eoi := by
  rw [classify, if_neg (by unfold clearCode; omega), eoiCode, if_pos rfl]

theorem classify_low {m nxt c : Nat} {prev : Option Nat} (h : c < 2 ^ m) :
    classify m nxt prev c = if prev = none then .literalFirst c else .literal c := by
  rw [classify, if_neg (by unfold clearCode; omega), if_neg (by unfold eoiCode; omega), if_pos h]

/-- Every code is of one of the seven classes, where its condition in the table holds. -/
theorem classify_cases (m nxt : Nat) (prev : Option Nat) (c : Nat) (hc : c < 4096) :
    (classify m nxt prev c = .clear ∧ c = 2 ^ m) ∨
    (classify m nxt prev c = .eoi ∧ c = 2 ^ m + 1) ∨
    (classify m nxt prev c = .literalFirst c ∧ c < 2 ^ m ∧ prev = none) ∨
    (classify m nxt prev c = .literal c ∧ c < 2 ^ m ∧ prev ≠ none) ∨
    (classify m nxt prev c = .dict c ∧ 2 ^ m + 2 ≤ c ∧ c < nxt ∧ prev ≠ none) ∨
    (classify m nxt prev c = .kwkwk c ∧ c = nxt ∧ prev ≠ none ∧ nxt < 4096) ∨
    (classify m nxt prev c = .badcode c ∧ 2 ^ m + 2 ≤ c ∧ (nxt < c ∨ prev = none)) := by
  obtain hlow | rfl | rfl | hhigh : c < 2 ^ m ∨ c = 2 ^ m ∨ c = 2 ^ m + 1 ∨ 2 ^ m + 2 ≤ c := by omega
  · by_cases hprev : prev = none <;> simp [classify_low hlow, hprev, hlow]
  · simp [classify_clear]
  · simp [classify_eoi]
  · rw [Laws.Encodable.classify_high hhigh]
    split_ifs with hdict hkwkwk
    · exact .inr (.inr (.inr (.inr (.inl ⟨rfl, hhigh, hdict⟩))))
    · exact .inr (.inr (.inr (.inr (.inr (.inl ⟨rfl, hkwkwk⟩)))))
    · refine .inr (.inr (.inr (.inr (.inr (.inr ⟨rfl, hhigh, ?_⟩)))))
      by_cases hprev : prev = none
      · exact .inr hprev
      · have hge : nxt ≤ c := Nat.not_lt.1 fun hlt => hdict ⟨hlt, hprev⟩
        have hne : c ≠ nxt := fun he => hkwkwk ⟨he, hprev, he ▸ hc⟩
        exact .inl (by omega)

/-! ### The bits of a code (R96, R97) -/

theorem codeAt_eq_sum (d : List Byte) (p w : Nat) :
    codeAt d p w = ((List.range w).map fun i => (streamBit d (p + i)).toNat * 2 ^ i).sum := by
  induction w generalizing p with
  | zero => rfl
  | succ w ih =>
    rw [codeAt, ih, List.range_succ_eq_map, List.map_cons, List.sum_cons, List.map_map, ← List.sum_map_mul_left,
      pow_zero, mul_one, Nat.add_zero]
    congr 2
    refine List.map_congr_left fun i _ => ?_
    rw [Function.comp_apply, Nat.succ_eq_add_one, pow_succ', Nat.add_right_comm, Nat.add_assoc, Nat.mul_left_comm]

end Sys2Proof

namespace Sys2Proof.Machine

/-! ### Packed codes (R98) -/

theorem streamBits_length (codes : List (Nat × Nat)) : (streamBits codes).length = (codes.map Prod.snd).sum := by
  rw [streamBits, List.length_flatMap]
  exact congrArg List.sum (List.map_congr_left fun x _ => codeBits_length x.1 x.2)

theorem streamBit_pack_beyond {codes : List (Nat × Nat)} {k : Nat} (h : (codes.map Prod.snd).sum ≤ k) :
    streamBit (pack codes) k = false := by
  rw [streamBit_pack, List.getD_eq_default]
  rwa [streamBits_length]

/-! ### The register writes of the pseudo-instructions (R121) -/

theorem writeRegister_cmd (v : Word) (s : State) : writeRegister 0x08 v s = writeCmd v s := if_pos rfl

theorem writeCmd_busy (v : Word) {s : State} (h : s.regs.status.busy = true) : writeCmd v s = setOverrun s := if_pos h

theorem writeCmd_word_idle (op : Opcode) {s : State} (h : s.regs.status.busy = false) :
    writeCmd op.word s = accept op s := by
  simp [writeCmd, h]

/-- The word of `ack` clears every write-1-to-clear bit of STATUS. -/
theorem Status.w1c_ack (st : Status) :
    st.w1c 0x0000001E#32 = { st with done := false, fault := false, illegalCmd := false, overrun := false } := by
  simp [Status.w1c]

/-- The word of `clrerr` clears every bit of ERRSTATE. -/
theorem errW1c_clrerr (e : ErrBits) : errW1c 0x000000FF#32 e = 0#8 := BitVec.and_zero

theorem writeCtrl_reset (s : State) :
    writeCtrl 0x00000002#32 s = softReset { s with regs := s.regs.write 0x04 0x00000002#32 } := rfl

end Sys2Proof.Machine

namespace Sys2Proof.Claim

open Sys2Proof.Machine

/-- Settles O1, from the lemma of each instruction. -/
theorem decodeOfEncode : Obligations.DecodeOfEncode := fun p i => decode_encode i p

/-- Settles O2, form by form. -/
theorem encodeOfDecode : Obligations.EncodeOfDecode := by
  intro p e i h _
  cases e with
  | cmd w =>
    cases h
    exact .inl (encode_decodeCmd p w)
  | code v w =>
    rw [decode] at h
    split_ifs at h with hw
    cases h
    rw [hw.1]
    exact .inl (encode_classify p v)
  | bytes bs =>
    rw [decode] at h
    split at h <;> cases h
    next hel => exact .inl (encode_decodeElement hel)
  | line l =>
    obtain he | ⟨v, rfl, rfl⟩ := encode_decodeLine h
    · exact .inl he
    · exact .inr ⟨v, rfl, rfl⟩

/-- Settles O5, by induction on the width. -/
theorem codeValueIsSumOfBits : Obligations.CodeValueIsSumOfBits := codeAt_eq_sum

/-- Settles O31: the bits of a packing are those of its codes, one after the other, then zeros. -/
theorem packedCodesReadBack : Obligations.PackedCodesReadBack := by
  rintro before after c w pos total d hc rfl rfl rfl
  have htotal : ((before ++ (c, w) :: after).map Prod.snd).sum =
      (before.map Prod.snd).sum + w + (after.map Prod.snd).sum := by
    rw [List.map_append, List.sum_append, List.map_cons, List.sum_cons, Nat.add_assoc]
  rw [← htotal]
  refine ⟨?_, ?_, fun k => streamBit_pack_beyond⟩
  · rw [← streamBits_length]
    exact codeAt_pack before after c w hc
  · rw [pack_length, streamBits_length]

/-- Settles O3: a word of the map is the word of its command, any other has none. -/
theorem commandWordMap : Obligations.CommandWordMap := by
  intro w
  refine ⟨?_, (illegalCmdWord_iff_decodeOpcode w).trans (decodeOpcode_eq_none_iff_ne w)⟩
  split_ifs with hnop hdecompress hcompress hcomposite
  · rw [hnop]; exact decodeCmd_word .nop
  · rw [hdecompress]; exact decodeCmd_word .decompress
  · rw [hcompress]; exact decodeCmd_word .compress
  · rw [hcomposite]; exact decodeCmd_word .composite
  · exact decodeCmd_of_none ((decodeOpcode_eq_none_iff_ne w).2 ⟨hnop, hdecompress, hcompress, hcomposite⟩)

/-- Settles O4: the seven conditions exclude one another. -/
theorem codeClassConditions : Obligations.CodeClassConditions := by
  intro m nxt prev c hc hnxt
  obtain ⟨h, hcond⟩ | ⟨h, hcond⟩ | ⟨h, hcond⟩ | ⟨h, hcond⟩ | ⟨h, hcond⟩ | ⟨h, hcond⟩ | ⟨h, hcond⟩ :=
    classify_cases m nxt prev c hc
  all_goals
    rw [h]
    grind

/-- Settles O6: the command words by the opcode map, the other fixed words by evaluation. -/
theorem wordsDecodeAsWritten : Obligations.WordsDecodeAsWritten :=
  ⟨decodeCmd_word .nop, decodeCmd_word .decompress, decodeCmd_word .compress, decodeCmd_word .composite,
    by decide⟩

/-- Settles O53: each expansion is its register write, or its read of STATUS. -/
theorem pseudoInstructions : Obligations.PseudoInstructions := by
  intro s
  refine ⟨fun hb => ?waitIdle, fun hb => ?waitBusy, fun op hb => ?runIdle, fun op hb => ?runBusy, ?ack, ?clrerr,
    ?reset, ?resetState⟩
  case waitIdle => show execWait s = _; rw [execWait, hb]; rfl
  case waitBusy => show execWait s = _; rw [execWait, hb]; rfl
  case runIdle => show execRun op s = _; rw [execRun, writeRegister_cmd, writeCmd_word_idle op hb]; rfl
  case runBusy => show execRun op s = _; rw [execRun, writeRegister_cmd, writeCmd_busy _ hb]; rfl
  case ack => show execAck s = _; rw [execAck, writeRegister_status, Status.w1c_ack]; rfl
  case clrerr => show execClrerr s = _; rw [execClrerr, writeRegister_errState, errW1c_clrerr]; rfl
  case reset => show execReset s = execSoftReset _ s; rw [execReset, writeRegister_ctrl, execSoftReset]
  case resetState =>
    refine ⟨_, rfl, ?_, ?_⟩ <;> rw [writeRegister_ctrl, writeCtrl_reset] <;> rfl

end Sys2Proof.Claim

/-! Proofs of the statements about DECOMPRESS (40_decompress.md): one code or framing element, the step that runs it, the
framing of the input, what a whole stream leaves, and the completion step, run at once or element by element. -/

namespace Sys2Proof.Machine

open Sys2Proof.Claim

/-! ### The effect of an element on the state -/

theorem applyEffect_eq (d : Decoder) (b : ErrBits) (s : State) : applyEffect (d, b) s = withErr b (inDecoder d s) := rfl

@[simp] theorem withErr_zero (s : State) : withErr 0#8 s = s := setErr_zero s

/-- `Emit` after the codec became `k'` is the statements' `emitted` (R144). -/
theorem applyEffect_emit (x : List Byte) (k' : Codec) (d : Decoder) (s : State) :
    applyEffect ((d.withCodec k').emit x) s = emitted x k' d s := by
  rw [Decoder.emit, applyEffect_eq, errIf]
  simp only [decide_eq_true_eq]
  rfl

/-! ### The meaning of a code (R136 to R142) -/

/-- A code's instruction runs its class's effect on the codec. -/
theorem exec_of_classify {s : State} {d : Decoder} {k : Codec} {c : Nat} {i : Instr} (hd : s.datapath = .decoder d)
    (hk : d.codec = some k) (hc : k.classify c = i) (f : Codec → Decoder → Effect)
    (hf : elementEffect i d = onCodec f d) : exec i s = .next (applyEffect (f k d) s) := by
  have h := exec_code hd hk c
  rwa [hc, hf, onCodec, hk] at h

theorem Codec.prevStr_of_some {k : Codec} {q : Nat} (h : k.prev = some q) : k.prevStr = k.str q := by
  rw [Codec.prevStr, h]

theorem Codec.classify_dict {k : Codec} {c q : Nat} (hc : 2 ^ k.m + 2 ≤ c) (hlt : c < k.nxt) (hq : k.prev = some q) :
    k.classify c = .dict c := by
  rw [Codec.classify, Laws.Encodable.classify_high hc, if_pos ⟨hlt, by simp [hq]⟩]

theorem Codec.classify_kwkwk {k : Codec} {q : Nat} (hq : k.prev = some q) (hn : k.nxt < 4096) :
    k.classify k.nxt = .kwkwk k.nxt := by
  rw [Codec.classify, Laws.Encodable.classify_high k.firstCode_le_nxt, if_neg (by simp),
    if_pos ⟨rfl, by simp [hq], hn⟩]

theorem Codec.classify_badcode {k : Codec} {c : Nat} (hc : 2 ^ k.m + 2 ≤ c) (hbad : k.prev = none ∨ k.nxt < c) :
    k.classify c = .badcode c := by
  rw [Codec.classify, Laws.Encodable.classify_high hc]
  obtain hp | hlt := hbad
  · simp [hp]
  · rw [if_neg (by omega), if_neg (by omega)]

theorem exec_clear {s : State} {d : Decoder} {k : Codec} (hd : s.datapath = .decoder d) (hk : d.codec = some k) :
    exec .clear s = .next (inDecoder (d.withCodec (Codec.start k.m)) s) := by
  rw [exec_of_classify hd hk (classify_clear ..) clearEffect rfl, clearEffect, applyEffect_eq, withErr_zero]

theorem exec_eoi {s : State} {d : Decoder} {k : Codec} (hd : s.datapath = .decoder d) (hk : d.codec = some k) :
    exec .eoi s =
      .next (withErr (if d.out.length < d.npix then 0x04#8 else 0#8) (inDecoder { d with stopped := true } s)) := by
  rw [exec_of_classify hd hk (classify_eoi ..) eoiEffect rfl, eoiEffect, applyEffect_eq, errIf]
  simp only [decide_eq_true_eq]
  rfl

theorem exec_badcode {s : State} {d : Decoder} {k : Codec} {c : Nat} (hd : s.datapath = .decoder d)
    (hk : d.codec = some k) (hc : 2 ^ k.m + 2 ≤ c) (hbad : k.prev = none ∨ k.nxt < c) :
    exec (.badcode c) s = .next (withErr 0x10#8 (inDecoder { d with stopped := true } s)) :=
  exec_of_classify hd hk (Codec.classify_badcode hc hbad) (badcodeEffect c) rfl

/-! ### One step of a DECOMPRESS (R132 to R135) -/

theorem step_blockMoves {s s0 : State} {op : Opcode} (h : BlockMoves s s0 op) : step s = exec op.instr s0 := by
  obtain ⟨hd, hq, ⟨r, hs, rfl⟩ | ⟨hs, rfl⟩⟩ := h
  · rw [step_idle hd, nextTurn, hs]
    simp only [blockTurn, hq, decodeCmd_word]
  · rw [step_idle hd, nextTurn, hs, hq]
    simp only [blockTurn, hq, decodeCmd_word]

theorem hostTurn_decoded {s : State} {l : HostLine} {rest : List HostLine} {i : Instr} (hl : s.host = l :: rest)
    (hi : decodeLine s.params l = .ok i) : hostTurn s = exec i { s with host := rest } := by
  rw [hostTurn, hl]
  simp only [hi]

/-- A step runs the element that is fetched, with the cursor past it. -/
theorem step_of_fetch {s : State} {d d' : Decoder} {i : Instr} (hd : s.datapath = .decoder d)
    (hu : d.finished = false) (hi : d.fetch = .element i d') : step s = exec i (inDecoder d' s) := by
  rw [step, hd]
  simp only [decoderTurn, hu, hi]
  rfl

/-- In the framing pass a step runs the element at the byte cursor. -/
theorem step_element {s : State} {d : Decoder} {i : Instr} {rest : List Byte} (hd : s.datapath = .decoder d)
    (hf : d.framed = false) (hi : decodeElement d.minCode.isNone d.rest = .ok (i, rest)) :
    step s = exec i (inDecoder { d with rest := rest, inPos := d.inPos + (d.rest.length - rest.length) } s) := by
  refine step_of_fetch hd (Decoder.finished_framed hf) ?_
  rw [Decoder.fetch, if_pos hf, Decoder.fetchElement, hi]

theorem Decoder.finished_of_decoding {d : Decoder} {k : Codec} (hk : d.codec = some k) (hs : d.stopped = false)
    (ho : d.out.length < d.npix) : d.finished = false := by
  simp [Decoder.finished, hk, hs, ho]

/-- In the code loop a step runs the class of the code at the bit cursor. -/
theorem step_code {s : State} {d : Decoder} {k : Codec} (hd : s.datapath = .decoder d) (hf : d.framed = true)
    (hk : d.codec = some k) (hs : d.stopped = false) (ho : d.out.length < d.npix)
    (hb : d.bitPos + k.width ≤ 8 * d.data.length) :
    step s = exec (k.classify (codeAt d.data d.bitPos k.width)) (inDecoder (d.past k.width) s) := by
  refine step_of_fetch hd (Decoder.finished_of_decoding hk hs ho) ?_
  rw [Decoder.fetch, if_neg (by simp [hf]), hk]
  exact if_neg (Nat.not_lt.2 hb)

/-! ### The framing of the input (R132, R133, R148) -/

theorem exec_minCodeSize {s : State} {d : Decoder} (hd : s.datapath = .decoder d) (hf : d.framed = false)
    (hm : d.minCode = none) (m : Byte) : exec (.minCodeSize m) s = .next (applyEffect (minCodeSizeEffect m d) s) :=
  runElement_next hd hf (by simp [hm]) _

theorem exec_dataBlock {s : State} {d : Decoder} {b : Byte} (hd : s.datapath = .decoder d) (hf : d.framed = false)
    (hm : d.minCode = some b) (n : Byte) (data : List Byte) :
    exec (.dataBlock n data) s = .next (applyEffect (dataBlockEffect n data d) s) :=
  runElement_next hd hf (by simp [hm]) _

theorem exec_terminator {s : State} {d : Decoder} {b : Byte} (hd : s.datapath = .decoder d) (hf : d.framed = false)
    (hm : d.minCode = some b) : exec .terminator s = .next (inDecoder { d with framed := true } s) := by
  have h := runElement_next hd hf (first := false) (by simp [hm]) terminatorEffect
  rwa [terminatorEffect, applyEffect_eq, withErr_zero] at h

theorem minCodeSizeEffect_accepted {m : Byte} (h : 2 ≤ m.toNat ∧ m.toNat ≤ 8) (d : Decoder) :
    minCodeSizeEffect m d = ({ d with minCode := some m, codec := some (Codec.start m.toNat) }, 0#8) :=
  if_pos ((acceptsM_iff _).2 h)

theorem minCodeSizeEffect_refused {m : Byte} (h : ¬(2 ≤ m.toNat ∧ m.toNat ≤ 8)) (d : Decoder) :
    minCodeSizeEffect m d = ({ d with minCode := some m, codec := none }, errBadMinCodeSize) :=
  if_neg (mt (acceptsM_iff _).1 h)

theorem dataBlockEffect_whole {n : Byte} {data : List Byte} {d : Decoder} (h : data.length = n.toNat)
    (hf : d.framed = false) :
    dataBlockEffect n data d = ({ d with data := d.data ++ data, blocks := d.blocks + 1 }, 0#8) := by
  simp [dataBlockEffect, h, errIf, hf]

theorem dataBlockEffect_short {n : Byte} {data : List Byte} (h : data.length < n.toNat) (d : Decoder) :
    dataBlockEffect n data d =
      ({ d with data := d.data ++ data, blocks := d.blocks + 1, framed := true }, errInputTruncated) := by
  simp [dataBlockEffect, h, errIf]

theorem firstByteErr_mask (m : Byte) {mask : ErrBits} (h : errBadMinCodeSize &&& mask = 0#8) :
    firstByteErr m &&& mask = 0#8 := by
  rw [firstByteErr, errIf]
  split
  · exact h
  · exact BitVec.zero_and

/-- The end of the input sets INPUT_TRUNCATED, whether or not END_OF_STREAM too, and never BAD_MIN_CODE_SIZE. -/
theorem inputTruncated_masks (c : Bool) :
    (errInputTruncated ||| errIf c errEndOfStream) &&& 0x02#8 = 0x02#8 ∧
      (errInputTruncated ||| errIf c errEndOfStream) &&& 0x20#8 = 0#8 := by
  cases c <;> decide

/-- After whole sub-blocks, the element that ends the framing pass settles D, BLOCK_COUNT, IN_POS and INPUT_TRUNCATED. -/
theorem decodeStream_lastElement (npix : Nat) (m : Byte) {blocks : List (List Byte)} (hb : ∀ b ∈ blocks, IsBlock b)
    (tail : List Byte) :
    ∃ d : Decoder, d.framed = false ∧ d.minCode = some m ∧ d.rest = tail ∧
      d.inPos = 1 + (blocks.flatMap sized).length ∧ d.data = blocks.flatten ∧ d.blocks = blocks.length ∧
      ∀ (r : Effect) (d' : Decoder) (b : ErrBits), r = decodeStream npix (m :: (blocks.flatMap sized ++ tail)) →
        d.advance = (d', b) → d'.framed = true →
        r.1.data = d'.data ∧ r.1.blocks = d'.blocks ∧ r.1.inPos = d'.inPos ∧ r.2 &&& 0x02#8 = b &&& 0x02#8 := by
  obtain ⟨fuel, d, hrun, hf, hm, hr, hpos, hdata, hblocks⟩ := decodeStream_blocks npix m blocks tail hb
  refine ⟨d, hf, hm, hr, hpos, hdata, hblocks, fun r d' b hr hadv hend => ?_⟩
  obtain ⟨kdata, kblocks, kpos, -, kbits⟩ := Decoder.run_framed_fields fuel hend
  have hfirst := firstByteErr_mask m (mask := 0x02#8) (by decide)
  rw [hr, show decodeStream npix (m :: (blocks.flatMap sized ++ tail)) = _ from hrun,
    Decoder.run_succ (Decoder.finished_framed hf), hadv]
  refine ⟨kdata, kblocks, kpos, ?_⟩
  rw [or_mask, or_mask, hfirst, and_mask kbits (by decide), BitVec.zero_or, BitVec.or_zero]

/-! ### What a whole stream leaves (R133, R144, R145, R149) -/

theorem Decoder.afterFirst_start (npix : Nat) (m : Byte) (rest : List Byte) :
    (Decoder.afterFirst npix m rest).npix = npix ∧ (Decoder.afterFirst npix m rest).out = [] ∧
      (Decoder.afterFirst npix m rest).codes = 0 := by
  unfold Decoder.afterFirst minCodeSizeEffect
  split <;> exact ⟨rfl, rfl, rfl⟩

/-- What the first byte settles of the whole stream: it is kept; a codec runs at the end exactly where it was accepted;
without one nothing is decoded; with no pixels expected the codec is left at its start and no code is read. -/
theorem decodeStream_firstByte (npix : Nat) (m : Byte) (rest : List Byte) :
    let d := (decodeStream npix (m :: rest)).1
    let codec := if acceptsM m.toNat then some (Codec.start m.toNat) else none
    d.minCode = some m ∧ d.codec.isSome = codec.isSome ∧ (codec = none → d.out = []) ∧
      (npix = 0 → d.codec = codec ∧ d.codes = 0) := by
  obtain ⟨-, hm, -, -, -, -, hcodec⟩ := Decoder.afterFirst_fields npix m rest
  obtain ⟨hnpix, hout, hcodes⟩ := Decoder.afterFirst_start npix m rest
  have h := Decoder.first_run (9 * rest.length + 11) hm
  rw [hcodec, hnpix, hout, hcodes] at h
  rw [decodeStream_cons]
  exact h

/-- An accepted first byte leaves a codec of that m, in range. -/
theorem decodeStream_codec (npix : Nat) {m : Byte} (rest : List Byte) (hm : 2 ≤ m.toNat ∧ m.toNat ≤ 8) :
    ∃ k, (decodeStream npix (m :: rest)).1.codec = some k ∧ k.m = m.toNat ∧ k.ok := by
  obtain ⟨hmin, hsome, -, -⟩ := decodeStream_firstByte npix m rest
  rw [if_pos ((acceptsM_iff _).2 hm)] at hsome
  obtain ⟨k, hk⟩ := Option.isSome_iff_exists.1 hsome
  obtain ⟨hok, hmin'⟩ := (decodeStream_good npix (m :: rest)).codec k hk
  have hle : k.m ≤ 8 := hok.2.1
  have hnat := congrArg BitVec.toNat (Option.some.inj (hmin.symm.trans hmin'))
  rw [BitVec.toNat_ofNat, Nat.mod_eq_of_lt (by omega)] at hnat
  exact ⟨k, hk, hnat.symm, hok⟩

theorem decodeStream_out_le (npix : Nat) (input : List Byte) : (decodeStream npix input).1.out.length ≤ npix := by
  have h := (decodeStream_good npix input).count
  rwa [decodeStream_npix] at h

theorem decodeStream_pixels_length (npix : Nat) (input : List Byte) :
    (decodeStream npix input).1.pixels.length = npix := by
  rw [Decoder.pixels_length (decodeStream_good npix input).count, decodeStream_npix]

theorem Decoder.pixels_getD_missing (d : Decoder) {i : Nat} (b : Byte) (h : d.out.length ≤ i) (hi : i < d.npix) :
    d.pixels.getD i b = 0#8 := by
  have hlt : i - d.out.length < d.npix - d.out.length := by omega
  rw [Decoder.pixels, List.getD_append_right _ _ _ _ h, List.getD_eq_getElem?_getD, List.getElem?_replicate,
    if_pos hlt, Option.getD_some]

/-! ### Error bits (R147) -/

theorem decodeStream_masks (npix : Nat) (input : List Byte) : (decodeStream npix input).2 &&& 0xC0#8 = 0#8 :=
  Decoder.run_bits (fun _ => True) _ (fun _ hu _ => ⟨trivial, (Decoder.advance_masks hu).1⟩) _ _ trivial

/-- After the first byte BAD_MIN_CODE_SIZE is not set any more, so the first byte alone decides it. -/
theorem decodeStream_badMinCodeSize (npix : Nat) (m : Byte) (rest : List Byte) :
    (decodeStream npix (m :: rest)).2 &&& 0x20#8 ≠ 0#8 ↔ ¬(2 ≤ m.toNat ∧ m.toNat ≤ 8) := by
  obtain ⟨-, hm, -⟩ := Decoder.afterFirst_fields npix m rest
  have hrun := Decoder.run_bits (fun d => d.minCode = some m) 0x20#8
    (fun d hu h => ⟨(Decoder.first_advance hu h).1, (Decoder.advance_masks hu).2 m h⟩) (9 * rest.length + 11) _ hm
  rw [decodeStream_cons, or_mask, hrun, BitVec.or_zero, ← acceptsM_iff, firstByteErr]
  cases acceptsM m.toNat <;> decide

theorem decodeStream_err (npix : Nat) (input : List Byte) :
    ((decodeStream npix input).2 &&& 0x15#8 ≠ 0#8 → (decodeStream npix input).1.out.length < npix) ∧
    ((decodeStream npix input).2 &&& 0x08#8 ≠ 0#8 → (decodeStream npix input).1.out.length = npix) :=
  Decoder.run_err _ (Decoder.good_start npix input)

/-! ### The completion step (R130, R131, R146, R150) -/

/-- What DECOMPRESS decodes: its input region, to the expected count. -/
def decompressed (s : State) : Effect :=
  decodeStream s.regs.npix (readBytes s s.regs.inBase.toNat s.regs.inLen.toNat)

theorem exec_decompress {s : State} (hfits : DecompressFits s) (hapart : DecompressApart s) :
    exec .decompress s = .next (finishDecompress (decompressed s).1 (setErr (decompressed s).2 s)) := by
  have hchecks : regionFault s.params.lmemSize (regionsOf .decompress s.regs) = none := by
    rw [regionFault_decompress, if_neg, if_neg]
    exacts [not_not.2 hapart, not_not.2 hfits]
  show execDecompress s = _
  rw [execDecompress, hchecks, decompressed, decodeStream, readBytes_length]
  rfl

theorem finishDecompress_undisturbed (d : Decoder) {s : State} (h : s.disturbed = false) :
    finishDecompress d s =
      { ended s with mem := s.mem.setBytes s.regs.pixBase.toNat d.pixels, regs := d.results (ended s).regs } := by
  rw [finishDecompress, complete_ok]
  · rw [ended, h]
    rfl
  · exact h

theorem readByte_finishDecompress (d : Decoder) {s : State} (h : s.disturbed = false) (a : Nat) :
    readByte (finishDecompress d s) a =
      if s.regs.pixBase.toNat ≤ a ∧ a < s.regs.pixBase.toNat + d.pixels.length
      then d.pixels.getD (a - s.regs.pixBase.toNat) 0#8 else readByte s a := by
  rw [finishDecompress_undisturbed d h]
  exact readByte_setBytes s _ _ _ a rfl rfl

theorem finishDecompress_inDecoder (d d' : Decoder) (b : ErrBits) (s : State) :
    finishDecompress d (setErr b (inDecoder d' s)) = finishDecompress d (setErr b s) :=
  finishDecompress_dp d (setErr b s) (.decoder d')

theorem finishDecompress_applyEffect (d : Decoder) (e : Effect) (b : ErrBits) (s : State) :
    finishDecompress d (setErr b (applyEffect e s)) = finishDecompress d (setErr (e.2 ||| b) s) := by
  rw [applyEffect, setErr_setErr]
  exact finishDecompress_inDecoder d e.1 (e.2 ||| b) s

/-- The machine inside a DECOMPRESS steps through the elements of its run and then finishes (log 7). -/
theorem steps_of_run (fuel : Nat) {d : Decoder} {s : State} (hd : s.datapath = .decoder d)
    (hfin : (Decoder.run fuel d).1.finished = true) :
    ∃ n, Steps n s (finishDecompress (Decoder.run fuel d).1 (setErr (Decoder.run fuel d).2 s)) := by
  induction fuel generalizing d s with
  | zero =>
    rw [Decoder.run_zero] at hfin ⊢
    rw [setErr_zero]
    exact ⟨1, _, step_decoder_end hd hfin, rfl⟩
  | succ fuel ih =>
    cases hu : d.finished with
    | true =>
      rw [Decoder.run_of_finished hu, setErr_zero]
      exact ⟨1, _, step_decoder_end hd hu, rfl⟩
    | false =>
      rw [Decoder.run_succ hu] at hfin ⊢
      obtain ⟨n, hn⟩ := ih (s := applyEffect d.advance s) rfl hfin
      rw [finishDecompress_applyEffect] at hn
      exact ⟨n + 1, _, step_decoder hd hu, hn⟩

end Sys2Proof.Machine

namespace Sys2Proof.Claim

open Sys2Proof.Machine

/-- Settles O19: after the whole sub-blocks the last element is the terminator, the end of the input, or a short block. -/
theorem framingOfSubBlocks : Obligations.FramingOfSubBlocks := by
  intro npix m blocks hb
  refine ⟨fun tail r hr => ?terminated, fun r hr => ?unterminated, fun n short r hshort hr => ?short⟩
  case terminated =>
    obtain ⟨d, hf, hm, hrest, hpos, hdata, hblocks, hend⟩ := decodeStream_lastElement npix m hb (0x00#8 :: tail)
    obtain ⟨rdata, rblocks, rpos, rbits⟩ := hend r _ _ hr (Decoder.advance_terminator hf hm hrest) rfl
    refine ⟨rdata.trans hdata, rblocks.trans hblocks, rpos.trans ?_, rbits.trans (by decide)⟩
    simp only [hpos]
    omega
  case unterminated =>
    obtain ⟨d, hf, hm, hrest, hpos, hdata, hblocks, hend⟩ := decodeStream_lastElement npix m hb []
    obtain ⟨rdata, rblocks, rpos, rbits⟩ :=
      hend r _ _ (by rw [hr, List.append_nil]) (Decoder.advance_empty hf hrest) rfl
    exact ⟨rdata.trans hdata, rblocks.trans hblocks, rpos.trans hpos, rbits.trans (inputTruncated_masks _).1⟩
  case short =>
    obtain ⟨d, hf, hm, hrest, hpos, hdata, hblocks, hend⟩ := decodeStream_lastElement npix m hb (n :: short)
    have hn : n ≠ 0#8 := by rintro rfl; exact Nat.not_lt_zero _ hshort
    have hadv := Decoder.advance_block hf hm hn hrest
    rw [List.take_of_length_le hshort.le, decide_eq_true hshort, hpos, hdata, hblocks] at hadv
    obtain ⟨rdata, rblocks, rpos, rbits⟩ := hend r _ _ hr hadv rfl
    refine ⟨rdata, rblocks, rpos.trans ?_, rbits.trans (by decide)⟩
    simp only
    omega

/-- Settles O21, by what the first byte settles and, where it is accepted, the range of the codec it leaves. -/
theorem resultRegistersByFirstByte : Obligations.ResultRegistersByFirstByte := by
  rintro npix input d rfl
  refine ⟨?none, ?refused, ?accepted⟩
  case none =>
    rintro rfl
    rw [decodeStream_nil]
    exact ⟨rfl, rfl, rfl, rfl⟩
  case refused =>
    rintro m rest rfl hm
    obtain ⟨hmin, hcodec, hout, -⟩ := decodeStream_firstByte npix m rest
    rw [if_neg (mt (acceptsM_iff _).1 hm)] at hcodec hout
    rw [Option.isSome_none, Option.isSome_eq_false_iff, Option.isNone_iff_eq_none] at hcodec
    simp [Decoder.info, Decoder.lzwCodes, Decoder.lzwState, hmin, hcodec, hout rfl]
  case accepted =>
    rintro m rest rfl hm
    obtain ⟨hmin, -⟩ := decodeStream_firstByte npix m rest
    obtain ⟨k, hk, hkm, -, -, hwlo, hwhi, hnxt⟩ := decodeStream_codec npix rest hm
    have hfirst := k.firstCode_le_nxt
    rw [hkm] at hwlo hfirst
    refine ⟨?_, ?_, k, hk, hkm, hwlo, hwhi, hfirst, hnxt, ?_⟩
    · simp [Decoder.info, hmin, hk, hkm, initWidth]
    · simp [Decoder.lzwCodes, hk, hkm, clearCode, eoiCode]
    · simp [Decoder.lzwState, hk]

/-- Settles O22: every run ends within the count; with no pixels expected the first byte settles the codec. -/
theorem decodingEndsWithinCount : Obligations.DecodingEndsWithinCount := by
  rintro npix input d rfl
  refine ⟨decodeStream_finished npix input, decodeStream_out_le npix input, decodeStream_pixels_length npix input,
    fun i ho hi => ?missing, ?noPixels⟩
  case missing => exact Decoder.pixels_getD_missing _ _ ho (by rwa [decodeStream_npix])
  case noPixels =>
    rintro rfl
    refine ⟨?codes, List.eq_nil_of_length_eq_zero (decodeStream_pixels_length 0 input), ?codec, ?empty⟩
    case codes =>
      cases input with
      | nil => rw [decodeStream_nil]; rfl
      | cons m rest => exact ((decodeStream_firstByte 0 m rest).2.2.2 rfl).2
    case codec =>
      rintro m rest rfl hm
      obtain ⟨-, -, -, hcodec⟩ := decodeStream_firstByte 0 m rest
      rw [(hcodec rfl).1, if_pos ((acceptsM_iff _).2 hm)]
      rfl
    case empty =>
      rintro rfl
      rw [decodeStream_nil]
      rfl

/-- Settles O23: the bits of COMPOSITE are never set, the first byte decides BAD_MIN_CODE_SIZE, and an element that sets
one of the others ends the command. -/
theorem decompressErrorBits : Obligations.DecompressErrorBits := by
  intro npix input
  obtain ⟨hmissing, hmany⟩ := decodeStream_err npix input
  refine ⟨decodeStream_masks npix input, ?badMinCodeSize, hmissing, hmany, decodeStream_why⟩
  case badMinCodeSize =>
    cases input with
    | nil =>
      rw [decodeStream_nil]
      exact iff_of_false (not_not.2 (inputTruncated_masks _).2) (by simp)
    | cons m rest =>
      rw [decodeStream_badMinCodeSize]
      constructor
      · exact fun h => ⟨m, rest, rfl, h⟩
      · rintro ⟨m', rest', heq, h⟩
        cases heq
        exact h

/-- Settles O24: the steps follow the run, whose fuel the stream does not exhaust. -/
theorem decompressIsItsElements : Obligations.DecompressIsItsElements := by
  intro s hfits hapart
  obtain ⟨n, hn⟩ := steps_of_run _ (s := inDecoder (startDecompress s) s) rfl (decodeStream_finished _ _)
  rw [finishDecompress_inDecoder] at hn
  exact ⟨n, _, exec_decompress hfits hapart, hn⟩

/-- Settles O7: the four places of a fetch, each by the step's own rule. -/
theorem stepRunsDecodedInstruction : Obligations.StepRunsDecodedInstruction := by
  refine ⟨fun s s0 l rest i hm hl hi => ?host, fun s s0 op hm => ⟨decodeCmd_word op, step_blockMoves hm⟩,
    fun s d i rest => step_element, fun s d k => step_code⟩
  case host =>
    rw [step_hostMoves hm, hostTurn_decoded ((host_hostMoves hm).trans hl) (by rwa [params_hostMoves hm])]

/-- Settles O8: the fetch finds no element and gives the end's own effect. -/
theorem inputRunsOut : Obligations.InputRunsOut := by
  refine ⟨fun s d k hd hf hk hs ho hb => ?code, fun s d hd hf hr => ?framing⟩
  case code =>
    rw [step_decoder hd (Decoder.finished_of_decoding hk hs ho), Decoder.advance_end hf hk hb]
    rfl
  case framing =>
    rw [step_decoder hd (Decoder.finished_framed hf), Decoder.advance_empty hf hr, applyEffect_eq, errIf]
    by_cases h : d.minCode = none ∧ 0 < d.npix
    · simp [h, errInputTruncated, errEndOfStream]
    · rw [if_neg h, if_neg (by simpa using h)]
      rfl

/-- Settles O10: Clear puts the start state of the codec in place, whose dictionary is empty. -/
theorem clearRestartsDictionary : Obligations.ClearRestartsDictionary := by
  intro s d k hd hk
  refine ⟨Codec.start k.m, exec_clear hd hk, rfl, rfl, rfl, rfl, fun c hc => Codec.str?_unassigned hc,
    fun hf hs ho hb hc => ?_⟩
  rw [step_code hd hf hk hs ho hb, hc, Codec.classify, classify_clear]
  exact exec_clear (s := inDecoder (d.past k.width) s) (d := d.past k.width) rfl hk

/-- Settles O11, by the meanings of EOI and BADCODE; a stopped decompressor past its framing has finished. -/
theorem eoiAndBadCodeStopDecoding : Obligations.EoiAndBadCodeStopDecoding := by
  refine ⟨fun s d k => exec_eoi, fun s d k c => exec_badcode, fun s d k c hd hk hc hbad hf hs ho hb hcode => ?read,
    fun s d hd hs hf => ⟨step_decoder_end hd (by simp [Decoder.finished, hf, hs]), rfl⟩⟩
  case read =>
    rw [step_code hd hf hk hs ho hb, hcode, Codec.classify_badcode hc hbad]
    exact exec_badcode (s := inDecoder (d.past k.width) s) (d := d.past k.width) rfl hk hc hbad

/-- Settles O12, by the class of a code below 2^m and its effect. -/
theorem literalCodes : Obligations.LiteralCodes := by
  refine fun s d k c hd hk hc => ⟨fun hp => ?first, fun q hq => ?later⟩
  case first =>
    have hclass : k.classify c = .literalFirst c := by rw [Codec.classify, classify_low hc, if_pos hp]
    rw [exec_of_classify hd hk hclass (literalFirstEffect c) rfl, literalFirstEffect, applyEffect_emit]
  case later =>
    have hclass : k.classify c = .literal c := by rw [Codec.classify, classify_low hc, if_neg (by simp [hq])]
    rw [exec_of_classify hd hk hclass (literalEffect c) rfl, literalEffect, applyEffect_emit, Codec.prevStr_of_some hq]

/-- Settles O13, by the class of an assigned code and its effect. -/
theorem dictCodeEmitsItsString : Obligations.DictCodeEmitsItsString := by
  intro s d k c q hd hk hc hlt hq
  rw [exec_of_classify hd hk (Codec.classify_dict hc hlt hq) (dictEffect c) rfl, dictEffect, applyEffect_emit,
    Codec.prevStr_of_some hq]

/-- Settles O14, by the class of the code nxt and its effect; AddEntry assigns the string to that very code. -/
theorem kwkwkNamesTheEntryItMakes : Obligations.KwkwkNamesTheEntryItMakes := by
  intro s d k q hd hk hq hn
  refine ⟨?_, Codec.str?_addEntry_nxt _ hn⟩
  rw [exec_of_classify hd hk (Codec.classify_kwkwk hq hn) (kwkwkEffect k.nxt) rfl, kwkwkEffect, applyEffect_emit,
    Codec.prevStr_of_some hq]

/-- Settles O17, by whether the byte is accepted. -/
theorem minCodeSizeStartsCodec : Obligations.MinCodeSizeStartsCodec := by
  intro s d m hd hf hm
  refine ⟨fun h => ?_, fun h => ?_⟩
  · rw [exec_minCodeSize hd hf hm, minCodeSizeEffect_accepted h, applyEffect_eq, withErr_zero]
    rfl
  · rw [exec_minCodeSize hd hf hm, minCodeSizeEffect_refused h]
    rfl

/-- Settles O18, by whether the block lacks bytes. -/
theorem subBlocksJoinData : Obligations.SubBlocksJoinData := by
  intro s d b hd hf hm
  refine ⟨fun n data hlen => ?whole, fun n data hlen => ?short, exec_terminator hd hf hm⟩
  case whole =>
    rw [exec_dataBlock hd hf hm, dataBlockEffect_whole hlen hf, applyEffect_eq, withErr_zero]
  case short =>
    rw [exec_dataBlock hd hf hm, dataBlockEffect_short hlen]
    rfl

/-- Settles O20: the pixels are npix many, so they fill the pixel region and nothing beyond. -/
theorem decompressWritesPixels : Obligations.DecompressWritesPixels := by
  intro s hs hfits hapart
  have hexec := exec_decompress hfits hapart
  have hnpix : (decompressed s).1.npix = s.regs.npix := decodeStream_npix _ _
  have hlen : (decompressed s).1.pixels.length = s.regs.npix := decodeStream_pixels_length _ _
  rw [decompressed] at hexec hnpix hlen
  generalize decodeStream s.regs.npix (readBytes s s.regs.inBase.toNat s.regs.inLen.toNat) = r at hexec hnpix hlen ⊢
  refine ⟨_, hexec, fun a => ?bytes, ?frame⟩
  case bytes =>
    rw [readByte_finishDecompress r.1 (s := setErr r.2 s) hs, hlen, Decoder.pixels, hnpix]
    rfl
  case frame =>
    rw [finishDecompress_undisturbed r.1 (s := setErr r.2 s) hs, Decoder.results, hnpix]
    rfl

end Sys2Proof.Claim

/-! Proofs of the statements about COMPRESS (41_compress.md): writing a code and the width mirror, a turn of the loop, the
codes of an encoding, packing and framing, the checks of the commands, the completion step at once or turn by turn, and
the round trip. -/

namespace Sys2Proof.Machine

open Sys2Proof.Claim

/-! ### Writing a code (R175, R177) -/

theorem Encoder.emitCode_clear (e : Encoder) :
    e.emitCode (2 ^ e.m) = { e with codes := e.codes ++ [(2 ^ e.m, e.dw)], dw := e.m + 1, dnext := 2 ^ e.m + 2,
                                    dfirst := true } := by
  rw [Encoder.emitCode, Encoder.mirror]
  exact if_pos rfl

/-- What the mirror does with a code that is not Clear. -/
theorem Encoder.emitCode_of_ne_clear {e : Encoder} {c : Nat} (hc : c ≠ 2 ^ e.m) :
    e.emitCode c =
      if c = 2 ^ e.m + 1 then { e with codes := e.codes ++ [(c, e.dw)] }
      else if e.dfirst then { e with codes := e.codes ++ [(c, e.dw)], dfirst := false }
      else if e.dnext < 4096 then
        { e with codes := e.codes ++ [(c, e.dw)], dnext := e.dnext + 1,
                 dw := if e.dnext = 2 ^ e.dw - 1 ∧ e.dw < 12 then e.dw + 1 else e.dw }
      else { e with codes := e.codes ++ [(c, e.dw)] } := by
  rw [Encoder.emitCode, Encoder.mirror]
  exact if_neg hc

/-- EOI, and any code but Clear once all codes are assigned, leaves the mirror as it is. -/
theorem Encoder.emitCode_mirror_kept {e : Encoder} {c : Nat}
    (h : c = 2 ^ e.m + 1 ∨ (c ≠ 2 ^ e.m ∧ e.dfirst = false ∧ 4096 ≤ e.dnext)) :
    e.emitCode c = { e with codes := e.codes ++ [(c, e.dw)] } := by
  obtain rfl | ⟨hc, hf, hn⟩ := h
  · rw [Encoder.emitCode_of_ne_clear (by omega), if_pos rfl]
  · rw [Encoder.emitCode_of_ne_clear hc, hf, if_neg Bool.false_ne_true, if_neg (Nat.not_lt.2 hn), ite_self]

theorem Encoder.emitCode_after_clear {e : Encoder} {c : Nat} (hc : c ≠ 2 ^ e.m) (he : c ≠ 2 ^ e.m + 1)
    (hf : e.dfirst = true) :
    e.emitCode c = { e with codes := e.codes ++ [(c, e.dw)], dfirst := false } := by
  rw [Encoder.emitCode_of_ne_clear hc, if_neg he, if_pos hf]

theorem Encoder.emitCode_assigning {e : Encoder} {c : Nat} (hc : c ≠ 2 ^ e.m) (he : c ≠ 2 ^ e.m + 1)
    (hf : e.dfirst = false) (hn : e.dnext < 4096) :
    e.emitCode c = { e with codes := e.codes ++ [(c, e.dw)], dnext := e.dnext + 1,
                            dw := if e.dnext = 2 ^ e.dw - 1 ∧ e.dw < 12 then e.dw + 1 else e.dw } := by
  rw [Encoder.emitCode_of_ne_clear hc, if_neg he, hf, if_neg Bool.false_ne_true, if_pos hn]

/-! ### The codes of an encoding (R175, R176, R182, R183) -/

/-- The code is one of its width, and the width is m+1 to 12. -/
def CodeFits (m : Nat) (x : Nat × Nat) : Prop := x.1 < 2 ^ x.2 ∧ m + 1 ≤ x.2 ∧ x.2 ≤ 12

/-- EOI fits every width from m+1 up. -/
theorem codeFits_eoi {m w : Nat} (hm : 2 ≤ m) (hlo : m + 1 ≤ w) (hhi : w ≤ 12) : CodeFits m (2 ^ m + 1, w) := by
  refine ⟨?_, hlo, hhi⟩
  have hpow : 2 ^ 2 ≤ 2 ^ m := Nat.pow_le_pow_right (by decide) hm
  calc 2 ^ m + 1 < 2 ^ (m + 1) := by rw [pow_succ]; omega
    _ ≤ 2 ^ w := Nat.pow_le_pow_right (by decide) hlo

theorem codeFits_clear {m : Nat} (hm : m ≤ 8) : CodeFits m (2 ^ m, m + 1) :=
  ⟨Nat.pow_lt_pow_right (by decide) (Nat.lt_succ_self m), Nat.le_refl _, by simp only; omega⟩

/-- The encoder ends, at the size it began with, with Clear first, EOI last, and only codes that fit. -/
theorem encodeIndices_shape {m : Nat} (hm : 2 ≤ m ∧ m ≤ 8) {p : List Byte} (hs : ∀ b ∈ p, b.toNat < 2 ^ m) :
    (encodeIndices m p).finished = true ∧ (encodeIndices m p).m = m ∧
      (∃ mid, (encodeIndices m p).codes = (2 ^ m, m + 1) :: mid ++ [(2 ^ m + 1, (encodeIndices m p).dw)]) ∧
      ∀ x ∈ (encodeIndices m p).codes, CodeFits m x := by
  by_cases hp : p = []
  · subst hp
    obtain ⟨hcodes, hdw, -, hfin, hsize⟩ := encodeIndices_nil m
    refine ⟨hfin, hsize, ⟨[], by rw [hcodes, hdw]; rfl⟩, ?_⟩
    rw [hcodes]
    exact List.forall_mem_cons.2 ⟨codeFits_clear hm.2, List.forall_mem_singleton.2
      (codeFits_eoi hm.1 (Nat.le_refl _) (Nat.le_trans (Nat.succ_le_succ hm.2) (by decide)))⟩
  · obtain ⟨mid, k, hcodes, hreads, hkm, ⟨-, -, hlo, hhi, -⟩, hdw, -, hfin, hsize, l, hl⟩ :=
      encodeIndices_reads hm hp hs
    refine ⟨hfin, hsize, ⟨l, by rw [hcodes, hl]; rfl⟩, ?_⟩
    rw [hcodes, ← hdw]
    rw [hkm] at hlo
    exact List.forall_mem_append.2 ⟨(reads_codes hm hreads).2.2,
      List.forall_mem_singleton.2 (codeFits_eoi hm.1 hlo hhi)⟩

/-! ### Packing (R178) -/

/-- The bytes that hold the bits, the last one completed with zero bits. -/
def bytesOfBits (bits : List Bool) : List Byte := bitsToBytes bits.length bits

theorem pack_eq_bytesOfBits (codes : List (Nat × Nat)) : pack codes = bytesOfBits (streamBits codes) := rfl

/-- With eight bits or more the first eight make the first byte. -/
theorem bytesOfBits_append {bits : List Bool} (h : 8 ≤ bits.length) (more : List Bool) :
    bytesOfBits (bits ++ more) = bitsByte (bits.take 8) :: bytesOfBits (bits.drop 8 ++ more) := by
  cases bits with
  | nil => exact absurd h (by decide)
  | cons b bs =>
    rw [bytesOfBits, List.cons_append, List.length_cons, bitsToBytes, ← List.cons_append,
      List.take_append_of_le_length h, List.drop_append_of_le_length h, bytesOfBits]
    congr 1
    refine bitsToBytes_fuel _ _ _ ?_ (Nat.le_refl _)
    rw [List.length_append, List.length_append, List.length_drop, List.length_cons]
    omega

/-- Fewer than eight bits make one byte, or none. -/
theorem bytesOfBits_short {bits : List Bool} (h : bits.length < 8) :
    bytesOfBits bits = if 0 < bits.length then [BitVec.ofNat 8 (bitsValue bits)] else [] := by
  cases bits with
  | nil => rfl
  | cons b bs =>
    rw [bytesOfBits, List.length_cons, bitsToBytes, List.take_of_length_le h.le, List.drop_of_length_le h.le,
      if_pos (Nat.succ_pos _), bitsByte_bitsValue]
    cases bs.length <;> rfl

/-- The value splits at the first eight bits as `acc` does in the inner loop. -/
theorem bitsValue_byte {bits : List Bool} (h : 8 ≤ bits.length) :
    bitsValue bits % 256 = bitsValue (bits.take 8) ∧ bitsValue bits / 256 = bitsValue (bits.drop 8) := by
  have hlen : (bits.take 8).length = 8 := List.length_take_of_le h
  have hlt := bitsValue_lt (bits.take 8)
  have hsplit := bitsValue_append (bits.take 8) (bits.drop 8)
  rw [List.take_append_drop, hlen] at hsplit
  rw [hlen] at hlt
  omega

/-- The inner loop on `acc` and `nb`, read as bits: it writes whole bytes and leaves fewer than eight bits. -/
theorem drain_bitsValue (fuel : Nat) (bits : List Bool) (h : bits.length ≤ fuel) :
    ∃ out left, drain fuel (bitsValue bits) bits.length = (out, bitsValue left, left.length) ∧ left.length < 8 ∧
      ∀ more, bytesOfBits (bits ++ more) = out ++ bytesOfBits (left ++ more) := by
  induction fuel generalizing bits with
  | zero =>
    obtain rfl := List.eq_nil_of_length_eq_zero (Nat.le_zero.1 h)
    exact ⟨[], [], rfl, by decide, fun _ => rfl⟩
  | succ fuel ih =>
    rw [drain]
    by_cases h8 : 8 ≤ bits.length
    · obtain ⟨hmod, hdiv⟩ := bitsValue_byte h8
      obtain ⟨out, left, hdrain, hleft, hbytes⟩ := ih (bits.drop 8) (by rw [List.length_drop]; omega)
      rw [List.length_drop] at hdrain
      refine ⟨bitsByte (bits.take 8) :: out, left, ?_, hleft, fun more => ?_⟩
      · rw [if_pos h8, hmod, hdiv, hdrain, bitsByte_bitsValue]
      · rw [bytesOfBits_append h8, hbytes, List.cons_append]
    · exact ⟨[], bits, if_neg h8, Nat.not_le.1 h8, fun _ => rfl⟩

/-- Pack from `acc` and `nb` on: the bits they stand for, then those of the codes. -/
theorem packFrom_bitsValue {codes : List (Nat × Nat)} (hc : ∀ x ∈ codes, x.1 < 2 ^ x.2) {bits : List Bool}
    (hb : bits.length < 8) :
    packFrom (bitsValue bits) bits.length codes = bytesOfBits (bits ++ streamBits codes) := by
  induction codes generalizing bits with
  | nil =>
    rw [packFrom, ← bytesOfBits_short hb]
    exact congrArg bytesOfBits (List.append_nil bits).symm
  | cons x codes ih =>
    obtain ⟨c, w⟩ := x
    obtain ⟨hx, hcodes⟩ := List.forall_mem_cons.1 hc
    have hacc : bitsValue bits + c * 2 ^ bits.length = bitsValue (bits ++ codeBits c w) := by
      rw [bitsValue_append, bitsValue_codeBits c w hx, Nat.mul_comm]
    have hnb : bits.length + w = (bits ++ codeBits c w).length := by rw [List.length_append, codeBits_length]
    obtain ⟨out, left, hdrain, hleft, hbytes⟩ := drain_bitsValue _ (bits ++ codeBits c w) (Nat.le_refl _)
    rw [packFrom, hacc, hnb, hdrain, ih hcodes hleft, streamBits_cons, ← List.append_assoc, hbytes]

/-- A first code of at least 3 bits makes at least one byte. -/
theorem pack_cons_length_pos {x : Nat × Nat} (codes : List (Nat × Nat)) (h : 3 ≤ x.2) :
    1 ≤ (pack (x :: codes)).length := by
  rw [pack_length, streamBits_length, List.map_cons, List.sum_cons]
  omega

/-! ### Framing (R179) -/

/-- The sub-blocks of D: their number is that of D's bytes by 255, rounded up. -/
theorem blocksOf_full {d : List Byte} (hd : d ≠ []) :
    ∃ full last, blocksOf d = full ++ [last] ∧ (∀ b ∈ full, b.length = 255) ∧ 1 ≤ last.length ∧ last.length ≤ 255 ∧
      full.flatten ++ last = d ∧ (blocksOf d).length = (d.length + 254) / 255 := by
  obtain ⟨full, last, hblocks, hfull, hlo, hhi, hlen⟩ := subBlocks_full d.length d hd (Nat.le_refl _)
  have hblocks : blocksOf d = full ++ [last] := hblocks
  refine ⟨full, last, hblocks, hfull, hlo, hhi, ?_, ?_⟩
  · have hjoin := blocksOf_flatten d
    rwa [hblocks, List.flatten_append, List.flatten_singleton] at hjoin
  · rw [hblocks, List.length_append, List.length_singleton]
    omega

/-! ### Checks that fail (R131, R171 to R173, R201, R202, R256) -/

theorem complete_faulted (op : Opcode) (c : FaultCause) {s : State} (h : s.disturbed = false) :
    complete op (some c) s = faulted c.code s := by
  rw [complete_fault op c s h, faulted, h]
  rfl

theorem exec_decompress_fault {s : State} {c : FaultCause} (h : s.disturbed = false)
    (hc : regionFault s.params.lmemSize (regionsOf .decompress s.regs) = some c) :
    exec .decompress s = .next (faulted c.code s) := by
  show execDecompress s = _
  rw [execDecompress, hc, ← complete_faulted .decompress c h]

theorem exec_compress_fault {s : State} {c : FaultCause} (h : s.disturbed = false) (hc : compressFault s = some c) :
    exec .compress s = .next (faulted c.code s) := by
  show execCompress s = _
  rw [execCompress, hc, ← complete_faulted .compress c h]

theorem exec_composite_fault {s : State} {c : FaultCause} (h : s.disturbed = false) (hc : compositeFault s = some c) :
    exec .composite s = .next (faulted c.code s) := by
  show execComposite s = _
  rw [execComposite, hc, ← complete_faulted .composite c h]

theorem compositeFault_of_ctLen_gt {s : State} (h : 256 < s.regs.ctLen.toNat) :
    compositeFault s = some .ctLenRange := if_pos h

theorem compositeFault_of_ctLen_le {s : State} (h : s.regs.ctLen.toNat ≤ 256) :
    compositeFault s = regionFault s.params.lmemSize (regionsOf .composite s.regs) := if_neg (Nat.not_lt.2 h)

/-! ### COMPRESS that passes its checks (R170, R180, R181) -/

/-- The compressor's last state for the index buffer of `s`. -/
def compressed (s : State) : Encoder := encodeIndices s.regs.lzwCfg.toNat (compressInput s)

/-- The image data COMPRESS makes of the index buffer of `s`. -/
def compressedBytes (s : State) : List Byte := compressBytes s.regs.lzwCfg.toNat (compressInput s)

theorem compressInput_small {s : State} (h : CompressIndicesOk s) :
    ∀ b ∈ compressInput s, b.toNat < 2 ^ s.regs.lzwCfg.toNat := by
  have hany := (indices_ok_iff s s.regs.pixBase.toNat s.regs.pixCount.toNat (2 ^ s.regs.lzwCfg.toNat)).2 h
  exact fun b hb => by simpa using List.any_eq_false.1 hany b hb

theorem compressed_m {s : State} (hsize : CompressSizeOk s) (hindices : CompressIndicesOk s) :
    (compressed s).m = s.regs.lzwCfg.toNat :=
  (encodeIndices_shape hsize (compressInput_small hindices)).2.1

theorem frame_compressed {s : State} (hsize : CompressSizeOk s) (hindices : CompressIndicesOk s) :
    frame (compressed s).m (pack (compressed s).codes) = compressedBytes s := by
  rw [compressed_m hsize hindices]
  rfl

/-- The result registers of COMPRESS, by what LZW_CFG and the buffer hold. -/
theorem compressed_results {s : State} (hsize : CompressSizeOk s) (hindices : CompressIndicesOk s) (r : Regs) :
    (compressed s).results r =
      { r with
        outLen := BitVec.ofNat 32 (compressedBytes s).length
        blockCount := BitVec.ofNat 32 (blocksOf (pack (compressed s).codes)).length
        codeCount := BitVec.ofNat 32 (compressed s).codes.length
        lzwInfo := { minCodeSize := BitVec.ofNat 8 s.regs.lzwCfg.toNat
                     initWidth := BitVec.ofNat 4 (s.regs.lzwCfg.toNat + 1) }
        lzwCodes := { clearCode := BitVec.ofNat 16 (2 ^ s.regs.lzwCfg.toNat)
                      eoiCode := BitVec.ofNat 16 (2 ^ s.regs.lzwCfg.toNat + 1) }
        lzwState := { nextCode := BitVec.ofNat 13 (compressed s).dnext
                      codeWidth := BitVec.ofNat 4 (compressed s).dw } } := by
  rw [Encoder.results, frame_compressed hsize hindices, compressed_m hsize hindices]
  rfl

theorem exec_compress {s : State} (hsize : CompressSizeOk s) (hfits : CompressFits s) (hapart : CompressApart s)
    (hindices : CompressIndicesOk s) : exec .compress s = .next (finishCompress (compressed s) s) := by
  have hchecks : compressFault s = none := by
    rw [compressFault_eq, if_neg, if_neg, if_neg, if_neg]
    exacts [not_not.2 hindices, not_not.2 hapart, not_not.2 hfits, not_not.2 hsize]
  show execCompress s = _
  rw [execCompress, hchecks]
  rfl

theorem finishCompress_undisturbed {e : Encoder} {s : State} (hd : s.disturbed = false)
    (h : (frame e.m (pack e.codes)).length ≤ s.regs.outCap.toNat) :
    finishCompress e s =
      { ended s with mem := s.mem.setBytes s.regs.outBase.toNat (frame e.m (pack e.codes)),
                     regs := e.results (ended s).regs } := by
  rw [finishCompress_fits (Nat.not_lt.2 h), complete_ok]
  · rw [ended, hd]
    rfl
  · exact hd

theorem finishCompress_overflow {e : Encoder} {s : State} (hd : s.disturbed = false)
    (h : s.regs.outCap.toNat < (frame e.m (pack e.codes)).length) :
    finishCompress e s =
      { faulted 5#8 s with
        mem := s.mem.setBytes s.regs.outBase.toNat ((frame e.m (pack e.codes)).take s.regs.outCap.toNat),
        regs := { (faulted 5#8 s).regs with outLen := s.regs.outCap } } := by
  rw [finishCompress_full h, complete_faulted]
  · rfl
  · exact hd

/-- What an undisturbed COMPRESS of a buffer whose encoding fits leaves. -/
theorem exec_compress_undisturbed {s : State} (hd : s.disturbed = false) (hsize : CompressSizeOk s)
    (hfits : CompressFits s) (hapart : CompressApart s) (hindices : CompressIndicesOk s)
    (hcap : (compressedBytes s).length ≤ s.regs.outCap.toNat) :
    exec .compress s = .next
      { ended s with mem := s.mem.setBytes s.regs.outBase.toNat (compressedBytes s),
                     regs := (compressed s).results (ended s).regs } := by
  rw [← frame_compressed hsize hindices] at hcap ⊢
  rw [exec_compress hsize hfits hapart hindices, finishCompress_undisturbed hd hcap]

/-- What it leaves where the encoding is longer than OUT_CAP. -/
theorem exec_compress_overflow {s : State} (hd : s.disturbed = false) (hsize : CompressSizeOk s)
    (hfits : CompressFits s) (hapart : CompressApart s) (hindices : CompressIndicesOk s)
    (hcap : s.regs.outCap.toNat < (compressedBytes s).length) :
    exec .compress s = .next
      { faulted 5#8 s with
        mem := s.mem.setBytes s.regs.outBase.toNat ((compressedBytes s).take s.regs.outCap.toNat),
        regs := { (faulted 5#8 s).regs with outLen := s.regs.outCap } } := by
  rw [← frame_compressed hsize hindices] at hcap ⊢
  rw [exec_compress hsize hfits hapart hindices, finishCompress_overflow hd hcap]

/-- The minimum code size, at least one byte of data, its sub-block's size byte and the terminator. -/
theorem compressBytes_length_ge {m : Nat} (hm : 2 ≤ m ∧ m ≤ 8) {p : List Byte} (hs : ∀ b ∈ p, b.toNat < 2 ^ m) :
    4 ≤ (compressBytes m p).length := by
  obtain ⟨-, -, ⟨mid, hcodes⟩, -⟩ := encodeIndices_shape hm hs
  have hdata : 1 ≤ (pack (encodeIndices m p).codes).length := by
    rw [hcodes]
    exact pack_cons_length_pos _ (Nat.succ_le_succ hm.1)
  obtain ⟨full, last, hblocks, -⟩ := blocksOf_full (List.ne_nil_of_length_pos hdata)
  rw [compressBytes, frame_length, hblocks, List.length_append, List.length_singleton]
  omega

/-! ### COMPRESS and COMPOSITE turn by turn (R175, R208, log 7) -/

theorem Encoder.run_of_finished {e : Encoder} (h : e.finished = true) (fuel : Nat) : Encoder.run fuel e = e := by
  cases fuel with
  | zero => rfl
  | succ n => exact if_pos h

theorem Encoder.run_succ {e : Encoder} (h : e.finished = false) (fuel : Nat) :
    Encoder.run (fuel + 1) e = Encoder.run fuel e.step := if_neg (by simp [h])

/-- The machine inside a COMPRESS steps through the turns of its run and then finishes. -/
theorem steps_of_encoderRun (fuel : Nat) {e : Encoder} {s : State} (hd : s.datapath = .encoder e)
    (hfin : (Encoder.run fuel e).finished = true) : ∃ n, Steps n s (finishCompress (Encoder.run fuel e) s) := by
  induction fuel generalizing e s with
  | zero => exact ⟨1, _, step_encoder_end hd hfin, rfl⟩
  | succ fuel ih =>
    cases hu : e.finished with
    | true =>
      rw [Encoder.run_of_finished hu]
      exact ⟨1, _, step_encoder_end hd hu, rfl⟩
    | false =>
      rw [Encoder.run_succ hu] at hfin ⊢
      obtain ⟨n, hn⟩ := ih (s := inEncoder e.step s) rfl hfin
      rw [inEncoder, finishCompress_dp] at hn
      exact ⟨n + 1, _, step_encoder hd hu, hn⟩

theorem Compositor.run_of_finished {c : Compositor} (h : c.finished = true) (fuel : Nat) :
    Compositor.run fuel c = (c, 0#8) := by
  cases fuel with
  | zero => rfl
  | succ n => exact if_pos h

theorem Compositor.run_succ {c : Compositor} (h : c.finished = false) (fuel : Nat) :
    Compositor.run (fuel + 1) c =
      ((Compositor.run fuel c.advance.1).1, c.advance.2 ||| (Compositor.run fuel c.advance.1).2) :=
  if_neg (by simp [h])

theorem finishComposite_inCompositor (canvas : List Pixel) (b : ErrBits) (s : State) (c : Compositor) :
    finishComposite canvas (setErr b { s with datapath := .compositor c }) = finishComposite canvas (setErr b s) :=
  finishComposite_dp canvas (setErr b s) (.compositor c)

/-- The machine inside a COMPOSITE steps through the pixels of its run and then finishes. -/
theorem steps_of_compositorRun (fuel : Nat) {c : Compositor} {s : State} (hd : s.datapath = .compositor c)
    (hfin : (Compositor.run fuel c).1.finished = true) :
    ∃ n, Steps n s (finishComposite (Compositor.run fuel c).1.canvas (setErr (Compositor.run fuel c).2 s)) := by
  have ends : ∀ {c : Compositor} {s : State}, s.datapath = .compositor c → c.finished = true →
      ∃ n, Steps n s (finishComposite c.canvas (setErr 0#8 s)) := fun hd hfin => by
    rw [setErr_zero]
    exact ⟨1, _, step_compositor_end hd hfin, rfl⟩
  induction fuel generalizing c s with
  | zero => exact ends hd hfin
  | succ fuel ih =>
    cases hu : c.finished with
    | true =>
      rw [Compositor.run_of_finished hu]
      exact ends hd hu
    | false =>
      rw [Compositor.run_succ hu] at hfin ⊢
      obtain ⟨n, hn⟩ := ih (s := setErr c.advance.2 { s with datapath := .compositor c.advance.1 }) rfl hfin
      rw [setErr_setErr, finishComposite_inCompositor] at hn
      exact ⟨n + 1, _, step_compositor hd hu, hn⟩

theorem exec_composite {s : State} (hct : s.regs.ctLen.toNat ≤ 256) (hfits : CompositeFits s)
    (hapart : CompositeApart s) :
    exec .composite s = .next (finishComposite (compositeCanvas s).1 (setErr (compositeCanvas s).2 s)) := by
  have hchecks : compositeFault s = none := by
    rw [compositeFault_of_ctLen_le hct, regionFault_composite, if_neg, if_neg]
    exacts [not_not.2 hapart, not_not.2 hfits]
  show execComposite s = _
  rw [execComposite, hchecks]

/-- The run of the pixel loop over the whole image. -/
def compositorRun (s : State) : Compositor × ErrBits :=
  Compositor.run (s.regs.imgW * s.regs.imgH) (startComposite s (disposedCanvas s))

theorem compositeCanvas_of_pixels {s : State} (h : s.regs.pixCount ≠ 0#32) :
    compositeCanvas s = ((compositorRun s).1.canvas, (compositorRun s).2) := if_neg h

theorem startComposite_at (s : State) (canvas : List Pixel) :
    startComposite s canvas = (startComposite s canvas).at 0 canvas := by
  rw [Compositor.at, Nat.zero_div, Nat.zero_mod]
  rfl

theorem compositorRun_finished (s : State) : (compositorRun s).1.finished = true := by
  rw [compositorRun, startComposite_at]
  exact Compositor.run_finished_at (startComposite s (disposedCanvas s)) _ 0 (Nat.zero_add _) _

/-! ### The round trip (R153, R186) -/

/-- A byte of a run that was written. -/
theorem readByte_setBytes_at {s t : State} {a : Nat} {vs : List Byte} {i : Nat} (he : t.epoch = s.epoch)
    (hm : t.mem = s.mem.setBytes a vs) (hi : i < vs.length) : readByte t (a + i) = vs.getD i 0#8 := by
  rw [readByte_setBytes s t a vs _ he hm, if_pos (by omega), Nat.add_sub_cancel_left]

/-- A run of bytes that are those of a list reads as the list. -/
theorem readBytes_eq_of_getD {s : State} {a : Nat} {l : List Byte}
    (h : ∀ i, i < l.length → readByte s (a + i) = l.getD i 0#8) : readBytes s a l.length = l := by
  refine List.ext_getElem? fun i => ?_
  by_cases hi : i < l.length
  · rw [readBytes_getElem? s a l.length i hi, h i hi, List.getD_eq_getElem _ _ hi, List.getElem?_eq_getElem hi]
  · rw [List.getElem?_eq_none (by rw [readBytes_length]; omega), List.getElem?_eq_none (by omega)]

/-- A COMPRESS that ended without a fault had room for its encoding, and left it with its results. -/
theorem compress_without_fault {s t : State} (hd : s.disturbed = false) (hsize : CompressSizeOk s)
    (hfits : CompressFits s) (hapart : CompressApart s) (hindices : CompressIndicesOk s)
    (ht : exec .compress s = .next t) (hfault : t.regs.status.fault = false) :
    (compressedBytes s).length ≤ s.regs.outCap.toNat ∧ t.epoch = s.epoch ∧
      t.mem = s.mem.setBytes s.regs.outBase.toNat (compressedBytes s) ∧
      t.regs = (compressed s).results (ended s).regs := by
  have hcap : (compressedBytes s).length ≤ s.regs.outCap.toNat := by
    by_contra hover
    cases ht.symm.trans (exec_compress_overflow hd hsize hfits hapart hindices (Nat.not_le.1 hover))
    cases hfault
  cases ht.symm.trans (exec_compress_undisturbed hd hsize hfits hapart hindices hcap)
  exact ⟨hcap, rfl, rfl, rfl⟩

theorem compressInput_length (s : State) : (compressInput s).length = s.regs.pixCount.toNat := readBytes_length ..

theorem compressInput_eq_nil_iff (s : State) : compressInput s = [] ↔ s.regs.pixCount = 0#32 := by
  rw [← List.length_eq_zero_iff, compressInput_length, ← BitVec.toNat_inj]
  rfl

/-- Decoding the encoding of the buffer of `s` (`decode_compress`). -/
theorem decode_compressed {s : State} (hsize : CompressSizeOk s) (hindices : CompressIndicesOk s) :
    let r := decodeStream (compressInput s).length (compressedBytes s)
    r.1.pixels = compressInput s ∧ r.2 = 0#8 ∧ r.1.inPos = (compressedBytes s).length ∧
      r.1.lzwState = { nextCode := BitVec.ofNat 13 (compressed s).dnext
                       codeWidth := BitVec.ofNat 4 (compressed s).dw } ∧
      r.1.codes = (if compressInput s = [] then 0 else (compressed s).codes.length - 1) :=
  decode_compress hsize (compressInput s) (compressInput_small hindices)

theorem compressed_codes_pos {s : State} (hsize : CompressSizeOk s) (hindices : CompressIndicesOk s) :
    1 ≤ (compressed s).codes.length := by
  obtain ⟨-, -, ⟨mid, hcodes⟩, -⟩ := encodeIndices_shape hsize (compressInput_small hindices)
  rw [compressed, hcodes]
  exact Nat.succ_pos _

/-- The buffer and the encoding share an LMEM of legal size, so the number of codes fits in CODE_COUNT (log 25). -/
theorem compressed_codes_lt {s : State} (hwf : s.params.WF) (hsize : CompressSizeOk s) (hfits : CompressFits s)
    (hapart : CompressApart s) (hindices : CompressIndicesOk s)
    (hcap : (compressedBytes s).length ≤ s.regs.outCap.toNat) (hne : s.regs.pixCount ≠ 0#32) :
    (compressed s).codes.length < 2 ^ 32 := by
  have hsmall := compressInput_small hindices
  have hshare : (compressInput s).length + (compressedBytes s).length ≤ 2 ^ 32 := by
    obtain ⟨-, hlmem, -⟩ := hwf
    have hout : 4 ≤ (compressedBytes s).length := compressBytes_length_ge hsize hsmall
    have hpix : s.regs.pixCount.toNat ≠ 0 := fun h => hne (BitVec.eq_of_toNat_eq h)
    rw [CompressFits, Fits, Fits] at hfits
    rw [CompressApart, Apart] at hapart
    rw [compressInput_length]
    omega
  exact compress_codes_lt hsize hsmall hshare

end Sys2Proof.Machine

namespace Sys2Proof.Claim

open Sys2Proof.Machine

/-- Settles O27: each clause is one turn of the loop, and the step takes one turn. -/
theorem encoderTurnIsGreedy : Obligations.EncoderTurnIsGreedy := by
  intro s e hd hu
  have hstep : ∀ {e'}, e.step = e' → step s = .next (inEncoder e' s) := by
    rintro _ rfl
    exact step_encoder hd hu
  exact ⟨fun hr hc => hstep (Encoder.step_none hr hc), fun c hr hc => hstep (Encoder.step_last hr hc),
    fun b r hr hc => hstep (Encoder.step_first hr hc), fun b r c c' hr hc hl => hstep (Encoder.step_extend hr hc hl),
    fun b r c hr hc hl hn => hstep (Encoder.step_entry hr hc hl hn),
    fun b r c hr hc hl hn => hstep (Encoder.step_full hr hc hl hn)⟩

/-- Settles O28, by what EmitCode makes of the mirror for Clear, for EOI or a full dictionary, for the first code after a
Clear, and for any other. -/
theorem mirrorTracksDecoderWidth : Obligations.MirrorTracksDecoderWidth := by
  intro e c
  refine ⟨Encoder.emitCode_codes c e, ?clear, fun h => ?kept, fun hc he hf => ?first, fun hc he hf hn => ?assigning⟩
  case clear =>
    rintro rfl
    rw [Encoder.emitCode_clear]
    exact ⟨rfl, rfl, rfl⟩
  case kept =>
    rw [Encoder.emitCode_mirror_kept h]
    exact ⟨rfl, rfl, rfl⟩
  case first =>
    rw [Encoder.emitCode_after_clear hc he hf]
    exact ⟨rfl, rfl, rfl⟩
  case assigning =>
    rw [Encoder.emitCode_assigning hc he hf hn]
    exact ⟨rfl, rfl, hf⟩

/-- Settles O29, by the shape of every encoding and the two shortest ones. -/
theorem encodingStartsClearEndsEoi : Obligations.EncodingStartsClearEndsEoi := by
  rintro m p e hlo hhi hs rfl
  obtain ⟨hfin, -, hends, hfits⟩ := encodeIndices_shape ⟨hlo, hhi⟩ hs
  refine ⟨hfin, hends, hfits, ?empty, ?single⟩
  case empty =>
    rintro rfl
    obtain ⟨hcodes, hdw, hdnext, -⟩ := encodeIndices_nil m
    exact ⟨hcodes, hdnext, hdw⟩
  case single =>
    rintro b rfl
    exact encodeIndices_one (hs b (List.mem_singleton.2 rfl))

/-- Settles O30: `acc` and `nb` are the value and the number of the bits not yet written. -/
theorem packIsTheAccumulator : Obligations.PackIsTheAccumulator := by
  refine fun codes hc => ⟨?same, fun hne hw => ?nonempty⟩
  case same => exact (pack_eq_bytesOfBits codes).trans (packFrom_bitsValue hc (bits := []) (by decide)).symm
  case nonempty =>
    obtain ⟨x, rest, rfl⟩ := List.exists_cons_of_ne_nil hne
    exact pack_cons_length_pos rest (hw x List.mem_cons_self)

/-- Settles O32, by the sub-blocks of D. -/
theorem frameLayout : Obligations.FrameLayout := by
  intro m d hd
  obtain ⟨full, last, hblocks, hfull, hlo, hhi, hjoin, hnumber⟩ := blocksOf_full hd
  refine ⟨full, last, ?_, hfull, hlo, hhi, hjoin, hblocks, hnumber, frame_length m d⟩
  rw [frame_eq, hblocks]
  rfl

/-- Settles O38, by the turns of the two runs; neither run is cut short by its fuel. -/
theorem compressAndCompositeAreTheirTurns : Obligations.CompressAndCompositeAreTheirTurns := by
  refine ⟨fun s hsize hfits hapart hindices => ?compress, fun s hpix hct hfits hapart => ?composite⟩
  case compress =>
    have hfin := (encodeIndices_shape hsize (compressInput_small hindices)).1
    obtain ⟨n, hn⟩ := steps_of_encoderRun _ (s := inEncoder (Encoder.start s.regs.lzwCfg.toNat (compressInput s)) s)
      rfl hfin
    rw [inEncoder, finishCompress_dp] at hn
    exact ⟨n, _, exec_compress hsize hfits hapart hindices, hn⟩
  case composite =>
    obtain ⟨n, hn⟩ := steps_of_compositorRun _
      (s := { s with datapath := .compositor (startComposite s (disposedCanvas s)) }) rfl (compositorRun_finished s)
    rw [finishComposite_inCompositor] at hn
    refine ⟨n, _, exec_composite hct hfits hapart, ?_⟩
    rw [compositeCanvas_of_pixels hpix]
    exact hn

/-- Settles O39: each command's checks are a chain of conditions, and the first that fails gives the cause. -/
theorem faultsInCheckOrder : Obligations.FaultsInCheckOrder := by
  intro s hd
  have decompress := fun c => exec_decompress_fault (c := c) hd
  have compress := fun c => exec_compress_fault (c := c) hd
  have composite := fun c => exec_composite_fault (c := c) hd
  rw [regionFault_decompress] at decompress
  rw [compressFault_eq] at compress
  refine ⟨fun hf => decompress .regionBounds (if_pos hf), fun hf ha => decompress .regionOverlap ?overlap,
    fun hm => compress .badMinCodeSize (if_pos hm), fun hm hf => compress .regionBounds ?bounds,
    fun hm hf ha => compress .regionOverlap ?compressOverlap, fun hm hf ha hi => compress .pixelIndexRange ?indices,
    fun hct => composite .ctLenRange (compositeFault_of_ctLen_gt hct),
    fun hct hf => composite .regionBounds ?compositeBounds,
    fun hct hf ha => composite .regionOverlap ?compositeOverlap⟩
  case overlap => exact Eq.trans (if_neg (not_not.2 hf)) (if_pos ha)
  case bounds => exact Eq.trans (if_neg (not_not.2 hm)) (if_pos hf)
  case compressOverlap =>
    exact Eq.trans (if_neg (not_not.2 hm)) (Eq.trans (if_neg (not_not.2 hf)) (if_pos ha))
  case indices =>
    exact Eq.trans (if_neg (not_not.2 hm))
      (Eq.trans (if_neg (not_not.2 hf)) (Eq.trans (if_neg (not_not.2 ha)) (if_pos hi)))
  case compositeBounds =>
    rw [compositeFault_of_ctLen_le hct, regionFault_composite]
    exact if_pos hf
  case compositeOverlap =>
    rw [compositeFault_of_ctLen_le hct, regionFault_composite]
    exact Eq.trans (if_neg (not_not.2 hf)) (if_pos ha)

/-- Settles O25: the bytes are those of the encoding, and its m is that of LZW_CFG. -/
theorem compressWritesImageData : Obligations.CompressWritesImageData := by
  intro s hd hsize hfits hapart hindices m p e out hcap
  refine ⟨_, exec_compress_undisturbed hd hsize hfits hapart hindices hcap, fun a => ?bytes, ?frame⟩
  case bytes => exact readByte_setBytes s _ _ _ a rfl rfl
  case frame =>
    rw [compressed_results hsize hindices]
    rfl

/-- Settles O26: the bytes written are the first OUT_CAP of the encoding. -/
theorem compressOutputCapacity : Obligations.CompressOutputCapacity := by
  intro s hd hsize hfits hapart hindices out
  refine ⟨compressBytes_length_ge hsize (compressInput_small hindices), fun hcap => ?_⟩
  refine ⟨_, exec_compress_overflow hd hsize hfits hapart hindices hcap, fun a => ?bytes, rfl⟩
  case bytes =>
    have hcap : s.regs.outCap.toNat < (compressedBytes s).length := hcap
    refine Eq.trans (readByte_setBytes s _ _ _ a rfl rfl) ?_
    rw [List.length_take_of_le hcap.le]
    split
    case isTrue hin =>
      have hi : a - s.regs.outBase.toNat < s.regs.outCap.toNat := by omega
      rw [List.getD_eq_getElem?_getD, List.getElem?_take_of_lt hi, ← List.getD_eq_getElem?_getD]
      rfl
    case isFalse => rfl

/-- Settles O33: what COMPRESS wrote is the encoding of the buffer, and DECOMPRESS decodes that. -/
theorem roundTrip : Obligations.RoundTrip := by
  intro s t u hd hsize hfits hapart hindices ht hfault _ hdu hfitsu hapartu hnpix hlen hbytes
  obtain ⟨hcap, hepoch, hmem, hregs⟩ := compress_without_fault hd hsize hfits hapart hindices ht hfault
  rw [compressed_results hsize hindices] at hregs
  have houtLen : t.regs.outLen.toNat = (compressedBytes s).length := by
    rw [hregs]
    exact Nat.mod_eq_of_lt (hcap.trans_lt s.regs.outCap.isLt)
  have hrun : decompressed u = decodeStream (compressInput s).length (compressedBytes s) := by
    rw [houtLen] at hbytes
    have hinput : readBytes u u.regs.inBase.toNat (compressedBytes s).length = compressedBytes s :=
      readBytes_eq_of_getD fun i hi => (hbytes i hi).trans (readByte_setBytes_at hepoch hmem hi)
    rw [decompressed, hlen, houtLen, hinput, hnpix, compressInput_length]
  obtain ⟨hpixels, herr, hpos, hstate, hcodes⟩ := decode_compressed hsize hindices
  rw [← hrun] at hpixels herr hpos hstate hcodes
  have hexec := exec_decompress hfitsu hapartu
  rw [herr, setErr_zero, finishDecompress_undisturbed _ hdu, hpixels] at hexec
  rw [hregs]
  refine ⟨_, hexec, fun i hi => ?pixels, rfl, rfl, congrArg (BitVec.ofNat 32) hpos, hstate, fun hwf hne => ?count,
    fun hz => ?empty⟩
  case pixels =>
    have hi' : i < (compressInput s).length := by rwa [compressInput_length]
    exact Eq.trans (readByte_setBytes_at (s := u) rfl rfl hi') (readBytes_getD s _ _ i hi)
  case count =>
    have hlt := compressed_codes_lt hwf hsize hfits hapart hindices hcap hne
    rw [if_neg (mt (compressInput_eq_nil_iff s).1 hne)] at hcodes
    show codeCountWord _ = BitVec.ofNat 32 _ - BitVec.ofNat 32 1
    rw [hcodes, codeCountWord_of_lt (by omega), BitVec.ofNat_sub_ofNat_of_le _ _ (by decide)]
    exact compressed_codes_pos hsize hindices
  case empty =>
    rw [if_pos ((compressInput_eq_nil_iff s).2 hz)] at hcodes
    show codeCountWord _ = _
    rw [hcodes, codeCountWord_zero]

end Sys2Proof.Claim

/-! Proofs of the statements about COMPOSITE (42_composite.md): the canvas that disposal leaves, the pixel loop in terms of
the stream's rows and columns, and the canvas region after the completion step. -/

namespace Sys2Proof.Machine

open Sys2Proof.Claim

/-! ### Disposal of the previous frame (R204 to R206) -/

theorem Regs.seeds_iff (r : Regs) : r.seeds = true ↔ 1 < r.prevInfo.prevDisposal.toNat ∧ r.prevInfo.n2Exists = true := by
  rw [Regs.seeds, Bool.and_eq_true, decide_eq_true_iff, and_comm]

theorem inPrevRect_iff (r : Regs) (x y : Nat) :
    inPrevRect r x y = true ↔ r.prevX ≤ x ∧ x < r.prevX + r.prevW ∧ r.prevY ≤ y ∧ y < r.prevY + r.prevH :=
  decide_eq_true_iff

theorem pixelAt_blankCanvas (n sw x y : Nat) : pixelAt (blankCanvas n) sw x y = Pixel.blank := by
  by_cases h : y * sw + x < n
  · exact List.getD_replicate _ h
  · exact List.getD_eq_default _ _ (by rw [blankCanvas, List.length_replicate]; omega)

theorem pixelAt_seedCanvas (s : State) {n sw x y : Nat} (h : y * sw + x < n) :
    pixelAt (seedCanvas s n) sw x y = readPixel s (s.regs.n2Base.toNat + 4 * (y * sw + x)) :=
  getD_map_range n _ _ h

theorem pixelAt_fillRect (s : State) {c : List Pixel} (hc : c.length = s.regs.screenW * s.regs.screenH) {x y : Nat}
    (hx : x < s.regs.screenW) (hy : y < s.regs.screenH) :
    pixelAt (fillRect s.regs c) s.regs.screenW x y =
      if inPrevRect s.regs x y = true then fillColour s.regs else pixelAt c s.regs.screenW x y := by
  obtain ⟨hpos, hcol, hrow⟩ := disposed_at s x y hx hy
  rw [← hc] at hpos
  rw [pixelAt, fillRect, getD_map_range _ _ _ hpos, hcol, hrow]
  rfl

/-- The canvas after steps 1 and 2 (R204, R205). -/
def seededCanvas (s : State) : List Pixel :=
  let n := s.regs.screenW * s.regs.screenH
  if s.regs.seeds then seedCanvas s n else blankCanvas n

theorem disposedCanvas_eq (s : State) :
    disposedCanvas s =
      if s.regs.prevInfo.prevDisposal = 2#3 then fillRect s.regs (seededCanvas s) else seededCanvas s := rfl

theorem seededCanvas_length (s : State) : (seededCanvas s).length = s.regs.screenW * s.regs.screenH := by
  unfold seededCanvas
  split <;> simp [seedCanvas, blankCanvas]

theorem pixelAt_seededCanvas (s : State) {x y : Nat} (hx : x < s.regs.screenW) (hy : y < s.regs.screenH) :
    pixelAt (seededCanvas s) s.regs.screenW x y =
      if s.regs.seeds = true then readPixel s (s.regs.n2Base.toNat + 4 * (y * s.regs.screenW + x)) else Pixel.blank := by
  unfold seededCanvas
  split
  · exact pixelAt_seedCanvas s (disposed_at s x y hx hy).1
  · exact pixelAt_blankCanvas ..

theorem pixelAt_disposedCanvas (s : State) {x y : Nat} (hx : x < s.regs.screenW) (hy : y < s.regs.screenH) :
    pixelAt (disposedCanvas s) s.regs.screenW x y =
      if s.regs.prevInfo.prevDisposal = 2#3 ∧ inPrevRect s.regs x y = true then fillColour s.regs
      else if s.regs.seeds = true then readPixel s (s.regs.n2Base.toNat + 4 * (y * s.regs.screenW + x))
      else Pixel.blank := by
  rw [disposedCanvas_eq, ← pixelAt_seededCanvas s hx hy]
  by_cases hd : s.regs.prevInfo.prevDisposal = 2#3
  · rw [if_pos hd, pixelAt_fillRect s (seededCanvas_length s) hx hy]
    exact if_congr (and_iff_right hd).symm rfl rfl
  · rw [if_neg hd, if_neg (mt And.left hd)]

/-! ### The n-th pixel of the stream (R207 to R212) -/

/-- The compositor at the start of step 4 (R200). -/
abbrev drawing (s : State) : Compositor := startComposite s (disposedCanvas s)

/-- A drawn pixel is that of one number in the stream. -/
theorem drawnAt_number {s : State} {k j x y : Nat} (h : DrawnAt s k j x y) :
    ∃ n, n < s.regs.imgW * s.regs.imgH ∧ n / s.regs.imgW = k ∧ n % s.regs.imgW = j := by
  obtain ⟨hk, hj, -⟩ := h
  have hw : 0 < s.regs.imgW := by omega
  refine ⟨s.regs.imgW * k + j, ?_, ?_, ?_⟩
  · calc s.regs.imgW * k + j < s.regs.imgW * k + s.regs.imgW := by omega
      _ ≤ s.regs.imgW * s.regs.imgH := Nat.mul_le_mul_left _ hk
  · rw [Nat.mul_add_div hw, Nat.div_eq_of_lt hj, Nat.add_zero]
  · rw [Nat.mul_add_mod, Nat.mod_eq_of_lt hj]

/-- The n-th pixel of the stream is drawn where the compositor shows it. -/
theorem drawnAt_iff_shows {s : State} {n : Nat} (hn : n < s.regs.imgW * s.regs.imgH) (x y : Nat) :
    DrawnAt s (n / s.regs.imgW) (n % s.regs.imgW) x y ↔
      (drawing s).shows n ∧ x = (drawing s).xAt n ∧ y = (drawing s).yAt n := by
  have hw : 0 < s.regs.imgW := Nat.pos_of_mul_pos_right (Nat.zero_lt_of_lt hn)
  constructor
  · rintro ⟨-, -, rfl, rfl, hx, hy⟩
    exact ⟨⟨hx, hy⟩, rfl, rfl⟩
  · rintro ⟨⟨hx, hy⟩, rfl, rfl⟩
    exact ⟨Nat.div_lt_of_lt_mul hn, Nat.mod_lt _ hw, rfl, rfl, hx, hy⟩

theorem readBytes_getD_eq (s : State) (a n i : Nat) :
    (readBytes s a n).getD i 0#8 = if i < n then readByte s (a + i) else 0#8 := by
  split
  · next h => exact readBytes_getD s a n i h
  · next h => exact List.getD_eq_default _ _ (by rw [readBytes_length]; omega)

theorem drawing_indexAt (s : State) (n : Nat) :
    (drawing s).indexAt n = streamIndex s (n / s.regs.imgW) (n % s.regs.imgW) := by
  rw [streamIndex, Nat.div_add_mod']
  exact readBytes_getD_eq ..

theorem drawing_transparent_iff (s : State) (i : Byte) : (drawing s).transparent = some i ↔ Transparent s i := by
  show (if s.regs.imgFlags.transparent = true then some s.regs.imgFlags.transparentIndex else none) = some i ↔ _
  rw [Transparent, Option.ite_none_right_eq_some, Option.some.injEq, eq_comm (a := i)]

theorem drawing_draws_iff (s : State) (n : Nat) :
    (drawing s).draws n ↔
      (drawing s).shows n ∧ ¬Transparent s (streamIndex s (n / s.regs.imgW) (n % s.regs.imgW)) := by
  rw [Compositor.draws, Ne, drawing_transparent_iff, drawing_indexAt]

theorem drawing_bad_iff (s : State) (n : Nat) :
    (drawing s).bad n ↔
      (drawing s).shows n ∧ BadIndex s (streamIndex s (n / s.regs.imgW) (n % s.regs.imgW)) := by
  rw [Compositor.bad, drawing_draws_iff, drawing_indexAt, and_assoc]
  rfl

theorem tableColour_eq_tableEntry (s : State) {i : Nat} (h : i < s.regs.ctLen.toNat) :
    tableColour (readBytes s s.regs.ctBase.toNat (3 * s.regs.ctLen.toNat)) i = tableEntry s i := by
  rw [tableColour, readBytes_getD _ _ _ _ (by omega), readBytes_getD _ _ _ _ (by omega),
    readBytes_getD _ _ _ _ (by omega)]
  rfl

theorem drawing_colourAt (s : State) (n : Nat) :
    let i := streamIndex s (n / s.regs.imgW) (n % s.regs.imgW)
    (drawing s).colourAt n = if s.regs.ctLen.toNat ≤ i.toNat then Pixel.black else tableEntry s i.toNat := by
  intro i
  rw [Compositor.colourAt, drawing_indexAt]
  by_cases h : s.regs.ctLen.toNat ≤ i.toNat
  · rw [if_pos h]
    exact if_pos h
  · rw [if_neg h, ← tableColour_eq_tableEntry s (Nat.not_le.1 h)]
    exact if_neg h

/-! ### The whole image (R208) -/

/-- `Compositor.run_at` over the whole image. -/
theorem compositorRun_spec (s : State) :
    (∀ q, q < s.regs.screenW * s.regs.screenH →
      ((∀ n, n < s.regs.imgW * s.regs.imgH → (drawing s).draws n →
          (drawing s).yAt n * s.regs.screenW + (drawing s).xAt n ≠ q) →
        (compositorRun s).1.canvas.getD q Pixel.blank = (disposedCanvas s).getD q Pixel.blank) ∧
      (∀ n, n < s.regs.imgW * s.regs.imgH → (drawing s).draws n →
          (drawing s).yAt n * s.regs.screenW + (drawing s).xAt n = q →
        (compositorRun s).1.canvas.getD q Pixel.blank = (drawing s).colourAt n)) ∧
    ((∃ n, n < s.regs.imgW * s.regs.imgH ∧ (drawing s).bad n) → (compositorRun s).2 = errBadColourIndex) ∧
    ((∀ n, n < s.regs.imgW * s.regs.imgH → ¬(drawing s).bad n) → (compositorRun s).2 = 0#8) := by
  by_cases hw : s.regs.imgW = 0
  · have hrun : compositorRun s = (drawing s, 0#8) := by
      rw [compositorRun, hw, Nat.zero_mul]
      rfl
    have hnone : ∀ n, ¬n < s.regs.imgW * s.regs.imgH := fun n => by
      rw [hw, Nat.zero_mul]
      exact Nat.not_lt_zero n
    rw [hrun]
    exact ⟨fun q _ => ⟨fun _ => rfl, fun n hn => absurd hn (hnone n)⟩, fun ⟨n, hn, _⟩ => absurd hn (hnone n),
      fun _ => rfl⟩
  · have hrun := Compositor.run_at (c := drawing s) hw (rowMap_length _ _) (rowMap_nodup _ _) _ 0 (Nat.zero_add _)
      (disposedCanvas s) (disposedCanvas_length s)
    rw [← startComposite_at] at hrun
    obtain ⟨hcanvas, hbad, hgood⟩ := hrun
    refine ⟨fun q hq => ?_, fun ⟨n, hn, hb⟩ => hbad ⟨n, n.zero_le, hn, hb⟩, fun hno => hgood fun n _ => hno n⟩
    obtain ⟨hkept, hdrawn⟩ := hcanvas q ((disposedCanvas_length s).symm ▸ hq)
    exact ⟨fun hno => hkept fun n _ => hno n, fun n => hdrawn n n.zero_le⟩

/-- A position at which only transparent pixels are drawn, or none, keeps what disposal left. -/
theorem pixelAt_compositorRun_kept {s : State} {x y : Nat} (hx : x < s.regs.screenW) (hy : y < s.regs.screenH)
    (h : ∀ k j, DrawnAt s k j x y → Transparent s (streamIndex s k j)) :
    pixelAt (compositorRun s).1.canvas s.regs.screenW x y = pixelAt (disposedCanvas s) s.regs.screenW x y := by
  obtain ⟨hpos, hcol, hrow⟩ := disposed_at s x y hx hy
  refine ((compositorRun_spec s).1 _ hpos).1 fun n hn hdraws hq => ?_
  obtain ⟨hshows, hopaque⟩ := (drawing_draws_iff s n).1 hdraws
  obtain ⟨-, hcol', hrow'⟩ := disposed_at s _ _ hshows.1 hshows.2
  rw [hq] at hcol' hrow'
  exact hopaque (h _ _ ((drawnAt_iff_shows hn x y).2 ⟨hshows, hcol.symm.trans hcol', hrow.symm.trans hrow'⟩))

/-- A pixel that is drawn and not transparent takes its colour, opaque black for a bad index. -/
theorem pixelAt_compositorRun_drawn {s : State} {k j x y : Nat} (h : DrawnAt s k j x y)
    (ht : ¬Transparent s (streamIndex s k j)) :
    pixelAt (compositorRun s).1.canvas s.regs.screenW x y =
      if s.regs.ctLen.toNat ≤ (streamIndex s k j).toNat then Pixel.black else tableEntry s (streamIndex s k j).toNat := by
  obtain ⟨n, hn, rfl, rfl⟩ := drawnAt_number h
  obtain ⟨hshows, rfl, rfl⟩ := (drawnAt_iff_shows hn x y).1 h
  rw [← drawing_colourAt]
  exact ((compositorRun_spec s).1 _ (disposed_at s _ _ hshows.1 hshows.2).1).2 n hn
    ((drawing_draws_iff s n).2 ⟨hshows, ht⟩) rfl

/-- Two pixels of the stream are not drawn at one position. -/
theorem drawnAt_unique {s : State} {k j k' j' x y : Nat} (h : DrawnAt s k j x y) (h' : DrawnAt s k' j' x y) :
    k = k' ∧ j = j' := by
  obtain ⟨n, hn, rfl, rfl⟩ := drawnAt_number h
  obtain ⟨m, hm, rfl, rfl⟩ := drawnAt_number h'
  obtain ⟨hshows, hx, hy⟩ := (drawnAt_iff_shows hn x y).1 h
  obtain ⟨hshows', hx', hy'⟩ := (drawnAt_iff_shows hm x y).1 h'
  obtain rfl : n = m := Compositor.position_inj (c := drawing s) (rowMap_length _ _) (rowMap_nodup _ _) hn hm hshows
    hshows' (by rw [← hx, ← hy, ← hx', ← hy'])
  exact ⟨rfl, rfl⟩

/-- BAD_COLOUR_INDEX is set exactly where a bad index is drawn (R211). -/
theorem compositorRun_bad {s : State} (h : ∃ k j x y, DrawnAt s k j x y ∧ BadIndex s (streamIndex s k j)) :
    (compositorRun s).2 = errBadColourIndex := by
  obtain ⟨k, j, x, y, hdrawn, hbad⟩ := h
  obtain ⟨n, hn, rfl, rfl⟩ := drawnAt_number hdrawn
  exact (compositorRun_spec s).2.1
    ⟨n, hn, (drawing_bad_iff s n).2 ⟨((drawnAt_iff_shows hn x y).1 hdrawn).1, hbad⟩⟩

theorem compositorRun_good {s : State} (h : ∀ k j x y, DrawnAt s k j x y → ¬BadIndex s (streamIndex s k j)) :
    (compositorRun s).2 = 0#8 := by
  refine (compositorRun_spec s).2.2 fun n hn hbad => ?_
  obtain ⟨hshows, hindex⟩ := (drawing_bad_iff s n).1 hbad
  exact h _ _ _ _ ((drawnAt_iff_shows hn _ _).2 ⟨hshows, rfl, rfl⟩) hindex

theorem compositeCanvas_empty {s : State} (h : s.regs.pixCount = 0#32) :
    compositeCanvas s = (blankCanvas (s.regs.screenW * s.regs.screenH), errNoImageData) := if_pos h

/-! ### The completion step (R216) -/

theorem finishComposite_undisturbed (canvas : List Pixel) {s : State} (h : s.disturbed = false) :
    finishComposite canvas s =
      { ended s with mem := s.mem.setBytes s.regs.canvasBase.toNat (canvas.flatMap Pixel.bytes) } := by
  rw [finishComposite, complete_ok]
  · rw [ended, h]
    rfl
  · exact h

/-- A pixel of a canvas that was written. -/
theorem readPixel_setBytes {s t : State} {a : Nat} {c : List Pixel} {i : Nat} (he : t.epoch = s.epoch)
    (hm : t.mem = s.mem.setBytes a (c.flatMap Pixel.bytes)) (hi : i < c.length) :
    readPixel t (a + 4 * i) = c.getD i Pixel.blank := by
  have hbyte : ∀ j, j < 4 → readByte t (a + 4 * i + j) = (c.getD i Pixel.blank).bytes.getD j 0#8 := fun j hj => by
    rw [Nat.add_assoc, readByte_setBytes_at he hm (by rw [canvas_bytes_length]; omega), canvas_bytes_get c i j hi hj]
  rw [readPixel, hbyte 1 (by decide), hbyte 2 (by decide), hbyte 3 (by decide)]
  exact congrArg (Pixel.mk · _ _ _) (hbyte 0 (by decide))

end Sys2Proof.Machine

namespace Sys2Proof.Claim

open Sys2Proof.Machine

/-- Settles O35: the fill lies over what steps 1 and 2 left. -/
theorem disposalOfPreviousFrame : Obligations.DisposalOfPreviousFrame := by
  intro s x y hx hy disp
  have hfill : s.regs.prevInfo.prevDisposal = 2#3 ↔ disp = 2 := (BitVec.toNat_inj (y := 2#3)).symm
  rw [pixelAt_disposedCanvas s hx hy]
  exact if_congr (and_congr hfill (inPrevRect_iff ..)) rfl (if_congr (Regs.seeds_iff _) rfl rfl)

/-- Settles O36: each pixel of the stream is drawn at a position of its own, so what a position holds at the end is what
that one pixel drew there. -/
theorem drawnPixels : Obligations.DrawnPixels := by
  rintro s r rfl
  refine ⟨fun hempty => ?empty, fun hpix => ?pixels⟩
  case empty =>
    rw [compositeCanvas_empty hempty]
    exact ⟨rfl, fun x y _ _ => pixelAt_blankCanvas ..⟩
  case pixels =>
    rw [compositeCanvas_of_pixels hpix]
    refine ⟨fun x y hx hy hno => ?outside, fun k j x y hdrawn => ⟨fun ht => ?transparent, fun hbad => ?bad,
      fun ht hindex => ?colour⟩, compositorRun_bad, compositorRun_good⟩
    case outside => exact pixelAt_compositorRun_kept hx hy fun k j h => absurd h (hno k j)
    case transparent =>
      obtain ⟨-, -, -, -, hx, hy⟩ := id hdrawn
      refine pixelAt_compositorRun_kept hx hy fun k' j' h => ?_
      obtain ⟨rfl, rfl⟩ := drawnAt_unique hdrawn h
      exact ht
    case bad => exact (pixelAt_compositorRun_drawn hdrawn hbad.1).trans (if_pos hbad.2)
    case colour => exact (pixelAt_compositorRun_drawn hdrawn ht).trans (if_neg (Nat.not_le.2 hindex))

/-- Settles O37: the four passes are those of `rowMap`, and every row below H has one of the four remainders. -/
theorem rowMapIsPermutation : Obligations.RowMapIsPermutation := fun h =>
  ⟨rfl, rfl, rowMap_length true h, rowMap_nodup true h, mem_rowMap true h, by decide⟩

/-- Settles O34: the command ends on the state whose canvas region holds the bytes of the final canvas. -/
theorem compositeWritesCanvas : Obligations.CompositeWritesCanvas := by
  intro s hd hct hfits hapart r
  have hexec := exec_composite hct hfits hapart
  rw [finishComposite_undisturbed _ (s := setErr r.2 s) hd] at hexec
  refine ⟨_, hexec, fun x y hx hy => ?pixel, fun a ha => ?outside, rfl⟩
  case pixel =>
    have hpos : y * s.regs.screenW + x < r.1.length := by
      rw [compositeCanvas_length]
      exact (disposed_at s x y hx hy).1
    exact readPixel_setBytes (s := s) rfl rfl hpos
  case outside =>
    refine Eq.trans (readByte_setBytes s _ _ _ a rfl rfl) (if_neg ?_)
    rw [canvas_bytes_length, compositeCanvas_length]
    exact fun hin => ha.elim (Nat.not_lt.2 hin.1) (Nat.not_le.2 hin.2)

end Sys2Proof.Claim

/-! Proofs of the statements about control (43_control.md): what the registers hold and what a write makes of them, the
CMD write, the soft reset, and what every command leaves unchanged. -/

namespace Sys2Proof.Machine

open Sys2Proof.Claim (readMask rwMask w1cMask resultOffsets withResultsOf ended)

/-! ### The register map (10_state.md R20 to R53) -/

/-- No bit of a register outside its fields is ever set. -/
theorem Regs.value_and_not_readMask (r : Regs) (off : Nat) : r.value off &&& ~~~readMask off = 0#32 := by
  have word : ∀ x : Word, x &&& ~~~0xFFFFFFFF#32 = 0#32 := fun x => BitVec.and_zero
  unfold Regs.value
  split
  case h_3 | h_33 => exact BitVec.zero_and
  -- registers with reserved bits, bit by bit
  case h_2 | h_4 | h_5 | h_6 | h_14 | h_15 | h_21 | h_24 | h_32 =>
    simp only [readMask, Status.toWord]
    refine BitVec.eq_of_getLsbD_eq fun i hi => ?_
    simp only [BitVec.getLsbD_and, BitVec.getLsbD_not, BitVec.getLsbD_append, BitVec.getLsbD_zero]
    interval_cases i <;> simp
  all_goals exact word _

theorem Regs.value_beyond (r : Regs) {off : Nat} (h : 0x80 ≤ off) : r.value off = 0#32 := by
  unfold Regs.value
  split
  case h_33 => rfl
  all_goals omega

theorem Regs.value_ctrl (r : Regs) : (r.value 0x04).getLsbD 0 = r.irqEn := by
  simp only [Regs.value, BitVec.getLsbD_append]
  simp

theorem Regs.value_status_flags (r : Regs) :
    (r.value 0x0C).getLsbD 0 = r.status.busy ∧ (r.value 0x0C).getLsbD 1 = r.status.done ∧
    (r.value 0x0C).getLsbD 2 = r.status.fault ∧ (r.value 0x0C).getLsbD 3 = r.status.illegalCmd ∧
    (r.value 0x0C).getLsbD 4 = r.status.overrun := by
  simp only [Regs.value, Status.toWord, BitVec.getLsbD_append]
  simp

/-- A field between two others is read back from the place the lower one ends at. -/
theorem extractLsb'_middle {h n l : Nat} (x : BitVec h) (y : BitVec n) (z : BitVec l) :
    (x ++ y ++ z).extractLsb' l n = y := by
  rw [BitVec.extractLsb'_append_eq_of_le (Nat.le_refl l), Nat.sub_self, BitVec.extractLsb'_append_eq_right]

theorem Regs.value_status_lastOp (r : Regs) : (r.value 0x0C).extractLsb' 8 4 = r.status.lastOp := by
  simp only [Regs.value, Status.toWord]
  iterate 5 rw [BitVec.extractLsb'_append_eq_of_le (by decide)]
  exact extractLsb'_middle ..

theorem Regs.value_status_faultCause (r : Regs) : (r.value 0x0C).extractLsb' 16 8 = r.status.faultCause := by
  simp only [Regs.value, Status.toWord]
  iterate 7 rw [BitVec.extractLsb'_append_eq_of_le (by decide)]
  exact extractLsb'_middle ..

theorem Regs.value_imgFlags (r : Regs) :
    (r.value 0x50).getLsbD 0 = r.imgFlags.interlaced ∧ (r.value 0x50).getLsbD 1 = r.imgFlags.transparent ∧
    (r.value 0x50).extractLsb' 8 8 = r.imgFlags.transparentIndex := by
  refine ⟨?_, ?_, ?index⟩
  case index =>
    simp only [Regs.value]
    iterate 2 rw [BitVec.extractLsb'_append_eq_of_le (by decide)]
    exact extractLsb'_middle ..
  all_goals
    simp only [Regs.value, BitVec.getLsbD_append]
    simp

theorem Regs.value_prevInfo (r : Regs) :
    (r.value 0x5C).extractLsb' 0 3 = r.prevInfo.prevDisposal ∧ (r.value 0x5C).getLsbD 8 = r.prevInfo.n2Exists := by
  refine ⟨BitVec.extractLsb'_append_eq_right, ?_⟩
  simp only [Regs.value, BitVec.getLsbD_append]
  simp

theorem Regs.value_lzwInfo (r : Regs) :
    (r.value 0x38).extractLsb' 0 8 = r.lzwInfo.minCodeSize ∧ (r.value 0x38).extractLsb' 8 4 = r.lzwInfo.initWidth :=
  ⟨BitVec.extractLsb'_append_eq_right, extractLsb'_middle ..⟩

theorem Regs.value_lzwState (r : Regs) :
    (r.value 0x7C).extractLsb' 0 13 = r.lzwState.nextCode ∧ (r.value 0x7C).extractLsb' 16 4 = r.lzwState.codeWidth := by
  refine ⟨BitVec.extractLsb'_append_eq_right, ?_⟩
  simp only [Regs.value]
  rw [BitVec.extractLsb'_append_eq_of_le (by decide)]
  exact extractLsb'_middle ..

/-! ### Reading a register (R231) -/

theorem regOffsetOk_of {off : Nat} (h4 : off % 4 = 0) (hlt : off < 256) : regOffsetOk off = true := by
  simp [regOffsetOk, h4, hlt]

theorem isResultReg_iff (off : Nat) : isResultReg off = true ↔ off ∈ resultOffsets := by
  simp [isResultReg, resultOffsets, or_assoc]

theorem resultBits_eq_readMask : ∀ off ∈ resultOffsets, resultBits off = readMask off := by decide

theorem exec_regRead_value {s : State} {off : Nat} (hoff : regOffsetOk off = true)
    (h : s.regs.status.busy = false ∨ off ∉ resultOffsets) :
    exec (.regRead off) s = .next { s with resp := some (.data (s.regs.value off)) } := by
  have hfixed : ¬(s.regs.status.busy && isResultReg off) = true := by
    rwa [Bool.and_eq_true, isResultReg_iff, not_and_or, Bool.not_eq_true]
  show execRegRead off s = _
  rw [execRegRead, if_pos hoff, if_neg hfixed]
  rfl

theorem exec_regRead_free {s : State} {off : Nat} (hoff : regOffsetOk off = true)
    (hb : s.regs.status.busy = true) (hres : off ∈ resultOffsets) :
    exec (.regRead off) s = .next { s with resp := some (.data (busyValue off (Config.freeWord s.fresh))),
                                           fresh := s.fresh + 1 } := by
  have hfree : (s.regs.status.busy && isResultReg off) = true := by
    rw [hb, (isResultReg_iff off).2 hres]; rfl
  show execRegRead off s = _
  rw [execRegRead, if_pos hoff, if_pos hfree]
  rfl

/-! ### Writing a register (R232, R239) -/

theorem exec_regWrite {off : Nat} (h : regOffsetOk off = true) (v : Word) (s : State) :
    exec (.regWrite off v) s = .next (respond .ok (writeRegister off v s)) := if_pos h

theorem inOverrunRange_iff (off : Nat) : inOverrunRange off = true ↔ 0x14 ≤ off ∧ off ≤ 0x7C := decide_eq_true_iff

/-- While busy a write to CMD or in the range of R239 only sets OVERRUN. -/
theorem writeRegister_ignored {s : State} {off : Nat} (hb : s.regs.status.busy = true)
    (h : off = 0x08 ∨ (0x14 ≤ off ∧ off ≤ 0x7C)) (v : Word) : writeRegister off v s = setOverrun s := by
  obtain rfl | hrange := h
  · rw [writeRegister_cmd, writeCmd_busy v hb]
  · rw [writeRegister, if_neg (by omega), hb, (inOverrunRange_iff off).2 hrange]
    rfl

/-- A write that is no CMD write, not ignored and no reset takes effect field by field. -/
theorem writeRegister_fields {s : State} {off : Nat} {v : Word} (hcmd : off ≠ 0x08)
    (hbusy : s.regs.status.busy = false ∨ ¬(0x14 ≤ off ∧ off ≤ 0x7C)) (hreset : ¬(off = 0x04 ∧ v.getLsbD 1 = true)) :
    writeRegister off v s = { s with regs := s.regs.write off v } := by
  have htaken : ¬(s.regs.status.busy && inOverrunRange off) = true := by
    rwa [Bool.and_eq_true, inOverrunRange_iff, not_and_or, Bool.not_eq_true]
  rw [writeRegister, if_neg hcmd, if_neg htaken]
  by_cases hctrl : off = 0x04
  · subst hctrl
    rw [if_pos rfl, writeCtrl_of_bit_clear]
    simpa using hreset
  · rw [if_neg hctrl]

theorem Regs.write_readOnly (v : Word) (r : Regs) {off : Nat} (h : off = 0x00 ∨ 0x80 ≤ off) : r.write off v = r := by
  unfold Regs.write
  split
  case h_23 => rfl
  all_goals omega

/-- A register whose 32 bits are all RW becomes the written word. -/
theorem masked_write_word (old v : Word) :
    (old &&& ~~~0xFFFFFFFF#32 &&& ~~~(v &&& 0#32)) ||| (v &&& 0xFFFFFFFF#32) = v := by
  show (old &&& ~~~BitVec.allOnes 32 &&& ~~~(v &&& 0#32)) ||| (v &&& BitVec.allOnes 32) = v
  rw [BitVec.not_allOnes, BitVec.and_zero, BitVec.zero_and, BitVec.zero_or, BitVec.and_allOnes]

/-- A register with no RW and no W1C bit keeps its value. -/
theorem masked_write_none (old v : Word) :
    (old &&& ~~~0#32 &&& ~~~(v &&& 0#32)) ||| (v &&& 0#32) = old := by
  rw [BitVec.and_zero, BitVec.or_zero, show ~~~0#32 = BitVec.allOnes 32 from rfl, BitVec.and_allOnes,
    BitVec.and_allOnes]

/-- RW bits take the written ones, W1C bits written 1 are cleared, the others stay (R232). -/
theorem Regs.value_write_same (off : Nat) (v : Word) (r : Regs) :
    (r.write off v).value off =
      (r.value off &&& ~~~rwMask off &&& ~~~(v &&& w1cMask off)) ||| (v &&& rwMask off) := by
  unfold Regs.write
  split
  -- CTRL, the W1C registers and the RW registers with reserved bits, bit by bit
  case h_1 | h_2 | h_3 | h_10 | h_14 | h_17 =>
    simp only [Regs.value, rwMask, w1cMask, Status.toWord, Status.w1c, errW1c]
    refine BitVec.eq_of_getLsbD_eq fun i hi => ?_
    simp only [BitVec.getLsbD_and, BitVec.getLsbD_or, BitVec.getLsbD_not, BitVec.getLsbD_append, BitVec.getLsbD_zero]
    interval_cases i <;> simp
  -- an offset of no writable register
  case h_23 =>
    have hrw : rwMask off = 0#32 := by
      unfold rwMask
      split
      case h_21 => rfl
      all_goals contradiction
    have hw1c : w1cMask off = 0#32 := by
      unfold w1cMask
      split
      case h_3 => rfl
      all_goals contradiction
    rw [hrw, hw1c, masked_write_none]
  all_goals exact (masked_write_word _ v).symm

theorem getLsbD_errW1c (v : Word) (e : ErrBits) {i : Nat} (h : i < 8) :
    (errW1c v e).getLsbD i = (e.getLsbD i && !v.getLsbD i) := by
  simp [errW1c, h]

/-! ### CMD writes (R235, R238, R239) -/

theorem exec_illegalCmd_busy (v : Word) {s : State} (hb : s.regs.status.busy = true) :
    exec (.illegalCmd v) s = .next (respond .ok (setOverrun s)) := by
  show execIllegalCmd v s = _
  rw [execIllegalCmd, if_pos hb]

theorem exec_illegalCmd_idle (v : Word) {s : State} (hb : s.regs.status.busy = false) :
    exec (.illegalCmd v) s = .next (respond .ok (setIllegalCmd s)) := by
  show execIllegalCmd v s = _
  rw [execIllegalCmd, hb]
  rfl

theorem exec_regWrite_cmd (v : Word) (s : State) :
    exec (.regWrite 0x08 v) s = .next (respond .ok (writeCmd v s)) := by
  rw [exec_regWrite rfl, writeRegister_cmd]

theorem writeCmd_illegal {v : Word} {s : State} (hb : s.regs.status.busy = false) (hv : illegalCmdWord v = true) :
    writeCmd v s = setIllegalCmd s := by
  simp [writeCmd, hb, Laws.Encodable.decodeOpcode_illegal hv]

theorem Opcode.word_extractLsb' (op : Opcode) : op.word.extractLsb' 0 4 = op.code := by cases op <;> rfl

/-! ### Soft reset (R241) -/

/-- The IRQ_EN bit of a CTRL write is no operand of a command, so it moves no region. -/
theorem inRunningWriteRegion_writeCtrl (v : Word) (s : State) (a : Nat) :
    inRunningWriteRegion { s with regs := s.regs.write 0x04 v } a = inRunningWriteRegion s a := rfl

theorem writeCtrl_of_bit_set {v : Word} (h : v.getLsbD 1 = true) (s : State) :
    writeCtrl v s = softReset { s with regs := s.regs.write 0x04 v } := if_pos h

/-! ### The end of a command (R236) -/

theorem exec_nop (s : State) : exec .nop s = .next { ended s with disturbed := false } := by
  show Host.Outcome.next (complete .nop none s) = _
  cases hd : s.disturbed with
  | false => rw [complete_ok .nop s hd]; rfl
  | true =>
    have hscramble : scrambleResults .nop none (scrambleWrites (regionsOf .nop s.regs) s) = s := rfl
    unfold complete
    simp only [hd, if_true, hscramble]
    rfl

theorem FaultCause.code_range (c : FaultCause) : 1 ≤ c.code.toNat ∧ c.code.toNat ≤ 6 := by cases c <;> decide

theorem endStatus_kept (c : Option FaultCause) (st : Status) :
    (endStatus c st).lastOp = st.lastOp ∧ (endStatus c st).illegalCmd = st.illegalCmd ∧
    (endStatus c st).overrun = st.overrun := by cases c <;> exact ⟨rfl, rfl, rfl⟩

theorem endStatus_fault (c : Option FaultCause) (st : Status) :
    ((endStatus c st).fault = st.fault ∧ (endStatus c st).faultCause = st.faultCause) ∨
    ((endStatus c st).fault = true ∧ 1 ≤ (endStatus c st).faultCause.toNat ∧
      (endStatus c st).faultCause.toNat ≤ 6) := by
  cases c with
  | none => exact .inl ⟨rfl, rfl⟩
  | some c => exact .inr ⟨rfl, c.code_range⟩

theorem withResultsOf_withResultsOf (p q r : Regs) : withResultsOf p (withResultsOf q r) = withResultsOf p r := rfl

theorem complete_regs_eq_withResultsOf (op : Opcode) (c : Option FaultCause) (s : State) :
    (complete op c s).regs = withResultsOf (complete op c s).regs s.regs := by
  unfold withResultsOf
  rw [complete_status]
  exact complete_regs op c s

theorem Worked.regs_eq_withResultsOf {op : Opcode} {bits : ErrBits} {s u : State} (hw : Worked op bits s u) :
    u.regs = withResultsOf u.regs s.regs := by
  unfold withResultsOf
  rw [hw.status]
  exact hw.regs

theorem Worked.complete_regs {op : Opcode} {bits : ErrBits} {s u : State} (hw : Worked op bits s u)
    (c : Option FaultCause) : (complete op c u).regs = withResultsOf (complete op c u).regs s.regs := by
  rw [← withResultsOf_withResultsOf _ u.regs, ← hw.regs_eq_withResultsOf]
  exact complete_regs_eq_withResultsOf op c u

/-- All that a whole completion step changes. -/
theorem Worked.complete_frame {op : Opcode} {bits : ErrBits} {s u : State} (hw : Worked op bits s u)
    (c : Option FaultCause) :
    complete op c u =
      { s with regs := (complete op c u).regs, mem := (complete op c u).mem, seq := .idle, datapath := .idle,
               disturbed := false, fresh := (complete op c u).fresh } := by
  have h := Machine.complete_frame op c u
  generalize complete op c u = t at h ⊢
  rw [hw.frame] at h
  exact h

theorem Worked.complete_outside {op : Opcode} {bits : ErrBits} {s u : State} (hw : Worked op bits s u)
    (c : Option FaultCause) {a : Nat} (h : (regionsOf op s.regs).any (fun g => g.write && g.has a) = false) :
    readByte (complete op c u) a = readByte s a := by
  rw [Machine.complete_outside op c u (by rwa [hw.regions]), hw.outside h]

end Sys2Proof.Machine

namespace Sys2Proof.Claim

open Sys2Proof.Machine

/-- Settles O41: the command's work and the end of a command each keep to the write regions and the result registers. -/
theorem commandsKeepToTheirRegions : Obligations.CommandsKeepToTheirRegions := by
  intro op s
  obtain ⟨c, bits, u, hexec, hw, -⟩ := exec_command op s
  obtain ⟨hlastOp, hillegal, hoverrun⟩ := endStatus_kept c s.regs.status
  have hstatus : (complete op c u).regs.status = endStatus c s.regs.status := by rw [complete_status, hw.status]
  refine ⟨complete op c u, hexec, ?_⟩
  rw [hstatus]
  exact ⟨endStatus_busy .., endStatus_done .., hlastOp, hillegal, hoverrun, endStatus_fault ..,
    fun _ => hw.complete_outside c, hw.complete_regs c, hw.complete_frame c⟩

/-- Settles O47: the write takes effect field by field, and only on the register at its own offset. -/
theorem regWriteByFieldKind : Obligations.RegWriteByFieldKind := by
  intro s off v h4 hlt hb hcmd hreset
  have hexec := exec_regWrite (regOffsetOk_of h4 hlt) v s
  rw [writeRegister_fields hcmd (.inl hb) hreset] at hexec
  refine ⟨_, hexec, fun o _ _ => ?value, rfl⟩
  case value =>
    show (s.regs.write off v).value o = _
    split_ifs with ho
    · rw [ho]
      exact Regs.value_write_same off v s.regs
    · exact Regs.value_write_other off o v s.regs ho

/-- Settles O50: the IRQ_EN update that comes before the reset moves no region of the running command. -/
theorem softResetAborts : Obligations.SoftResetAborts := by
  intro s v hv
  refine ⟨respond .ok (writeCtrl v s), rfl, ?write, ?_⟩
  case write => rw [exec_regWrite rfl, writeRegister_ctrl]
  rw [writeCtrl_of_bit_set hv]
  refine ⟨Regs.reset_value, rfl, fun a ha => ?outside, fun hidle => ?idle, rfl, ?frame⟩
  case outside => exact softReset_outside _ (by rwa [inRunningWriteRegion_writeCtrl])
  case idle => exact softReset_idle { s with regs := s.regs.write 0x04 v } hidle
  case frame =>
    rw [softReset_frame]
    rfl

/-- Settles O40: NOP has no region and no result register that a disturbance could touch. -/
theorem nopOnlyEnds : Obligations.NopOnlyEnds := exec_nop

/-- Settles O45, by the three outcomes of a CMD write. -/
theorem cmdWriteProtocol : Obligations.CmdWriteProtocol := by
  intro s v
  refine ⟨fun hb => ?busy, fun hb hv => ?illegal, fun op hb hv => ?accepted⟩
  case busy =>
    refine List.forall_mem_cons.2 ⟨?_, List.forall_mem_singleton.2 (exec_illegalCmd_busy v hb)⟩
    rw [exec_regWrite_cmd, writeCmd_busy v hb]
    rfl
  case illegal =>
    refine List.forall_mem_cons.2 ⟨?_, List.forall_mem_singleton.2 (exec_illegalCmd_idle v hb)⟩
    rw [exec_regWrite_cmd, writeCmd_illegal hb hv]
    rfl
  case accepted =>
    subst hv
    rw [exec_regWrite_cmd, writeCmd_word_idle op hb, Opcode.word_extractLsb']
    rfl

/-- Settles O46: what a read gives, busy or idle, then the map register by register. -/
theorem regReadGivesValue : Obligations.RegReadGivesValue := by
  refine ⟨fun s off h4 hlt => ⟨exec_regRead_value (regOffsetOk_of h4 hlt), fun hb hres => ?free,
    s.regs.value_and_not_readMask off⟩, fun r => ?map⟩
  case free =>
    refine ⟨_, _, exec_regRead_free (regOffsetOk_of h4 hlt) hb hres, ?_⟩
    rw [← resultBits_eq_readMask off hres]
    exact busyValue_reserved ..
  case map =>
    obtain ⟨hbusy, hdone, hfault, hillegal, hoverrun⟩ := r.value_status_flags
    obtain ⟨hinterlaced, htransparent, hindex⟩ := r.value_imgFlags
    obtain ⟨hdisposal, hn2⟩ := r.value_prevInfo
    obtain ⟨hmin, hinit⟩ := r.value_lzwInfo
    obtain ⟨hnext, hwidth⟩ := r.value_lzwState
    exact ⟨rfl, r.value_ctrl, rfl, hbusy, hdone, hfault, hillegal, hoverrun, r.value_status_lastOp,
      r.value_status_faultCause, BitVec.extractLsb'_append_eq_right, BitVec.extractLsb'_append_eq_right, rfl, rfl, rfl,
      rfl, rfl, rfl, rfl, BitVec.extractLsb'_append_eq_right, hmin, hinit, BitVec.extractLsb'_append_eq_right,
      BitVec.extractLsb'_append_eq_left, rfl, rfl, rfl, rfl, rfl, rfl, rfl, rfl, rfl, rfl, hinterlaced, htransparent,
      hindex, rfl, rfl, hdisposal, hn2, rfl, rfl, rfl, rfl, rfl, rfl, rfl, rfl, rfl, rfl, rfl, hnext, hwidth,
      fun off => r.value_beyond⟩

/-- Settles O48, by the three ways a write of R239 goes: ignored, nothing to take, as when idle. -/
theorem regWriteWhileBusy : Obligations.RegWriteWhileBusy := by
  intro s off v h4 hlt hb
  rw [exec_regWrite (regOffsetOk_of h4 hlt)]
  refine ⟨fun h => ?ignored, fun h => ?readOnly, fun h hv => ?ctrl, fun h => ?status, fun h => ?errState⟩
  case ignored => rw [writeRegister_ignored hb h]; rfl
  case readOnly =>
    rw [writeRegister_fields (by omega) (.inr (by omega)) (by omega), Regs.write_readOnly v s.regs h]
    rfl
  case ctrl => rw [h, writeRegister_ctrl, writeCtrl_of_bit_clear hv]; rfl
  case status => rw [h, writeRegister_status]; rfl
  case errState => rw [h, writeRegister_errState]; rfl

/-- Settles O49: the model writes STATUS so, and ERRSTATE bit by bit. -/
theorem writeOneToClear : Obligations.WriteOneToClear := fun s v =>
  ⟨rfl, _, rfl, fun _ => getLsbD_errW1c v s.regs.errState, rfl⟩

end Sys2Proof.Claim

/-! Proofs of the statements about exceptions (60_exceptions.md): the error bits a command adds, the access the block
answers with BUS_ERROR, and that no turn stops the block. -/

namespace Sys2Proof.Machine

/-! ### The error bits of a command (R252, R255) -/

theorem complete_lastErr {op : Opcode} {c : Option FaultCause} {s : State} (h : s.disturbed = false) :
    (complete op c s).regs.lastErr = s.regs.lastErr := by
  cases c with
  | none => rw [complete_ok op s h]
  | some c => rw [complete_fault op c s h]

/-- A command that ends with FAULT = 1, and did not start with it, took a fault. -/
theorem cause_of_endStatus_fault {c : Option FaultCause} {st : Status} (h : st.fault = false)
    (he : (endStatus c st).fault = true) : c ≠ none := by
  rintro rfl
  exact Bool.false_ne_true (h.symm.trans he)

/-! ### An access that breaks R63 or R64 (R261) -/

theorem lmemAccessOk_iff (s : State) (a n : Nat) :
    lmemAccessOk s a n = true ↔ (n = 1 ∨ n = 2 ∨ n = 4) ∧ a % n = 0 ∧ a + n ≤ s.params.lmemSize := by
  simp [lmemAccessOk, lmemAligned, or_assoc, and_assoc]

theorem lmemAccessOk_rejected {s : State} {a n : Nat}
    (h : ¬(n = 1 ∨ n = 2 ∨ n = 4) ∨ a % n ≠ 0 ∨ s.params.lmemSize < a + n) : lmemAccessOk s a n = false := by
  rw [← Bool.not_eq_true, lmemAccessOk_iff]
  omega

theorem exec_lmemRead_rejected {s : State} {a n : Nat} (h : lmemAccessOk s a n = false) :
    exec (.lmemRead a n) s = .next (busError s) := by
  show execLmemRead a n s = _
  rw [execLmemRead, h]; rfl

theorem exec_lmemWrite_rejected {s : State} {a n : Nat} (h : lmemAccessOk s a n = false) (v : Word) :
    exec (.lmemWrite a n v) s = .next (busError s) := by
  show execLmemWrite a n v s = _
  rw [execLmemWrite, h]; rfl

theorem regOffsetOk_misaligned {off : Nat} (h : off % 4 ≠ 0) : regOffsetOk off = false := by
  simp [regOffsetOk, h]

theorem rejectRegister_within {off : Nat} (h : off < 256) (s : State) : rejectRegister off s = busError s := if_pos h

theorem exec_regRead_misaligned {off : Nat} (hlt : off < 256) (h4 : off % 4 ≠ 0) (s : State) :
    exec (.regRead off) s = .next (busError s) := by
  show execRegRead off s = _
  rw [execRegRead, regOffsetOk_misaligned h4, rejectRegister_within hlt]; rfl

theorem exec_regWrite_misaligned {off : Nat} (hlt : off < 256) (h4 : off % 4 ≠ 0) (v : Word) (s : State) :
    exec (.regWrite off v) s = .next (busError s) := by
  show execRegWrite off v s = _
  rw [execRegWrite, regOffsetOk_misaligned h4, rejectRegister_within hlt]; rfl

/-- Every rejection but that of an access outside both windows is a BUS_ERROR. -/
theorem rejectAccess_busError {r : Reject} (h : r ≠ .outsideWindows) (s : State) : rejectAccess r s = busError s := by
  cases r with
  | outsideWindows => exact absurd rfl h
  | regWidth | regAlignment | lmemWidth | lmemAlignment | lmemBounds | endOfInput | trailingBytes | codeWidth => rfl

theorem decodeAccess_register_rejected {p : Params} {b : BusAccess} {off : Nat} (haddr : b.addr = p.regBase + off)
    (hlt : off < 256) (hbad : b.width ≠ 4 ∨ off % 4 ≠ 0) : ∃ r, decodeAccess p b = .error r ∧ r ≠ .outsideWindows := by
  rw [decodeAccess, haddr, if_pos (by omega), Nat.add_sub_cancel_left]
  by_cases hwidth : b.width = 4
  · have h4 : off % 4 ≠ 0 := hbad.resolve_left (not_not.2 hwidth)
    exact ⟨.regAlignment, by simp [hwidth, h4], nofun⟩
  · exact ⟨.regWidth, by simp [hwidth], nofun⟩

/-- The windows are disjoint, so an address in the LMEM window is checked by R64. -/
theorem decodeAccess_lmem_rejected {p : Params} {b : BusAccess} {a : Nat} (hp : p.WF)
    (haddr : b.addr = p.lmemHostBase + a) (hlt : a < p.lmemSize)
    (hbad : ¬(b.width = 1 ∨ b.width = 2 ∨ b.width = 4) ∨ a % b.width ≠ 0 ∨ p.lmemSize < a + b.width) :
    ∃ r, decodeAccess p b = .error r ∧ r ≠ .outsideWindows := by
  obtain ⟨-, -, -, -, hdisjoint⟩ := hp
  rw [decodeAccess, haddr, if_neg (by omega), if_pos (by omega), Nat.add_sub_cancel_left]
  dsimp only
  split_ifs with hwidth halign hbound
  · exact ⟨.lmemAlignment, rfl, nofun⟩
  · exact ⟨.lmemBounds, rfl, nofun⟩
  · exact absurd hbad (by omega)
  · exact ⟨.lmemWidth, rfl, nofun⟩

/-! ### No turn stops (R251, R254) -/

theorem hostTurn_next (s : State) : ∃ t, hostTurn s = .next t := by
  unfold hostTurn
  split
  · exact ⟨_, rfl⟩
  · split
    · next hi => exact decodeLine_next hi _
    · exact ⟨_, rfl⟩

theorem exec_command_ends (op : Opcode) (s : State) :
    ∃ t, exec op.instr s = .next t ∧ t.seq = .idle ∧ t.regs.status.busy = false ∧ t.regs.status.done = true := by
  obtain ⟨c, -, u, hexec, -⟩ := exec_command op s
  have hstatus := complete_status op c u
  exact ⟨complete op c u, hexec, rfl, by rw [hstatus, endStatus_busy], by rw [hstatus, endStatus_done]⟩

theorem blockTurn_next (s : State) : ∃ t, blockTurn s = .next t := by
  unfold blockTurn
  split
  · exact ⟨s, rfl⟩
  · next op _ =>
    obtain ⟨t, ht, -⟩ := exec_command_ends op s
    rw [decodeCmd_word]
    exact ⟨t, ht⟩

theorem nextTurn_next (s : State) : ∃ t, nextTurn s = .next t := by
  unfold nextTurn
  split
  · exact hostTurn_next _
  · exact blockTurn_next _
  · exact ⟨_, rfl⟩
  · split
    · exact hostTurn_next s
    · exact blockTurn_next s

end Sys2Proof.Machine

namespace Sys2Proof.Claim

open Sys2Proof.Machine

/-- Settles O42: a command's work sets the bits (`Worked`), and its undisturbed end leaves LAST_ERR and ERRSTATE alone. -/
theorem errorBitsAccumulate : Obligations.ErrorBitsAccumulate := by
  intro op s t hd hfault ht
  obtain ⟨c, bits, u, hexec, hw, hnone⟩ := exec_command op s
  obtain rfl : t = complete op c u := Host.Outcome.next.inj (ht.symm.trans hexec)
  have hu : u.disturbed = false := by rw [hw.frame]; exact hd
  rw [complete_lastErr hu, complete_errState hu, complete_status, hw.status, hw.lastErr, hw.errState]
  refine ⟨bits, rfl, rfl, fun hclear => ?clear, fun h => hnone (h.imp_right (Or.imp_right ?faulted))⟩
  case clear => rw [hclear, BitVec.zero_or]
  case faulted => exact cause_of_endStatus_fault hfault

/-- Settles O59: every turn answers, the host's because each line it decodes runs, the block's because every command
completes. -/
theorem stepNeverStops : Obligations.StepNeverStops := by
  refine ⟨fun s h => ?answers, fun s s0 op h => ?completes⟩
  case answers => rw [step_idle h.datapath]; exact nextTurn_next s
  case completes => rw [step_blockMoves h]; exact exec_command_ends op s0

/-- Settles O9: the decoder rejects the host's access inside a window, the bus instructions check their own operands. -/
theorem badAccessIsBusError : Obligations.BadAccessIsBusError := by
  refine ⟨fun s s0 b rest hp hm hl hbad => ?access, fun s off hlt h4 => ?register, fun s a n hbad => ?lmem⟩
  case access =>
    have hrej : ∃ r, decodeAccess s.params b = .error r ∧ r ≠ .outsideWindows := by
      obtain ⟨off, haddr, hlt, hbad⟩ | ⟨a, haddr, hlt, hbad⟩ := hbad
      · exact decodeAccess_register_rejected haddr hlt hbad
      · exact decodeAccess_lmem_rejected hp haddr hlt hbad
    obtain ⟨r, hr, hne⟩ := hrej
    rw [← params_hostMoves hm] at hr
    rw [step_hostMoves hm, hostTurn_rejected ((host_hostMoves hm).trans hl) hr, rejectAccess_busError hne]
    rfl
  case register => exact ⟨exec_regRead_misaligned hlt h4 s, fun v => exec_regWrite_misaligned hlt h4 v s⟩
  case lmem =>
    have hrej := lmemAccessOk_rejected hbad
    exact ⟨exec_lmemRead_rejected hrej, exec_lmemWrite_rejected hrej⟩

end Sys2Proof.Claim

/-! Proofs of the statements about reset and hazards (70_reset_and_hazards.md): what a command stores and ends with is
one value, computed from its registers and read regions only; then the commands from the reset values, and the
invariant. -/

namespace Sys2Proof.Machine

open Sys2Proof.Claim

/-! ### The work of a command (R294) -/

/-- All that a completion step brings to its end: the fault, the registers, and the bytes stored with their address. -/
structure Work where
  cause : Option FaultCause
  regs : Regs
  base : Nat
  bytes : List Byte

/-- No work but a fault, or none at all. -/
def Work.only (cause : Option FaultCause) (r : Regs) : Work := { cause := cause, regs := r, base := 0, bytes := [] }

/-- The state with the work done, before the command ends. -/
def Work.applyTo (w : Work) (s : State) : State := { s with regs := w.regs, mem := s.mem.setBytes w.base w.bytes }

/-- What DECOMPRESS does (40_decompress.md R130). -/
def decompressWork (s : State) : Work :=
  match regionFault s.params.lmemSize (regionsOf .decompress s.regs) with
  | some c => .only (some c) s.regs
  | none =>
    { cause := none
      regs := (decompressed s).1.results (setErr (decompressed s).2 s).regs
      base := s.regs.pixBase.toNat
      bytes := (decompressed s).1.pixels }

/-- What COMPRESS does with an encoding (41_compress.md R180, R181). -/
def encodedWork (e : Encoder) (r : Regs) : Work :=
  let out := frame e.m (pack e.codes)
  if r.outCap.toNat < out.length then
    { cause := some .outputCapacity, regs := { r with outLen := r.outCap }, base := r.outBase.toNat,
      bytes := out.take r.outCap.toNat }
  else { cause := none, regs := e.results r, base := r.outBase.toNat, bytes := out }

/-- What COMPRESS does (41_compress.md R170). -/
def compressWork (s : State) : Work :=
  match compressFault s with
  | some c => .only (some c) s.regs
  | none => encodedWork (compressed s) s.regs

/-- What COMPOSITE does (42_composite.md R200). -/
def compositeWork (s : State) : Work :=
  match compositeFault s with
  | some c => .only (some c) s.regs
  | none =>
    { cause := none
      regs := (setErr (compositeCanvas s).2 s).regs
      base := s.regs.canvasBase.toNat
      bytes := (compositeCanvas s).1.flatMap Pixel.bytes }

/-- What a command does. -/
def commandWork (op : Opcode) (s : State) : Work :=
  match op with
  | .nop => .only none s.regs
  | .decompress => decompressWork s
  | .compress => compressWork s
  | .composite => compositeWork s

theorem execDecompress_eq_work (s : State) :
    execDecompress s = .next (complete .decompress (decompressWork s).cause ((decompressWork s).applyTo s)) := by
  unfold execDecompress decompressWork
  cases regionFault s.params.lmemSize (regionsOf .decompress s.regs) with
  | some c => rfl
  | none =>
    rw [decompressed, decodeStream, readBytes_length]
    rfl

theorem finishCompress_eq_work (e : Encoder) (s : State) :
    finishCompress e s = complete .compress (encodedWork e s.regs).cause ((encodedWork e s.regs).applyTo s) := by
  unfold finishCompress encodedWork
  dsimp only
  split <;> rfl

theorem execCompress_eq_work (s : State) :
    execCompress s = .next (complete .compress (compressWork s).cause ((compressWork s).applyTo s)) := by
  unfold execCompress compressWork
  cases compressFault s with
  | some c => rfl
  | none => exact congrArg _ (finishCompress_eq_work (compressed s) s)

theorem execComposite_eq_work (s : State) :
    execComposite s = .next (complete .composite (compositeWork s).cause ((compositeWork s).applyTo s)) := by
  unfold execComposite compositeWork
  cases compositeFault s <;> rfl

/-- A completion step does the command's work and ends it. -/
theorem exec_command_eq_work (op : Opcode) (s : State) :
    exec op.instr s = .next (complete op (commandWork op s).cause ((commandWork op s).applyTo s)) := by
  cases op with
  | nop => rfl
  | decompress => exact execDecompress_eq_work s
  | compress => exact execCompress_eq_work s
  | composite => exact execComposite_eq_work s

/-! ### The work depends on the registers and the read regions only (R294, 20_memory.md R70) -/

/-- What a command takes from a state is the same in `t` as in `s`: registers, parameters, the bytes it reads. -/
structure SameInput (op : Opcode) (s t : State) : Prop where
  regs : t.regs = s.regs
  params : t.params = s.params
  bytes : ∀ g ∈ regionsOf op s.regs, g.write = false → ∀ a, g.has a = true → readByte t a = readByte s a

/-- The bytes of a read region, counted from its base. -/
theorem SameInput.byte {op : Opcode} {s t : State} (h : SameInput op s t) {base len : Nat}
    (hg : { base := base, len := len, write := false } ∈ regionsOf op s.regs) {i : Nat} (hi : i < len) :
    readByte t (base + i) = readByte s (base + i) :=
  h.bytes _ hg rfl _ (decide_eq_true ⟨Nat.le_add_right .., Nat.add_lt_add_left hi _⟩)

theorem SameInput.readBytes {op : Opcode} {s t : State} (h : SameInput op s t) {base len : Nat}
    (hg : { base := base, len := len, write := false } ∈ regionsOf op s.regs) :
    readBytes t base len = readBytes s base len :=
  readBytes_congr fun _ => h.byte hg

theorem setErr_regs_congr (b : ErrBits) {s t : State} (h : t.regs = s.regs) :
    (setErr b t).regs = (setErr b s).regs := by
  simp only [setErr, h]

theorem decompressWork_congr {s t : State} (h : SameInput .decompress s t) : decompressWork t = decompressWork s := by
  have hinput : decompressed t = decompressed s := by
    rw [decompressed, h.regs, h.readBytes (by simp [regionsOf])]
    rfl
  unfold decompressWork
  rw [hinput, setErr_regs_congr _ h.regs, h.params, h.regs]

theorem compressWork_congr {s t : State} (h : SameInput .compress s t) : compressWork t = compressWork s := by
  have hinput : compressInput t = compressInput s := by
    rw [compressInput, h.regs, h.readBytes (by simp [regionsOf])]
    rfl
  have hfault : compressFault t = compressFault s := by
    unfold compressFault
    rw [hinput, h.params, h.regs]
  unfold compressWork compressed
  rw [hinput, hfault, h.regs]

theorem compositeWork_congr {s t : State} (h : SameInput .composite s t) : compositeWork t = compositeWork s := by
  have hcanvas : compositeCanvas t = compositeCanvas s :=
    compositeCanvas_congr h.regs (fun _ => h.byte (by simp [regionsOf])) (fun _ => h.byte (by simp [regionsOf]))
      (fun hseeds _ => h.byte (by simp [regionsOf, hseeds]))
  have hfault : compositeFault t = compositeFault s := by
    unfold compositeFault
    rw [h.params, h.regs]
  unfold compositeWork
  rw [hcanvas, hfault, setErr_regs_congr _ h.regs, h.regs]

theorem commandWork_congr {op : Opcode} {s t : State} (h : SameInput op s t) : commandWork op t = commandWork op s := by
  cases op with
  | nop => exact congrArg (Work.only none) h.regs
  | decompress => exact decompressWork_congr h
  | compress => exact compressWork_congr h
  | composite => exact compositeWork_congr h

/-! ### The end of an undisturbed command (43_control.md R236) -/

theorem complete_undisturbed (op : Opcode) (c : Option FaultCause) {s : State} (h : s.disturbed = false) :
    complete op c s =
      { s with regs := { s.regs with status := endStatus c s.regs.status }, seq := .idle, datapath := .idle } := by
  cases c with
  | none => rw [complete_ok op s h, h]; rfl
  | some c => rw [complete_fault op c s h, h]; rfl

/-- The registers an undisturbed command ends with are those of its work, but for STATUS. -/
theorem regs_complete_work (op : Opcode) (w : Work) {s : State} (h : s.disturbed = false) :
    (complete op w.cause (w.applyTo s)).regs = { w.regs with status := endStatus w.cause w.regs.status } := by
  rw [complete_undisturbed op w.cause (s := w.applyTo s) h]
  rfl

/-- Every byte is one the work stores, or is unchanged. -/
theorem readByte_complete_work (op : Opcode) (w : Work) {s : State} (h : s.disturbed = false) (a : Nat) :
    readByte (complete op w.cause (w.applyTo s)) a =
      if w.base ≤ a ∧ a < w.base + w.bytes.length then w.bytes.getD (a - w.base) 0#8 else readByte s a := by
  rw [complete_undisturbed op w.cause (s := w.applyTo s) h]
  exact readByte_setBytes s _ _ _ a rfl rfl

/-! ### After reset (R280, R282) -/

theorem inv_resetWith {p : Params} (h : p.WF) : (State.resetWith p).Inv where
  params := h
  memWf := rfl
  memBelow := nofun
  datapath := rfl
  status := rfl
  lastOp := Nat.zero_le 3
  faultCause := Nat.zero_le 6
  lastErr := nofun
  disturbed _ := rfl

theorem Regs.npix_reset : Regs.reset.npix = 0 := by decide

theorem Regs.screen_reset : Regs.reset.screenW * Regs.reset.screenH = 0 := by decide

theorem Regs.canvasBytes_reset : Regs.reset.canvasBytes = 0 := congrArg (4 * ·) Regs.screen_reset

/-- With the reset values every region is empty. -/
theorem decompressFits_reset (p : Params) : DecompressFits (accept .decompress (State.resetWith p)) :=
  ⟨.inl rfl, .inl Regs.npix_reset⟩

theorem compositeFits_reset (p : Params) : CompositeFits (accept .composite (State.resetWith p)) :=
  ⟨.inl rfl, .inl rfl, fun _ => .inl Regs.canvasBytes_reset, .inl Regs.canvasBytes_reset⟩

theorem compositeApart_reset (p : Params) : CompositeApart (accept .composite (State.resetWith p)) :=
  ⟨.inl rfl, .inl rfl, fun _ => .inl Regs.canvasBytes_reset⟩

theorem compressFault_reset (p : Params) :
    compressFault (accept .compress (State.resetWith p)) = some .badMinCodeSize := by
  have hsize : ¬(2 ≤ Regs.reset.lzwCfg.toNat ∧ Regs.reset.lzwCfg.toNat ≤ 8) := by decide
  rw [compressFault_eq]
  exact if_pos hsize

theorem decompressed_reset (p : Params) :
    decompressed (accept .decompress (State.resetWith p)) =
      ({ Decoder.start 0 [] with framed := true }, errInputTruncated) := by
  show decodeStream Regs.reset.npix [] = _
  rw [Regs.npix_reset, decodeStream_nil]
  exact congrArg _ (by decide)

theorem compositeCanvas_reset (p : Params) :
    compositeCanvas (accept .composite (State.resetWith p)) = ([], errNoImageData) := by
  rw [compositeCanvas_empty rfl]
  show (blankCanvas (Regs.reset.screenW * Regs.reset.screenH), _) = _
  rw [Regs.screen_reset]
  rfl

end Sys2Proof.Machine

namespace Sys2Proof.Claim

open Sys2Proof.Machine

/-- Settles O44: the two states give the command one and the same work, and an undisturbed command ends with nothing
else. -/
theorem commandReadsOnlyItsRegions : Obligations.CommandReadsOnlyItsRegions := by
  intro op s s' hd hd' hregs hparams hbytes
  have hwork : commandWork op s' = commandWork op s := commandWork_congr ⟨hregs, hparams, hbytes⟩
  have hexec' := exec_command_eq_work op s'
  rw [hwork] at hexec'
  refine ⟨_, _, exec_command_eq_work op s, hexec', ?registers, fun a => ?byte⟩
  case registers => rw [regs_complete_work op _ hd, regs_complete_work op _ hd']
  case byte =>
    rw [readByte_complete_work op _ hd, readByte_complete_work op _ hd']
    split
    · exact .inl rfl
    · exact .inr ⟨rfl, rfl⟩

/-- Settles O56: with the reset values DECOMPRESS has no input and COMPOSITE no pixel buffer, and LZW_CFG = 0 is no
minimum code size. -/
theorem commandsFromReset : Obligations.CommandsFromReset := by
  refine fun p => ⟨⟨_, exec_nop _, ?nop⟩, ?decompress, ?compress, ?composite⟩
  case nop =>
    show (endStatus none (Regs.reset.status.accept .nop)).toWord = _
    decide
  case decompress =>
    have hexec := exec_decompress (decompressFits_reset p) (.inl rfl)
    rw [decompressed_reset, finishDecompress_undisturbed _ rfl] at hexec
    refine ⟨_, hexec, ?_, BitVec.zero_or⟩
    show (endStatus none (Regs.reset.status.accept .decompress)).toWord = _
    decide
  case compress =>
    refine ⟨_, exec_compress_fault rfl (compressFault_reset p), ?_⟩
    show (endStatus (some .badMinCodeSize) (Regs.reset.status.accept .compress)).toWord = _
    decide
  case composite =>
    have hexec := exec_composite (s := accept .composite (State.resetWith p)) (Nat.zero_le 256)
      (compositeFits_reset p) (compositeApart_reset p)
    rw [compositeCanvas_reset, finishComposite_undisturbed _ rfl] at hexec
    refine ⟨_, hexec, ?_, BitVec.zero_or⟩
    show (endStatus none (Regs.reset.status.accept .composite)).toWord = _
    decide

/-- Settles O57: after reset no command runs, no byte of LMEM is written, and every register is 0. -/
theorem resetMeetsInvariant : Obligations.ResetMeetsInvariant := fun _ => inv_resetWith

end Sys2Proof.Claim
